-- ==== Sys2Proof/Word.lean ====
section
/-! DEFINITION. The word types of the core (00_scope.md R11, R18, R24) and the access widths (20_memory.md R69). -/

namespace Sys2Proof

/-- 8 bits (R24). -/
abbrev Byte := BitVec 8

/-- 16 bits (R24). -/
abbrev Half := BitVec 16

/-- The Word of R11 and R18: 32 bits, the width of every GPR, of the PC and of every CSR. -/
abbrev Word := BitVec 32

/-- A GPR number, the 5-bit rs1, rs2 and rd fields (R12, 30_encoding.md R113). -/
abbrev Reg := BitVec 5

/-- A CSR address, the 12-bit csr field (R12, 30_encoding.md R113). -/
abbrev CsrAddr := BitVec 12

/-- The widths of a memory access: n = 1, 2 or 4 bytes (20_memory.md R63, R69). -/
inductive Width where
  | byte
  | half
  | word
  deriving DecidableEq, Repr

/-- The n of `MemRead(addr, n)` and `MemWrite(addr, n, v)` (20_memory.md R64, R65). -/
def Width.bytes : Width → Nat
  | .byte => 1
  | .half => 2
  | .word => 4

/-- 8n, the number of bits an access of this width moves (20_memory.md R64). -/
abbrev Width.bits : Width → Nat
  | .byte => 8
  | .half => 16
  | .word => 32

end Sys2Proof
end

