-- ==== Sys2Proof/Config.lean ====
section
/-! DEFINITION. The two open parameters of the spec (00_scope.md R13, R14; 92_eei_decisions.md D1, D2). The spec leaves no
result of an instruction undefined, so there is no free value. -/

namespace Sys2Proof

/-- The parameters of one core. They are fixed for its life (R13). The model carries them in the field `cfg` of
State, which no step, reset or host command changes, so a statement about every state holds for every value of them
(assumption log 1). -/
structure Config where
  /-- MEM_SIZE, the memory size in bytes (R13, D1). -/
  memSize : Nat
  /-- RESET_CLEARS_MEMORY: whether the core reset also zeroes the memory (R14, D2). -/
  resetClearsMemory : Bool
  deriving DecidableEq, Repr

/-- The bound of R13: 0 <= MEM_SIZE <= 2^31. -/
abbrev Config.wf (c : Config) : Prop := c.memSize ≤ 2 ^ 31

end Sys2Proof
end

