-- ==== Sys2Proof/Machine/Params.lean ====
section
/-! DEFINITION. The parameter values State.reset carries. The spec leaves MEM_SIZE and RESET_CLEARS_MEMORY open (00_scope.md
R13, R14); nothing but State.reset reads these two definitions. -/

namespace Sys2Proof.Machine

/-- DESIGN CHOICE (assumption log 2, unsafe): the largest memory R13 allows, so that every address an access can reach
exists. -/
def Params.memSize : Nat := 2 ^ 31

/-- DESIGN CHOICE (assumption log 2, unsafe): a later core reset keeps the memory. -/
def Params.resetClearsMemory : Bool := false

/-- The parameters of the core that State.reset describes. -/
def Params.config : Config := { memSize := Params.memSize, resetClearsMemory := Params.resetClearsMemory }

end Sys2Proof.Machine
end

