-- ==== Sys2Proof/Machine/State.lean ====
section
/-! DEFINITION. The state of the core as plain data (10_state.md), the conditions a step can end in (60_exceptions.md R320,
R321), the reasons a run can stop, and the state after reset (70_reset_and_hazards.md R360). -/

namespace Sys2Proof.Machine

/-- Running, Halted or Faulted (10_state.md R45). -/
inductive RunState where
  | running
  | halted
  | faulted
  deriving DecidableEq, Repr

/-- The condition a step ended in, with what the report records (60_exceptions.md R321, 48_cpu_driver.md R304): the pc
of the instruction, its word (none for a fetch), and for a range violation the effective address and the width. -/
inductive Condition where
  | environmentCall (pc inst : Word)
  | breakpoint (pc inst : Word)
  | illegalInstruction (pc inst : Word)
  | memoryRangeViolation (pc : Word) (inst : Option Word) (addr : Word) (width : Width)
  deriving DecidableEq, Repr

/-- The memory: (address, byte) pairs, addresses strictly rising, no byte equal to what an unlisted address reads as
(20_memory.md R60: zeroed on construction). -/
abbrev Memory := List Host.Cell

/-- The CSR file: (number, value) pairs in the same canonical form; an unlisted cell is 0 (10_state.md R38). -/
abbrev CsrFile := List (Nat × Word)

/-- Everything the spec gives the machine (10_state.md section 1), and the two parameters. -/
structure State where
  /-- MEM_SIZE and RESET_CLEARS_MEMORY (00_scope.md R13, R14): parameters, changed by nothing (assumption log 1). -/
  cfg : Config
  /-- x0 to x31 (R30). Cell 0 is x0's and is never read or written: x0 is hardwired (R31). -/
  regs : Vector Word 32
  /-- The address of the instruction being executed, or of the next one between steps (R34). -/
  pc : Word
  /-- CSR[0] to CSR[4095] (R38). -/
  csrs : CsrFile
  /-- M[0] to M[MEM_SIZE-1] (20_memory.md R60). -/
  mem : Memory
  /-- R45. -/
  runState : RunState
  /-- The last condition a step raised, or none (R46). -/
  report : Option Condition
  deriving DecidableEq, Repr

/-- Why the model stops. No instruction and no step raises any of these: every condition of the spec is a next state
(assumption log 5). -/
inductive Fault where
  /-- Raised only by the commands of a core that has never been reset (Machine/HostPort.lean): its registers, PC, CSRs
  and run state are unspecified, and a step there "is not a run of this spec" (70_reset_and_hazards.md R364; I10:
  stuck). Safe: no property can use the unspecified values (assumption log 7). -/
  | beforeReset
  deriving DecidableEq, Repr

/-- Why an instruction has no meaning. -/
inductive Refusal where
  /-- An instruction that exec rejects by name; no arm does. Safe: a refused step proves nothing about the hardware. -/
  | notModelled (mnemonic : String)
  deriving DecidableEq, Repr

/-- What a meaning answers. -/
abbrev Result := Host.Outcome State Fault Refusal

/-- The state right after reset (R360, 10_state.md R30, R34, R38, R45, R46) of a core whose memory is as its construction
left it, all zero (R60, assumption log 3). -/
def State.reset : State where
  cfg := Params.config
  regs := Vector.replicate 32 0#32
  pc := 0#32
  csrs := []
  mem := []
  runState := .running
  report := none

end Sys2Proof.Machine
end

