-- ==== Sys2Proof/Machine/Ops.lean ====
section
/-! DEFINITION. The named operations over registers, CSRs and memory that every meaning uses (00_scope.md R21), raising a
condition (60_exceptions.md R330, 48_cpu_driver.md R290) and resuming after one (R333). -/

namespace Sys2Proof.Machine

/-! ## Sparse cells

One canonical form serves the memory bytes and the CSR cells: a list of (key, value) pairs, keys strictly rising, no value
equal to what an unlisted key reads as. -/

/-- What an unlisted key reads as: 0, the value construction gives every memory byte (20_memory.md R60, R75) and reset
gives every CSR cell (10_state.md R38). -/
abbrev Cells.unlisted (n : Nat) : BitVec n := 0#n

/-- The value at a key. -/
def Cells.read {n : Nat} : List (Nat × BitVec n) → Nat → BitVec n
  | [], _ => Cells.unlisted n
  | (k, v) :: rest, a => if k = a then v else Cells.read rest a

/-- Puts a pair in front of the first larger key. -/
def Cells.place {n : Nat} : List (Nat × BitVec n) → Nat → BitVec n → List (Nat × BitVec n)
  | [], a, v => [(a, v)]
  | (k, x) :: rest, a, v => if a < k then (a, v) :: (k, x) :: rest else (k, x) :: Cells.place rest a v

/-- Sets the value at a key: drops the key's old pair, and lists the new one unless an unlisted key already reads so. -/
def Cells.write {n : Nat} (cells : List (Nat × BitVec n)) (a : Nat) (v : BitVec n) : List (Nat × BitVec n) :=
  let others := cells.filter (fun c => c.1 != a)
  if v = Cells.unlisted n then others else Cells.place others a v

/-- The canonical form. -/
def Cells.canonical {n : Nat} (cells : List (Nat × BitVec n)) : Bool :=
  decide (cells.Pairwise (fun c d => c.1 < d.1)) && cells.all (fun c => c.2 != Cells.unlisted n)

/-! ## Memory bytes (20_memory.md R60, R62, R63) -/

/-- The canonical form of a memory. -/
def Memory.wf (m : Memory) : Bool := Cells.canonical m

/-- M[a]. -/
def Memory.readByte (m : Memory) (a : Nat) : Byte := Cells.read m a

/-- M[a] <- v. -/
def Memory.writeByte (m : Memory) (a : Nat) (v : Byte) : Memory := Cells.write m a v

/-- The bytes from a upwards as one little-endian value, M[a] in bits 7:0 (R62, R64). -/
def Memory.readWidth (m : Memory) (a : Nat) : (w : Width) → BitVec w.bits
  | .byte => m.readByte a
  | .half => m.readByte (a + 1) ++ m.readByte a
  | .word => m.readByte (a + 3) ++ m.readByte (a + 2) ++ m.readByte (a + 1) ++ m.readByte a

/-- Byte k of a Word, v[8k+7 : 8k] (R65). -/
def byteOf (v : Word) (k : Nat) : Byte := v.extractLsb' (8 * k) 8

/-- The low bytes of v to the bytes from a upwards (R62, R65). -/
def Memory.writeWidth (m : Memory) (a : Nat) (w : Width) (v : Word) : Memory :=
  match w with
  | .byte => m.writeByte a (byteOf v 0)
  | .half => (m.writeByte a (byteOf v 0)).writeByte (a + 1) (byteOf v 1)
  | .word =>
    (((m.writeByte a (byteOf v 0)).writeByte (a + 1) (byteOf v 1)).writeByte (a + 2) (byteOf v 2)).writeByte (a + 3)
      (byteOf v 3)

/-- The range check of R63 on plain integers: 0 <= s(addr) and s(addr) + n <= MEM_SIZE. -/
def inRange (memSize : Nat) (addr : Word) (w : Width) : Bool :=
  decide (0 ≤ addr.toInt) && decide (addr.toInt + w.bytes ≤ memSize)

/-- MemRead (R64); none stands for raising MemoryRangeViolation. -/
def State.memRead (s : State) (addr : Word) (w : Width) : Option (BitVec w.bits) :=
  if inRange s.cfg.memSize addr w then some (s.mem.readWidth addr.toNat w) else none

/-- MemWrite (R65); none stands for raising MemoryRangeViolation, with no byte written. -/
def State.memWrite (s : State) (addr : Word) (w : Width) (v : Word) : Option State :=
  if inRange s.cfg.memSize addr w then some { s with mem := s.mem.writeWidth addr.toNat w v } else none

/-! ## Registers, CSRs and the PC (10_state.md R30, R31, R34, R38) -/

/-- x[i]: 0 for x0 (R31). -/
def State.getReg (s : State) (r : Reg) : Word :=
  if r = 0#5 then 0#32 else s.regs[r.toNat]'r.isLt

/-- x[i] <- v: discarded for x0 (R31). -/
def State.setReg (s : State) (r : Reg) (v : Word) : State :=
  if r = 0#5 then s else { s with regs := s.regs.set r.toNat v r.isLt }

/-- CSR[c] (R38); no check and no side effect (R39 to R41). -/
def State.getCsr (s : State) (c : CsrAddr) : Word := Cells.read s.csrs c.toNat

/-- CSR[c] <- v: the exact 32-bit value (R39). -/
def State.setCsr (s : State) (c : CsrAddr) (v : Word) : State := { s with csrs := Cells.write s.csrs c.toNat v }

/-- The driver's PC <- pc + 4, modulo 2^32, after an instruction that is not a control transfer (48_cpu_driver.md R294,
10_state.md R37). -/
def State.advance (s : State) : State := { s with pc := s.pc + 4#32 }

/-- pc <- target: a control transfer owns the PC and the driver adds nothing (R294). -/
def State.jump (s : State) (target : Word) : State := { s with pc := target }

/-! ## Conditions (60_exceptions.md) -/

/-- Halts are EnvironmentCall and Breakpoint, faults the other two (R320, R321): the run state the condition leads to. -/
def Condition.runState : Condition → RunState
  | .environmentCall _ _ => .halted
  | .breakpoint _ _ => .halted
  | .illegalInstruction _ _ => .faulted
  | .memoryRangeViolation _ _ _ _ => .faulted

/-- The pc a condition's report records (R321). -/
def Condition.pc : Condition → Word
  | .environmentCall pc _ => pc
  | .breakpoint pc _ => pc
  | .illegalInstruction pc _ => pc
  | .memoryRangeViolation pc _ _ _ => pc

/-- The instruction word a condition's report records, if one was fetched (R321). -/
def Condition.inst : Condition → Option Word
  | .environmentCall _ inst => some inst
  | .breakpoint _ inst => some inst
  | .illegalInstruction _ inst => some inst
  | .memoryRangeViolation _ inst _ _ => inst

/-- The spec's number for a condition's kind, for hosts; no instruction can read it (R321, D11). -/
def Condition.code : Condition → Nat
  | .environmentCall _ _ => 0
  | .breakpoint _ _ => 1
  | .illegalInstruction _ _ => 2
  | .memoryRangeViolation _ _ _ _ => 3

/-- Ending a step in a condition: no GPR, CSR, memory byte or PC changes; the run state becomes Halted or Faulted and the
report records the condition (R330, R332, 48_cpu_driver.md R290). It is applied to the state from before the
instruction's writes, so they are discarded. -/
def State.raise (s : State) (c : Condition) : State := { s with runState := c.runState, report := some c }

/-- The way back after a condition: there is no trap-return instruction; the host sets the PC and steps again, and nothing
is restored (R333, 48_cpu_driver.md R297, R302). -/
def State.resumeAt (s : State) (target : Word) : State := s.jump target

/-! ## How instructions complete -/

/-- An instruction whose one result goes to rd, and which is no control transfer. -/
def retire (s : State) (rd : Reg) (v : Word) : Result := .next (s.setReg rd v).advance

/-- A branch: pc + off when taken, pc + 4 when not (45_control_transfer.md R240 to R245). -/
def branch (s : State) (taken : Bool) (off : Word) : Result :=
  .next (s.jump (if taken then s.pc + off else s.pc + 4#32))

/-- A jump that links: rd gets pc + 4, the PC the target (R246, R247). -/
def link (s : State) (rd : Reg) (target : Word) : Result := .next ((s.setReg rd (s.pc + 4#32)).jump target)

/-- A load of the given width at ea, widened by extend into rd; an access out of range raises MemoryRangeViolation and
writes no register, for rd = x0 too (43_loads.md R200 to R205). inst is the instruction's word, for the report. -/
def load (s : State) (inst : Word) (w : Width) (extend : BitVec w.bits → Word) (rd : Reg) (ea : Word) : Result :=
  match s.memRead ea w with
  | some v => retire s rd (extend v)
  | none => .next (s.raise (.memoryRangeViolation s.pc (some inst) ea w))

/-- A store of the low bits of v at ea; an access out of range raises MemoryRangeViolation and writes no byte
(44_stores.md R220 to R224). -/
def store (s : State) (inst : Word) (w : Width) (ea v : Word) : Result :=
  match s.memWrite ea w v with
  | some t => .next t.advance
  | none => .next (s.raise (.memoryRangeViolation s.pc (some inst) ea w))

/-- A Zicsr instruction: reads the old value, makes its CSR write if any, and writes the old value to rd
(47_zicsr.md R270). -/
def csrAccess (s : State) (rd : Reg) (csr : CsrAddr) (new : Option Word) : Result :=
  match new with
  | some v => .next ((s.setCsr csr v).setReg rd (s.getCsr csr)).advance
  | none => .next (s.setReg rd (s.getCsr csr)).advance

end Sys2Proof.Machine
end

