-- ==== Sys2Proof/Machine/Operands.lean ====
section
/-! DEFINITION. The operand forms: effective addresses, jump targets, shift amounts, widening of loaded values
(43_loads.md, 44_stores.md, 45_control_transfer.md, 42_integer_register.md R182). -/

namespace Sys2Proof.Machine

/-- ea = x[rs1] + imm modulo 2^32, the one addressing mode (R205, R224, D14). -/
def State.effAddr (s : State) (rs1 : Reg) (imm : Word) : Word := s.getReg rs1 + imm

/-- (x[rs1] + immI) & 0xFFFFFFFE: only bit 0 is cleared (R247). -/
def State.jalrTarget (s : State) (rs1 : Reg) (imm : Word) : Word := (s.getReg rs1 + imm) &&& 0xFFFFFFFE#32

/-- The amount of a register shift: u(v[4:0]) (R182, R186, R187). -/
def shiftAmount (v : Word) : Nat := (v.extractLsb' 0 5).toNat

/-- sext_8 (R200). -/
def sext8 (b : Byte) : Word := b.signExtend 32

/-- sext_16 (R201). -/
def sext16 (h : Half) : Word := h.signExtend 32

/-- zext_8 (R203). -/
def zext8 (b : Byte) : Word := b.zeroExtend 32

/-- zext_16 (R204). -/
def zext16 (h : Half) : Word := h.zeroExtend 32

/-- zext_5 (30_encoding.md R113, R274). -/
def zext5 (z : BitVec 5) : Word := z.zeroExtend 32

end Sys2Proof.Machine
end

