-- ==== Sys2Proof/Machine/Flags.lean ====
section
/-! DEFINITION. Comparisons. The core has no flags (10_state.md R33): a comparison writes a GPR or decides a branch. -/

namespace Sys2Proof.Machine

/-- a <s b: on the s() values (00_scope.md R19). -/
def ltSigned (a b : Word) : Bool := a.slt b

/-- a <u b: on the u() values (00_scope.md R19). -/
def ltUnsigned (a b : Word) : Bool := a.ult b

/-- A comparison's result in a GPR: exactly 0x00000001 or 0x00000000 (41_integer_immediate.md R169). -/
def boolWord (b : Bool) : Word := if b then 0x00000001#32 else 0x00000000#32

end Sys2Proof.Machine
end

