-- ==== Sys2Proof/Machine/ControlTransfer.lean ====
section
/-! DEFINITION. The control transfers (45_control_transfer.md). No target is checked for alignment or range. -/

namespace Sys2Proof.Machine

/-- R240. -/
def execBeq (rs1 rs2 : Reg) (off : Word) (s : State) : Result :=
  branch s (decide (s.getReg rs1 = s.getReg rs2)) off

/-- R241. -/
def execBne (rs1 rs2 : Reg) (off : Word) (s : State) : Result :=
  branch s (decide (s.getReg rs1 ≠ s.getReg rs2)) off

/-- R242: signed. -/
def execBlt (rs1 rs2 : Reg) (off : Word) (s : State) : Result :=
  branch s (ltSigned (s.getReg rs1) (s.getReg rs2)) off

/-- R243: signed. -/
def execBge (rs1 rs2 : Reg) (off : Word) (s : State) : Result :=
  branch s (!ltSigned (s.getReg rs1) (s.getReg rs2)) off

/-- R244: unsigned. -/
def execBltu (rs1 rs2 : Reg) (off : Word) (s : State) : Result :=
  branch s (ltUnsigned (s.getReg rs1) (s.getReg rs2)) off

/-- R245: unsigned. -/
def execBgeu (rs1 rs2 : Reg) (off : Word) (s : State) : Result :=
  branch s (!ltUnsigned (s.getReg rs1) (s.getReg rs2)) off

/-- R246: rd <- pc + 4, pc <- pc + immJ. -/
def execJal (rd : Reg) (off : Word) (s : State) : Result := link s rd (s.pc + off)

/-- R247: the target uses the old x[rs1]; rd <- pc + 4. -/
def execJalr (rd rs1 : Reg) (imm : Word) (s : State) : Result := link s rd (s.jalrTarget rs1 imm)

end Sys2Proof.Machine
end

