-- ==== Sys2Proof/Machine/IntegerImmediate.lean ====
section
/-! DEFINITION. The integer register-immediate instructions (41_integer_immediate.md). -/

namespace Sys2Proof.Machine

/-- R160: addition modulo 2^32. -/
def execAddi (rd rs1 : Reg) (imm : Word) (s : State) : Result := retire s rd (s.getReg rs1 + imm)

/-- R161: 1 if s(x[rs1]) < s(immI), else 0. -/
def execSlti (rd rs1 : Reg) (imm : Word) (s : State) : Result := retire s rd (boolWord (ltSigned (s.getReg rs1) imm))

/-- R162: 1 if u(x[rs1]) < u(immI), else 0; immI is sign-extended first. -/
def execSltiu (rd rs1 : Reg) (imm : Word) (s : State) : Result :=
  retire s rd (boolWord (ltUnsigned (s.getReg rs1) imm))

/-- R163. -/
def execXori (rd rs1 : Reg) (imm : Word) (s : State) : Result := retire s rd (s.getReg rs1 ^^^ imm)

/-- R164. -/
def execOri (rd rs1 : Reg) (imm : Word) (s : State) : Result := retire s rd (s.getReg rs1 ||| imm)

/-- R165. -/
def execAndi (rd rs1 : Reg) (imm : Word) (s : State) : Result := retire s rd (s.getReg rs1 &&& imm)

/-- R166: left shift, zeros in. -/
def execSlli (rd rs1 : Reg) (shamt : BitVec 5) (s : State) : Result := retire s rd (s.getReg rs1 <<< shamt.toNat)

/-- R167: right shift, zeros in. -/
def execSrli (rd rs1 : Reg) (shamt : BitVec 5) (s : State) : Result := retire s rd (s.getReg rs1 >>> shamt.toNat)

/-- R168: right shift, copies of bit 31 in. -/
def execSrai (rd rs1 : Reg) (shamt : BitVec 5) (s : State) : Result :=
  retire s rd ((s.getReg rs1).sshiftRight shamt.toNat)

end Sys2Proof.Machine
end

