-- ==== Sys2Proof/Machine/IntegerRegister.lean ====
section
/-! DEFINITION. The integer register-register instructions (42_integer_register.md). -/

namespace Sys2Proof.Machine

/-- R180: addition modulo 2^32. -/
def execAdd (rd rs1 rs2 : Reg) (s : State) : Result := retire s rd (s.getReg rs1 + s.getReg rs2)

/-- R181: subtraction modulo 2^32. -/
def execSub (rd rs1 rs2 : Reg) (s : State) : Result := retire s rd (s.getReg rs1 - s.getReg rs2)

/-- R182: left shift by the low 5 bits of x[rs2]. -/
def execSll (rd rs1 rs2 : Reg) (s : State) : Result := retire s rd (s.getReg rs1 <<< shiftAmount (s.getReg rs2))

/-- R183: 1 if s(x[rs1]) < s(x[rs2]), else 0. -/
def execSlt (rd rs1 rs2 : Reg) (s : State) : Result :=
  retire s rd (boolWord (ltSigned (s.getReg rs1) (s.getReg rs2)))

/-- R184: 1 if u(x[rs1]) < u(x[rs2]), else 0. -/
def execSltu (rd rs1 rs2 : Reg) (s : State) : Result :=
  retire s rd (boolWord (ltUnsigned (s.getReg rs1) (s.getReg rs2)))

/-- R185. -/
def execXor (rd rs1 rs2 : Reg) (s : State) : Result := retire s rd (s.getReg rs1 ^^^ s.getReg rs2)

/-- R186: right shift, zeros in, by the low 5 bits of x[rs2]. -/
def execSrl (rd rs1 rs2 : Reg) (s : State) : Result := retire s rd (s.getReg rs1 >>> shiftAmount (s.getReg rs2))

/-- R187: right shift, copies of bit 31 in, by the low 5 bits of x[rs2]. -/
def execSra (rd rs1 rs2 : Reg) (s : State) : Result :=
  retire s rd ((s.getReg rs1).sshiftRight (shiftAmount (s.getReg rs2)))

/-- R188. -/
def execOr (rd rs1 rs2 : Reg) (s : State) : Result := retire s rd (s.getReg rs1 ||| s.getReg rs2)

/-- R189. -/
def execAnd (rd rs1 rs2 : Reg) (s : State) : Result := retire s rd (s.getReg rs1 &&& s.getReg rs2)

end Sys2Proof.Machine
end

