-- ==== Sys2Proof/Syntax.lean ====
section
/-! DEFINITION. The 46 decoded instructions (30_encoding.md R121), one constructor for each row of opcode_table.json.
A decoded instruction carries register numbers and the immediates of R108 to R113, already extended to a Word (R114). -/

namespace Sys2Proof

inductive Instr where
  -- Upper immediate (40_upper_immediate.md); imm is immU (R111), the 20-bit field in bits 31:12
  | lui (rd : Reg) (imm : Word)
  | auipc (rd : Reg) (imm : Word)
  -- Control transfer (45_control_transfer.md); off is immB (R110) or immJ (R112), imm is immI (R108)
  | jal (rd : Reg) (off : Word)
  | jalr (rd rs1 : Reg) (imm : Word)
  | beq (rs1 rs2 : Reg) (off : Word)
  | bne (rs1 rs2 : Reg) (off : Word)
  | blt (rs1 rs2 : Reg) (off : Word)
  | bge (rs1 rs2 : Reg) (off : Word)
  | bltu (rs1 rs2 : Reg) (off : Word)
  | bgeu (rs1 rs2 : Reg) (off : Word)
  -- Loads (43_loads.md); imm is immI
  | lb (rd rs1 : Reg) (imm : Word)
  | lh (rd rs1 : Reg) (imm : Word)
  | lw (rd rs1 : Reg) (imm : Word)
  | lbu (rd rs1 : Reg) (imm : Word)
  | lhu (rd rs1 : Reg) (imm : Word)
  -- Stores (44_stores.md); rs2 is the data, rs1 the base, imm is immS (R109)
  | sb (rs2 rs1 : Reg) (imm : Word)
  | sh (rs2 rs1 : Reg) (imm : Word)
  | sw (rs2 rs1 : Reg) (imm : Word)
  -- Integer register-immediate (41_integer_immediate.md); imm is immI, shamt is inst[24:20] (R113)
  | addi (rd rs1 : Reg) (imm : Word)
  | slti (rd rs1 : Reg) (imm : Word)
  | sltiu (rd rs1 : Reg) (imm : Word)
  | xori (rd rs1 : Reg) (imm : Word)
  | ori (rd rs1 : Reg) (imm : Word)
  | andi (rd rs1 : Reg) (imm : Word)
  | slli (rd rs1 : Reg) (shamt : BitVec 5)
  | srli (rd rs1 : Reg) (shamt : BitVec 5)
  | srai (rd rs1 : Reg) (shamt : BitVec 5)
  -- Integer register-register (42_integer_register.md)
  | add (rd rs1 rs2 : Reg)
  | sub (rd rs1 rs2 : Reg)
  | sll (rd rs1 rs2 : Reg)
  | slt (rd rs1 rs2 : Reg)
  | sltu (rd rs1 rs2 : Reg)
  | xor (rd rs1 rs2 : Reg)
  | srl (rd rs1 rs2 : Reg)
  | sra (rd rs1 rs2 : Reg)
  | or (rd rs1 rs2 : Reg)
  | and (rd rs1 rs2 : Reg)
  -- System and synchronisation (46_system_sync.md)
  /-- inst[31:20], inst[19:15] and inst[11:7] of a FENCE word: read by nothing, any value (R118). -/
  | fence (ordering : BitVec 12) (rs1 rd : Reg)
  | ecall
  | ebreak
  -- Zicsr (47_zicsr.md)
  | csrrw (rd : Reg) (csr : CsrAddr) (rs1 : Reg)
  | csrrs (rd : Reg) (csr : CsrAddr) (rs1 : Reg)
  | csrrc (rd : Reg) (csr : CsrAddr) (rs1 : Reg)
  | csrrwi (rd : Reg) (csr : CsrAddr) (zimm : BitVec 5)
  | csrrsi (rd : Reg) (csr : CsrAddr) (zimm : BitVec 5)
  | csrrci (rd : Reg) (csr : CsrAddr) (zimm : BitVec 5)
  deriving DecidableEq, Repr

end Sys2Proof
end

