-- ==== Sys2Proof/WellFormed.lean ====
section
/-! DEFINITION. Which decoded instructions an instruction word can spell: the operand ranges of 30_encoding.md R126 and
R108 to R112. Register numbers, shamt, csr and zimm are in range by their types (R113). -/

namespace Sys2Proof

/-- imm12 is a signed value from -2048 to 2047 (R126, R108, R109). -/
def fitsImm12 (imm : Word) : Bool :=
  decide (-2048 ≤ imm.toInt) && decide (imm.toInt ≤ 2047)

/-- A branch offset is a signed even byte offset from -4096 to 4094 (R126, R110). -/
def fitsBranch (off : Word) : Bool :=
  decide (-4096 ≤ off.toInt) && decide (off.toInt ≤ 4094) && decide (off.toInt % 2 = 0)

/-- A JAL offset is a signed even byte offset from -1048576 to 1048574 (R126, R112). -/
def fitsJump (off : Word) : Bool :=
  decide (-1048576 ≤ off.toInt) && decide (off.toInt ≤ 1048574) && decide (off.toInt % 2 = 0)

/-- immU has its low 12 bits zero (R111). -/
def fitsUpper (imm : Word) : Bool :=
  decide (imm.toNat % 4096 = 0)

/-- The well-formed instructions: every immediate is one the instruction's format can hold. -/
def Instr.wf : Instr → Bool
  | .lui _ imm => fitsUpper imm
  | .auipc _ imm => fitsUpper imm
  | .jal _ off => fitsJump off
  | .jalr _ _ imm => fitsImm12 imm
  | .beq _ _ off => fitsBranch off
  | .bne _ _ off => fitsBranch off
  | .blt _ _ off => fitsBranch off
  | .bge _ _ off => fitsBranch off
  | .bltu _ _ off => fitsBranch off
  | .bgeu _ _ off => fitsBranch off
  | .lb _ _ imm => fitsImm12 imm
  | .lh _ _ imm => fitsImm12 imm
  | .lw _ _ imm => fitsImm12 imm
  | .lbu _ _ imm => fitsImm12 imm
  | .lhu _ _ imm => fitsImm12 imm
  | .sb _ _ imm => fitsImm12 imm
  | .sh _ _ imm => fitsImm12 imm
  | .sw _ _ imm => fitsImm12 imm
  | .addi _ _ imm => fitsImm12 imm
  | .slti _ _ imm => fitsImm12 imm
  | .sltiu _ _ imm => fitsImm12 imm
  | .xori _ _ imm => fitsImm12 imm
  | .ori _ _ imm => fitsImm12 imm
  | .andi _ _ imm => fitsImm12 imm
  | .slli _ _ _ => true
  | .srli _ _ _ => true
  | .srai _ _ _ => true
  | .add _ _ _ => true
  | .sub _ _ _ => true
  | .sll _ _ _ => true
  | .slt _ _ _ => true
  | .sltu _ _ _ => true
  | .xor _ _ _ => true
  | .srl _ _ _ => true
  | .sra _ _ _ => true
  | .or _ _ _ => true
  | .and _ _ _ => true
  | .fence _ _ _ => true
  | .ecall => true
  | .ebreak => true
  | .csrrw _ _ _ => true
  | .csrrs _ _ _ => true
  | .csrrc _ _ _ => true
  | .csrrwi _ _ _ => true
  | .csrrsi _ _ _ => true
  | .csrrci _ _ _ => true

end Sys2Proof
end

