-- ==== Sys2Proof/Decode.lean ====
section
/-! DEFINITION. Instruction encoding (30_encoding.md): the fields and immediates, the decoder, the encoder written from the
same tables, the opcode table, and the table-word entry point. -/

namespace Sys2Proof

/-! ## Fields of an instruction word (R101) -/

/-- inst[6:0]. -/
def opcodeOf (w : Word) : BitVec 7 := w.extractLsb' 0 7

/-- inst[11:7]. -/
def rdOf (w : Word) : Reg := w.extractLsb' 7 5

/-- inst[14:12]. -/
def funct3Of (w : Word) : BitVec 3 := w.extractLsb' 12 3

/-- inst[19:15]. -/
def rs1Of (w : Word) : Reg := w.extractLsb' 15 5

/-- inst[24:20]. -/
def rs2Of (w : Word) : Reg := w.extractLsb' 20 5

/-- inst[31:25]. -/
def funct7Of (w : Word) : BitVec 7 := w.extractLsb' 25 7

/-- inst[24:20], the amount of a shift-immediate (R113). -/
def shamtOf (w : Word) : BitVec 5 := w.extractLsb' 20 5

/-- inst[31:20], the CSR address, not sign-extended (R113). -/
def csrOf (w : Word) : CsrAddr := w.extractLsb' 20 12

/-- inst[19:15], the immediate of CSRRWI, CSRRSI and CSRRCI (R113). -/
def zimmOf (w : Word) : BitVec 5 := w.extractLsb' 15 5

/-! ## Immediates, built once by the decoder (R108 to R112) -/

/-- R108: sext_12(inst[31:20]). -/
def immI (w : Word) : Word := (w.extractLsb' 20 12).signExtend 32

/-- R109: sext_12 of inst[31:25] and inst[11:7]. -/
def immS (w : Word) : Word := (w.extractLsb' 25 7 ++ w.extractLsb' 7 5).signExtend 32

/-- R110: sext_13 of inst[31], inst[7], inst[30:25], inst[11:8] and a zero. -/
def immB (w : Word) : Word :=
  (w.extractLsb' 31 1 ++ w.extractLsb' 7 1 ++ w.extractLsb' 25 6 ++ w.extractLsb' 8 4 ++ 0#1).signExtend 32

/-- R111: inst[31:12] above twelve zero bits. -/
def immU (w : Word) : Word := w.extractLsb' 12 20 ++ 0#12

/-- R112: sext_21 of inst[31], inst[19:12], inst[20], inst[30:21] and a zero. -/
def immJ (w : Word) : Word :=
  (w.extractLsb' 31 1 ++ w.extractLsb' 12 8 ++ w.extractLsb' 20 1 ++ w.extractLsb' 21 10 ++ 0#1).signExtend 32

/-! ## The decoder (R114 to R120) -/

/-- Why a word is Undecoded (R119, R123). The machine treats every reason alike: IllegalInstruction
(48_cpu_driver.md R292). -/
inductive Undecoded where
  /-- The opcode has no row in the dispatch table of R115 (words whose bits[1:0] are not 11 among them, R100). -/
  | unknownOpcode (opcode : BitVec 7)
  /-- The opcode has rows, none with this funct3 (R116). -/
  | unknownFunct3 (opcode : BitVec 7) (funct3 : BitVec 3)
  /-- The opcode and funct3 have rows, none with this inst[31:25] (R116, R117). -/
  | unknownFunct7 (opcode : BitVec 7) (funct3 : BitVec 3) (funct7 : BitVec 7)
  /-- SYSTEM with funct3 000 that is neither the ECALL nor the EBREAK word (R120). -/
  | unknownSystemWord (w : Word)
  /-- Fewer than the four bytes of an instruction (R100); the fetch never gives this. -/
  | truncated
  deriving DecidableEq, Repr

/-- "either a typed instruction variant or undecoded" (R114). -/
inductive Decoded where
  | instr (i : Instr)
  | undecoded (why : Undecoded)
  deriving DecidableEq, Repr

/-- The instruction, if the word spells one. -/
def Decoded.toOption : Decoded → Option Instr
  | .instr i => some i
  | .undecoded _ => none

/-- Opcode 0x63: funct3 selects the branch (R116). -/
def decodeBranch (w : Word) : Decoded :=
  match funct3Of w with
  | 0b000#3 => .instr (.beq (rs1Of w) (rs2Of w) (immB w))
  | 0b001#3 => .instr (.bne (rs1Of w) (rs2Of w) (immB w))
  | 0b100#3 => .instr (.blt (rs1Of w) (rs2Of w) (immB w))
  | 0b101#3 => .instr (.bge (rs1Of w) (rs2Of w) (immB w))
  | 0b110#3 => .instr (.bltu (rs1Of w) (rs2Of w) (immB w))
  | 0b111#3 => .instr (.bgeu (rs1Of w) (rs2Of w) (immB w))
  | f3 => .undecoded (.unknownFunct3 0x63#7 f3)

/-- Opcode 0x03: funct3 selects the load (R116). -/
def decodeLoad (w : Word) : Decoded :=
  match funct3Of w with
  | 0b000#3 => .instr (.lb (rdOf w) (rs1Of w) (immI w))
  | 0b001#3 => .instr (.lh (rdOf w) (rs1Of w) (immI w))
  | 0b010#3 => .instr (.lw (rdOf w) (rs1Of w) (immI w))
  | 0b100#3 => .instr (.lbu (rdOf w) (rs1Of w) (immI w))
  | 0b101#3 => .instr (.lhu (rdOf w) (rs1Of w) (immI w))
  | f3 => .undecoded (.unknownFunct3 0x03#7 f3)

/-- Opcode 0x23: funct3 selects the store (R116). -/
def decodeStore (w : Word) : Decoded :=
  match funct3Of w with
  | 0b000#3 => .instr (.sb (rs2Of w) (rs1Of w) (immS w))
  | 0b001#3 => .instr (.sh (rs2Of w) (rs1Of w) (immS w))
  | 0b010#3 => .instr (.sw (rs2Of w) (rs1Of w) (immS w))
  | f3 => .undecoded (.unknownFunct3 0x23#7 f3)

/-- Opcode 0x13: funct3 selects the operation; the shifts also read inst[31:25], strictly (R116, R117). -/
def decodeOpImm (w : Word) : Decoded :=
  match funct3Of w with
  | 0b000#3 => .instr (.addi (rdOf w) (rs1Of w) (immI w))
  | 0b010#3 => .instr (.slti (rdOf w) (rs1Of w) (immI w))
  | 0b011#3 => .instr (.sltiu (rdOf w) (rs1Of w) (immI w))
  | 0b100#3 => .instr (.xori (rdOf w) (rs1Of w) (immI w))
  | 0b110#3 => .instr (.ori (rdOf w) (rs1Of w) (immI w))
  | 0b111#3 => .instr (.andi (rdOf w) (rs1Of w) (immI w))
  | 0b001#3 =>
    match funct7Of w with
    | 0b0000000#7 => .instr (.slli (rdOf w) (rs1Of w) (shamtOf w))
    | f7 => .undecoded (.unknownFunct7 0x13#7 0b001#3 f7)
  | 0b101#3 =>
    match funct7Of w with
    | 0b0000000#7 => .instr (.srli (rdOf w) (rs1Of w) (shamtOf w))
    | 0b0100000#7 => .instr (.srai (rdOf w) (rs1Of w) (shamtOf w))
    | f7 => .undecoded (.unknownFunct7 0x13#7 0b101#3 f7)
  | f3 => .undecoded (.unknownFunct3 0x13#7 f3)

/-- Opcode 0x33: funct7 and funct3 select the operation (R116). -/
def decodeOp (w : Word) : Decoded :=
  match funct7Of w with
  | 0b0000000#7 =>
    match funct3Of w with
    | 0b000#3 => .instr (.add (rdOf w) (rs1Of w) (rs2Of w))
    | 0b001#3 => .instr (.sll (rdOf w) (rs1Of w) (rs2Of w))
    | 0b010#3 => .instr (.slt (rdOf w) (rs1Of w) (rs2Of w))
    | 0b011#3 => .instr (.sltu (rdOf w) (rs1Of w) (rs2Of w))
    | 0b100#3 => .instr (.xor (rdOf w) (rs1Of w) (rs2Of w))
    | 0b101#3 => .instr (.srl (rdOf w) (rs1Of w) (rs2Of w))
    | 0b110#3 => .instr (.or (rdOf w) (rs1Of w) (rs2Of w))
    | 0b111#3 => .instr (.and (rdOf w) (rs1Of w) (rs2Of w))
    | f3 => .undecoded (.unknownFunct7 0x33#7 f3 0b0000000#7)
  | 0b0100000#7 =>
    match funct3Of w with
    | 0b000#3 => .instr (.sub (rdOf w) (rs1Of w) (rs2Of w))
    | 0b101#3 => .instr (.sra (rdOf w) (rs1Of w) (rs2Of w))
    | f3 => .undecoded (.unknownFunct7 0x33#7 f3 0b0100000#7)
  | f7 => .undecoded (.unknownFunct7 0x33#7 (funct3Of w) f7)

/-- Opcode 0x73: with funct3 000 the whole word selects ECALL or EBREAK; otherwise a Zicsr instruction (R116, R120). -/
def decodeSystem (w : Word) : Decoded :=
  match funct3Of w with
  | 0b000#3 =>
    if w = 0x00000073#32 then .instr .ecall
    else if w = 0x00100073#32 then .instr .ebreak
    else .undecoded (.unknownSystemWord w)
  | 0b001#3 => .instr (.csrrw (rdOf w) (csrOf w) (rs1Of w))
  | 0b010#3 => .instr (.csrrs (rdOf w) (csrOf w) (rs1Of w))
  | 0b011#3 => .instr (.csrrc (rdOf w) (csrOf w) (rs1Of w))
  | 0b101#3 => .instr (.csrrwi (rdOf w) (csrOf w) (zimmOf w))
  | 0b110#3 => .instr (.csrrsi (rdOf w) (csrOf w) (zimmOf w))
  | 0b111#3 => .instr (.csrrci (rdOf w) (csrOf w) (zimmOf w))
  | f3 => .undecoded (.unknownFunct3 0x73#7 f3)

/-- Opcode 0x67: funct3 must be 0 (R115). -/
def decodeJalr (w : Word) : Decoded :=
  match funct3Of w with
  | 0b000#3 => .instr (.jalr (rdOf w) (rs1Of w) (immI w))
  | f3 => .undecoded (.unknownFunct3 0x67#7 f3)

/-- Opcode 0x0F: funct3 000 is FENCE, whatever the other fields hold (R118). -/
def decodeMiscMem (w : Word) : Decoded :=
  match funct3Of w with
  | 0b000#3 => .instr (.fence (csrOf w) (rs1Of w) (rdOf w))
  | f3 => .undecoded (.unknownFunct3 0x0F#7 f3)

/-- The decoder: a pure, total function of the instruction word (R114), dispatching on the opcode first (R115). -/
def decode (w : Word) : Decoded :=
  match opcodeOf w with
  | 0x37#7 => .instr (.lui (rdOf w) (immU w))
  | 0x17#7 => .instr (.auipc (rdOf w) (immU w))
  | 0x6F#7 => .instr (.jal (rdOf w) (immJ w))
  | 0x67#7 => decodeJalr w
  | 0x63#7 => decodeBranch w
  | 0x03#7 => decodeLoad w
  | 0x23#7 => decodeStore w
  | 0x13#7 => decodeOpImm w
  | 0x33#7 => decodeOp w
  | 0x73#7 => decodeSystem w
  | 0x0F#7 => decodeMiscMem w
  | op => .undecoded (.unknownOpcode op)

/-- Four bytes, the one at the lowest address first, as one little-endian word (R100, 20_memory.md R62). -/
def wordOfBytes (b0 b1 b2 b3 : Byte) : Word := b3 ++ b2 ++ b1 ++ b0

/-- The decoder on the bytes at an address, lowest address first; bytes after the fourth are not the instruction's. -/
def decodeBytes : List Byte → Decoded
  | b0 :: b1 :: b2 :: b3 :: _ => decode (wordOfBytes b0 b1 b2 b3)
  | _ => .undecoded .truncated

/-! ## The encoder, from the same tables -/

/-- R-format (R102). -/
def encR (funct7 : BitVec 7) (funct3 : BitVec 3) (opcode : BitVec 7) (rd rs1 rs2 : Reg) : Word :=
  funct7 ++ rs2 ++ rs1 ++ funct3 ++ rd ++ opcode

/-- I-format (R103): a 12-bit field, rs1 (or zimm), funct3, rd. -/
def encI (funct3 : BitVec 3) (opcode : BitVec 7) (rd rs1 : Reg) (imm12 : BitVec 12) : Word :=
  imm12 ++ rs1 ++ funct3 ++ rd ++ opcode

/-- imm[11:0] of an extended immediate, the field of the I-format. -/
def low12 (imm : Word) : BitVec 12 := imm.extractLsb' 0 12

/-- S-format (R104). -/
def encS (funct3 : BitVec 3) (opcode : BitVec 7) (rs2 rs1 : Reg) (imm : Word) : Word :=
  imm.extractLsb' 5 7 ++ rs2 ++ rs1 ++ funct3 ++ imm.extractLsb' 0 5 ++ opcode

/-- B-format (R105). -/
def encB (funct3 : BitVec 3) (opcode : BitVec 7) (rs1 rs2 : Reg) (off : Word) : Word :=
  off.extractLsb' 12 1 ++ off.extractLsb' 5 6 ++ rs2 ++ rs1 ++ funct3 ++ off.extractLsb' 1 4 ++ off.extractLsb' 11 1
    ++ opcode

/-- U-format (R106). -/
def encU (opcode : BitVec 7) (rd : Reg) (imm : Word) : Word :=
  imm.extractLsb' 12 20 ++ rd ++ opcode

/-- J-format (R107). -/
def encJ (opcode : BitVec 7) (rd : Reg) (off : Word) : Word :=
  off.extractLsb' 20 1 ++ off.extractLsb' 1 10 ++ off.extractLsb' 11 1 ++ off.extractLsb' 12 8 ++ rd ++ opcode

/-- The word of an instruction: the values of R115, R116, R117 and R120 in the formats of R102 to R107. -/
def encode : Instr → Word
  | .lui rd imm => encU 0x37#7 rd imm
  | .auipc rd imm => encU 0x17#7 rd imm
  | .jal rd off => encJ 0x6F#7 rd off
  | .jalr rd rs1 imm => encI 0b000#3 0x67#7 rd rs1 (low12 imm)
  | .beq rs1 rs2 off => encB 0b000#3 0x63#7 rs1 rs2 off
  | .bne rs1 rs2 off => encB 0b001#3 0x63#7 rs1 rs2 off
  | .blt rs1 rs2 off => encB 0b100#3 0x63#7 rs1 rs2 off
  | .bge rs1 rs2 off => encB 0b101#3 0x63#7 rs1 rs2 off
  | .bltu rs1 rs2 off => encB 0b110#3 0x63#7 rs1 rs2 off
  | .bgeu rs1 rs2 off => encB 0b111#3 0x63#7 rs1 rs2 off
  | .lb rd rs1 imm => encI 0b000#3 0x03#7 rd rs1 (low12 imm)
  | .lh rd rs1 imm => encI 0b001#3 0x03#7 rd rs1 (low12 imm)
  | .lw rd rs1 imm => encI 0b010#3 0x03#7 rd rs1 (low12 imm)
  | .lbu rd rs1 imm => encI 0b100#3 0x03#7 rd rs1 (low12 imm)
  | .lhu rd rs1 imm => encI 0b101#3 0x03#7 rd rs1 (low12 imm)
  | .sb rs2 rs1 imm => encS 0b000#3 0x23#7 rs2 rs1 imm
  | .sh rs2 rs1 imm => encS 0b001#3 0x23#7 rs2 rs1 imm
  | .sw rs2 rs1 imm => encS 0b010#3 0x23#7 rs2 rs1 imm
  | .addi rd rs1 imm => encI 0b000#3 0x13#7 rd rs1 (low12 imm)
  | .slti rd rs1 imm => encI 0b010#3 0x13#7 rd rs1 (low12 imm)
  | .sltiu rd rs1 imm => encI 0b011#3 0x13#7 rd rs1 (low12 imm)
  | .xori rd rs1 imm => encI 0b100#3 0x13#7 rd rs1 (low12 imm)
  | .ori rd rs1 imm => encI 0b110#3 0x13#7 rd rs1 (low12 imm)
  | .andi rd rs1 imm => encI 0b111#3 0x13#7 rd rs1 (low12 imm)
  | .slli rd rs1 shamt => encR 0b0000000#7 0b001#3 0x13#7 rd rs1 shamt
  | .srli rd rs1 shamt => encR 0b0000000#7 0b101#3 0x13#7 rd rs1 shamt
  | .srai rd rs1 shamt => encR 0b0100000#7 0b101#3 0x13#7 rd rs1 shamt
  | .add rd rs1 rs2 => encR 0b0000000#7 0b000#3 0x33#7 rd rs1 rs2
  | .sub rd rs1 rs2 => encR 0b0100000#7 0b000#3 0x33#7 rd rs1 rs2
  | .sll rd rs1 rs2 => encR 0b0000000#7 0b001#3 0x33#7 rd rs1 rs2
  | .slt rd rs1 rs2 => encR 0b0000000#7 0b010#3 0x33#7 rd rs1 rs2
  | .sltu rd rs1 rs2 => encR 0b0000000#7 0b011#3 0x33#7 rd rs1 rs2
  | .xor rd rs1 rs2 => encR 0b0000000#7 0b100#3 0x33#7 rd rs1 rs2
  | .srl rd rs1 rs2 => encR 0b0000000#7 0b101#3 0x33#7 rd rs1 rs2
  | .sra rd rs1 rs2 => encR 0b0100000#7 0b101#3 0x33#7 rd rs1 rs2
  | .or rd rs1 rs2 => encR 0b0000000#7 0b110#3 0x33#7 rd rs1 rs2
  | .and rd rs1 rs2 => encR 0b0000000#7 0b111#3 0x33#7 rd rs1 rs2
  | .fence ordering rs1 rd => encI 0b000#3 0x0F#7 rd rs1 ordering
  | .ecall => encI 0b000#3 0x73#7 0#5 0#5 0#12
  | .ebreak => encI 0b000#3 0x73#7 0#5 0#5 1#12
  | .csrrw rd csr rs1 => encI 0b001#3 0x73#7 rd rs1 csr
  | .csrrs rd csr rs1 => encI 0b010#3 0x73#7 rd rs1 csr
  | .csrrc rd csr rs1 => encI 0b011#3 0x73#7 rd rs1 csr
  | .csrrwi rd csr zimm => encI 0b101#3 0x73#7 rd zimm csr
  | .csrrsi rd csr zimm => encI 0b110#3 0x73#7 rd zimm csr
  | .csrrci rd csr zimm => encI 0b111#3 0x73#7 rd zimm csr

/-! ## The opcode table (R121, R122) -/

/-- The mnemonic of an instruction, as opcode_table.json spells it. -/
def Instr.mnemonic : Instr → String
  | .lui _ _ => "LUI"
  | .auipc _ _ => "AUIPC"
  | .jal _ _ => "JAL"
  | .jalr _ _ _ => "JALR"
  | .beq _ _ _ => "BEQ"
  | .bne _ _ _ => "BNE"
  | .blt _ _ _ => "BLT"
  | .bge _ _ _ => "BGE"
  | .bltu _ _ _ => "BLTU"
  | .bgeu _ _ _ => "BGEU"
  | .lb _ _ _ => "LB"
  | .lh _ _ _ => "LH"
  | .lw _ _ _ => "LW"
  | .lbu _ _ _ => "LBU"
  | .lhu _ _ _ => "LHU"
  | .sb _ _ _ => "SB"
  | .sh _ _ _ => "SH"
  | .sw _ _ _ => "SW"
  | .addi _ _ _ => "ADDI"
  | .slti _ _ _ => "SLTI"
  | .sltiu _ _ _ => "SLTIU"
  | .xori _ _ _ => "XORI"
  | .ori _ _ _ => "ORI"
  | .andi _ _ _ => "ANDI"
  | .slli _ _ _ => "SLLI"
  | .srli _ _ _ => "SRLI"
  | .srai _ _ _ => "SRAI"
  | .add _ _ _ => "ADD"
  | .sub _ _ _ => "SUB"
  | .sll _ _ _ => "SLL"
  | .slt _ _ _ => "SLT"
  | .sltu _ _ _ => "SLTU"
  | .xor _ _ _ => "XOR"
  | .srl _ _ _ => "SRL"
  | .sra _ _ _ => "SRA"
  | .or _ _ _ => "OR"
  | .and _ _ _ => "AND"
  | .fence _ _ _ => "FENCE"
  | .ecall => "ECALL"
  | .ebreak => "EBREAK"
  | .csrrw _ _ _ => "CSRRW"
  | .csrrs _ _ _ => "CSRRS"
  | .csrrc _ _ _ => "CSRRC"
  | .csrrwi _ _ _ => "CSRRWI"
  | .csrrsi _ _ _ => "CSRRSI"
  | .csrrci _ _ _ => "CSRRCI"

/-- One row of opcode_table.json: a word w spells the row's instruction when w AND mask is value. -/
structure OpcodeRow where
  mnemonic : String
  mask : Word
  value : Word
  deriving DecidableEq, Repr

/-- A word matches a row when the bits under the mask hold the row's value. -/
def OpcodeRow.admits (r : OpcodeRow) (w : Word) : Bool := w &&& r.mask == r.value

/-- Rows that fix the opcode only: U and J formats. -/
def tableOpcodeOnly : List OpcodeRow :=
  [⟨"LUI", 0x0000007F#32, 0x00000037#32⟩, ⟨"AUIPC", 0x0000007F#32, 0x00000017#32⟩,
   ⟨"JAL", 0x0000007F#32, 0x0000006F#32⟩]

/-- Rows of the control transfers, loads and stores that fix opcode and funct3. -/
def tableTransfersAndMemory : List OpcodeRow :=
  [⟨"JALR", 0x0000707F#32, 0x00000067#32⟩, ⟨"BEQ", 0x0000707F#32, 0x00000063#32⟩,
   ⟨"BNE", 0x0000707F#32, 0x00001063#32⟩, ⟨"BLT", 0x0000707F#32, 0x00004063#32⟩,
   ⟨"BGE", 0x0000707F#32, 0x00005063#32⟩, ⟨"BLTU", 0x0000707F#32, 0x00006063#32⟩,
   ⟨"BGEU", 0x0000707F#32, 0x00007063#32⟩, ⟨"LB", 0x0000707F#32, 0x00000003#32⟩,
   ⟨"LH", 0x0000707F#32, 0x00001003#32⟩, ⟨"LW", 0x0000707F#32, 0x00002003#32⟩,
   ⟨"LBU", 0x0000707F#32, 0x00004003#32⟩, ⟨"LHU", 0x0000707F#32, 0x00005003#32⟩,
   ⟨"SB", 0x0000707F#32, 0x00000023#32⟩, ⟨"SH", 0x0000707F#32, 0x00001023#32⟩,
   ⟨"SW", 0x0000707F#32, 0x00002023#32⟩]

/-- Rows of OP-IMM. -/
def tableOpImm : List OpcodeRow :=
  [⟨"ADDI", 0x0000707F#32, 0x00000013#32⟩, ⟨"SLTI", 0x0000707F#32, 0x00002013#32⟩,
   ⟨"SLTIU", 0x0000707F#32, 0x00003013#32⟩, ⟨"XORI", 0x0000707F#32, 0x00004013#32⟩,
   ⟨"ORI", 0x0000707F#32, 0x00006013#32⟩, ⟨"ANDI", 0x0000707F#32, 0x00007013#32⟩,
   ⟨"SLLI", 0xFE00707F#32, 0x00001013#32⟩, ⟨"SRLI", 0xFE00707F#32, 0x00005013#32⟩,
   ⟨"SRAI", 0xFE00707F#32, 0x40005013#32⟩]

/-- Rows of OP. -/
def tableOp : List OpcodeRow :=
  [⟨"ADD", 0xFE00707F#32, 0x00000033#32⟩, ⟨"SUB", 0xFE00707F#32, 0x40000033#32⟩,
   ⟨"SLL", 0xFE00707F#32, 0x00001033#32⟩, ⟨"SLT", 0xFE00707F#32, 0x00002033#32⟩,
   ⟨"SLTU", 0xFE00707F#32, 0x00003033#32⟩, ⟨"XOR", 0xFE00707F#32, 0x00004033#32⟩,
   ⟨"SRL", 0xFE00707F#32, 0x00005033#32⟩, ⟨"SRA", 0xFE00707F#32, 0x40005033#32⟩,
   ⟨"OR", 0xFE00707F#32, 0x00006033#32⟩, ⟨"AND", 0xFE00707F#32, 0x00007033#32⟩]

/-- Rows of MISC-MEM and SYSTEM. -/
def tableSystem : List OpcodeRow :=
  [⟨"FENCE", 0x0000707F#32, 0x0000000F#32⟩, ⟨"ECALL", 0xFFFFFFFF#32, 0x00000073#32⟩,
   ⟨"EBREAK", 0xFFFFFFFF#32, 0x00100073#32⟩, ⟨"CSRRW", 0x0000707F#32, 0x00001073#32⟩,
   ⟨"CSRRS", 0x0000707F#32, 0x00002073#32⟩, ⟨"CSRRC", 0x0000707F#32, 0x00003073#32⟩,
   ⟨"CSRRWI", 0x0000707F#32, 0x00005073#32⟩, ⟨"CSRRSI", 0x0000707F#32, 0x00006073#32⟩,
   ⟨"CSRRCI", 0x0000707F#32, 0x00007073#32⟩]

/-- The 46 rows of opcode_table.json (R121, R122). The decoder is not read from it: that the two agree is a statement. -/
def opcodeTable : List OpcodeRow :=
  tableOpcodeOnly ++ tableTransfersAndMemory ++ tableOpImm ++ tableOp ++ tableSystem

/-! ## The table's words -/

/-- A word's four bytes as the hardware stores them, the lowest address first (20_memory.md R62). -/
def bytesOfWord (w : Word) : List Byte :=
  [w.extractLsb' 0 8, w.extractLsb' 8 8, w.extractLsb' 16 8, w.extractLsb' 24 8]

/-- The instruction word whose low nbits bits are w's and whose higher bits are 0. -/
def tableWord (nbits w : Nat) : Word := BitVec.ofNat 32 (w % 2 ^ nbits)

/-- What the decoder reads from an instruction of nbits bits with the value w, laid out as the hardware stores it. -/
def decodeTableWord (nbits w : Nat) : Option Instr :=
  (decodeBytes (bytesOfWord (tableWord nbits w))).toOption

end Sys2Proof
end

