-- ==== Sys2Proof/Machine/Loads.lean ====
section
/-! DEFINITION. The loads (43_loads.md). The word in a range violation's report is the instruction's own encoding, which is
the fetched word: a decoded word is the encoding of its instruction (assumption log 6). -/

namespace Sys2Proof.Machine

/-- R200: sign-extended byte. -/
def execLb (rd rs1 : Reg) (imm : Word) (s : State) : Result :=
  load s (encode (.lb rd rs1 imm)) .byte sext8 rd (s.effAddr rs1 imm)

/-- R201: sign-extended halfword. -/
def execLh (rd rs1 : Reg) (imm : Word) (s : State) : Result :=
  load s (encode (.lh rd rs1 imm)) .half sext16 rd (s.effAddr rs1 imm)

/-- R202: word. -/
def execLw (rd rs1 : Reg) (imm : Word) (s : State) : Result :=
  load s (encode (.lw rd rs1 imm)) .word id rd (s.effAddr rs1 imm)

/-- R203: zero-extended byte. -/
def execLbu (rd rs1 : Reg) (imm : Word) (s : State) : Result :=
  load s (encode (.lbu rd rs1 imm)) .byte zext8 rd (s.effAddr rs1 imm)

/-- R204: zero-extended halfword. -/
def execLhu (rd rs1 : Reg) (imm : Word) (s : State) : Result :=
  load s (encode (.lhu rd rs1 imm)) .half zext16 rd (s.effAddr rs1 imm)

end Sys2Proof.Machine
end

