-- ==== Sys2Proof/Machine/Stores.lean ====
section
/-! DEFINITION. The stores (44_stores.md): the low 8, 16 or 32 bits of x[rs2], whatever the upper bits hold (R220). -/

namespace Sys2Proof.Machine

/-- R221. -/
def execSb (rs2 rs1 : Reg) (imm : Word) (s : State) : Result :=
  store s (encode (.sb rs2 rs1 imm)) .byte (s.effAddr rs1 imm) (s.getReg rs2)

/-- R222. -/
def execSh (rs2 rs1 : Reg) (imm : Word) (s : State) : Result :=
  store s (encode (.sh rs2 rs1 imm)) .half (s.effAddr rs1 imm) (s.getReg rs2)

/-- R223. -/
def execSw (rs2 rs1 : Reg) (imm : Word) (s : State) : Result :=
  store s (encode (.sw rs2 rs1 imm)) .word (s.effAddr rs1 imm) (s.getReg rs2)

end Sys2Proof.Machine
end

