-- ==== Sys2Proof/Machine/SystemSync.lean ====
section
/-! DEFINITION. ECALL, EBREAK and FENCE (46_system_sync.md). -/

namespace Sys2Proof.Machine

/-- R260: raises EnvironmentCall; the PC stays at the ECALL. -/
def execEcall (s : State) : Result := .next (s.raise (.environmentCall s.pc (encode .ecall)))

/-- R261: raises Breakpoint; the PC stays at the EBREAK. -/
def execEbreak (s : State) : Result := .next (s.raise (.breakpoint s.pc (encode .ebreak)))

/-- R262: no effect but the driver's PC advance; none of its fields is read. -/
def execFence (_ordering : BitVec 12) (_rs1 _rd : Reg) (s : State) : Result := .next s.advance

end Sys2Proof.Machine
end

