-- ==== Sys2Proof/Machine/UpperImmediate.lean ====
section
/-! DEFINITION. LUI and AUIPC (40_upper_immediate.md). -/

namespace Sys2Proof.Machine

/-- R150: rd <- immU. -/
def execLui (rd : Reg) (imm : Word) (s : State) : Result := retire s rd imm

/-- R151: rd <- pc + immU. -/
def execAuipc (rd : Reg) (imm : Word) (s : State) : Result := retire s rd (s.pc + imm)

end Sys2Proof.Machine
end

