-- ==== Sys2Proof/Machine/Zicsr.lean ====
section
/-! DEFINITION. The Zicsr instructions (47_zicsr.md). Nothing is checked and no access raises a condition. -/

namespace Sys2Proof.Machine

/-- R271: always written. -/
def execCsrrw (rd : Reg) (csr : CsrAddr) (rs1 : Reg) (s : State) : Result :=
  csrAccess s rd csr (some (s.getReg rs1))

/-- R272: written unless rs1 is x0; the test is on the register number. -/
def execCsrrs (rd : Reg) (csr : CsrAddr) (rs1 : Reg) (s : State) : Result :=
  csrAccess s rd csr (if rs1 = 0#5 then none else some (s.getCsr csr ||| s.getReg rs1))

/-- R273: written unless rs1 is x0. -/
def execCsrrc (rd : Reg) (csr : CsrAddr) (rs1 : Reg) (s : State) : Result :=
  csrAccess s rd csr (if rs1 = 0#5 then none else some (s.getCsr csr &&& ~~~s.getReg rs1))

/-- R274: always written. -/
def execCsrrwi (rd : Reg) (csr : CsrAddr) (zimm : BitVec 5) (s : State) : Result :=
  csrAccess s rd csr (some (zext5 zimm))

/-- R275: written unless zimm is 0. -/
def execCsrrsi (rd : Reg) (csr : CsrAddr) (zimm : BitVec 5) (s : State) : Result :=
  csrAccess s rd csr (if zimm = 0#5 then none else some (s.getCsr csr ||| zext5 zimm))

/-- R276: written unless zimm is 0. -/
def execCsrrci (rd : Reg) (csr : CsrAddr) (zimm : BitVec 5) (s : State) : Result :=
  csrAccess s rd csr (if zimm = 0#5 then none else some (s.getCsr csr &&& ~~~zext5 zimm))

end Sys2Proof.Machine
end

