-- ==== Sys2Proof/Machine/Driver.lean ====
section
/-! DEFINITION. One step of the core: fetch, decode, execute (48_cpu_driver.md R290 to R297), and placing an instruction
where the next fetch reads it. -/

namespace Sys2Proof.Machine

/-- A step first sets the run state to Running, whatever it was (R290, R297). -/
def State.begun (s : State) : State := { s with runState := .running }

/-- Fetch: MemRead(pc, 4) (R291); none stands for raising MemoryRangeViolation. -/
def State.fetch (s : State) : Option Word := s.memRead s.pc .word

/-- One step (R290): the first of fetch, decode and execute that fails ends it in a condition (R296, R331). -/
def driverStep (s : State) : Result :=
  match s.begun.fetch with
  | none => .next (s.begun.raise (.memoryRangeViolation s.pc none s.pc .word))
  | some w =>
    match decode w with
    | .undecoded _ => .next (s.begun.raise (.illegalInstruction s.pc w))
    | .instr i => exec i s.begun

/-- The state with an instruction word at the PC, where the next fetch reads it. Where the fetch at the PC is out of range
no instruction can be placed, and nothing changes. -/
def State.placeAtPc (s : State) (w : Word) : State :=
  match s.memWrite s.pc .word w with
  | some t => t
  | none => s

end Sys2Proof.Machine
end

