-- ==== Sys2Proof/Machine/Step.lean ====
section
/-! DEFINITION. The step function and the host's way to place one instruction where step fetches it. -/

namespace Sys2Proof.Machine

/-- step() (48_cpu_driver.md R290). -/
def step (s : State) : Host.Outcome State Fault Refusal := driverStep s

/-- The state with the instruction of nbits bits and value w stored at the PC, little-endian; the bits above nbits are 0.
It stands for the host's loading of a program (48_cpu_driver.md R305, assumption log 4). -/
def State.withFetchWord (s : State) (nbits w : Nat) : State := s.placeAtPc (tableWord nbits w)

end Sys2Proof.Machine
end

