-- ==== Sys2Proof/Machine/Assembler.lean ====
section
/-! DEFINITION. Assembler syntax, pseudo-instructions and ABI names (30_encoding.md R125 to R129). They change no rule: the
core sees only the expanded words (D23), and step calls nothing here. -/

namespace Sys2Proof.Machine

/-! ## Operand syntax (R125) -/

/-- A register operand, x0 to x31. -/
def regText (r : Reg) : String := "x" ++ toString r.toNat

/-- A signed immediate or offset, in decimal. -/
def immText (v : Word) : String := toString v.toInt

/-- imm20 of LUI and AUIPC: the 20-bit field (R126). -/
def upperText (imm : Word) : String := toString (imm.toNat / 4096)

/-- Mnemonic, rd, rs1, rs2. -/
def asmR (m : String) (rd rs1 rs2 : Reg) : String := m ++ " " ++ regText rd ++ ", " ++ regText rs1 ++ ", " ++ regText rs2

/-- Mnemonic, rd, rs1, imm. -/
def asmI (m : String) (rd rs1 : Reg) (imm : String) : String := m ++ " " ++ regText rd ++ ", " ++ regText rs1 ++ ", " ++ imm

/-- Mnemonic, register, imm(base): loads and stores. -/
def asmMem (m : String) (r base : Reg) (imm : Word) : String :=
  m ++ " " ++ regText r ++ ", " ++ immText imm ++ "(" ++ regText base ++ ")"

/-- Mnemonic, rd, csr, source: the Zicsr order of R125. -/
def asmCsr (m : String) (rd : Reg) (csr : CsrAddr) (source : String) : String :=
  m ++ " " ++ regText rd ++ ", " ++ toString csr.toNat ++ ", " ++ source

/-- The assembly text of an instruction (R125), mnemonics in upper case, numbers in decimal. -/
def asmText (i : Instr) : String :=
  let m := i.mnemonic
  match i with
  | .lui rd imm => m ++ " " ++ regText rd ++ ", " ++ upperText imm
  | .auipc rd imm => m ++ " " ++ regText rd ++ ", " ++ upperText imm
  | .jal rd off => m ++ " " ++ regText rd ++ ", " ++ immText off
  | .jalr rd rs1 imm => asmI m rd rs1 (immText imm)
  | .beq rs1 rs2 off => asmI m rs1 rs2 (immText off)
  | .bne rs1 rs2 off => asmI m rs1 rs2 (immText off)
  | .blt rs1 rs2 off => asmI m rs1 rs2 (immText off)
  | .bge rs1 rs2 off => asmI m rs1 rs2 (immText off)
  | .bltu rs1 rs2 off => asmI m rs1 rs2 (immText off)
  | .bgeu rs1 rs2 off => asmI m rs1 rs2 (immText off)
  | .lb rd rs1 imm => asmMem m rd rs1 imm
  | .lh rd rs1 imm => asmMem m rd rs1 imm
  | .lw rd rs1 imm => asmMem m rd rs1 imm
  | .lbu rd rs1 imm => asmMem m rd rs1 imm
  | .lhu rd rs1 imm => asmMem m rd rs1 imm
  | .sb rs2 rs1 imm => asmMem m rs2 rs1 imm
  | .sh rs2 rs1 imm => asmMem m rs2 rs1 imm
  | .sw rs2 rs1 imm => asmMem m rs2 rs1 imm
  | .addi rd rs1 imm => asmI m rd rs1 (immText imm)
  | .slti rd rs1 imm => asmI m rd rs1 (immText imm)
  | .sltiu rd rs1 imm => asmI m rd rs1 (immText imm)
  | .xori rd rs1 imm => asmI m rd rs1 (immText imm)
  | .ori rd rs1 imm => asmI m rd rs1 (immText imm)
  | .andi rd rs1 imm => asmI m rd rs1 (immText imm)
  | .slli rd rs1 shamt => asmI m rd rs1 (toString shamt.toNat)
  | .srli rd rs1 shamt => asmI m rd rs1 (toString shamt.toNat)
  | .srai rd rs1 shamt => asmI m rd rs1 (toString shamt.toNat)
  | .add rd rs1 rs2 => asmR m rd rs1 rs2
  | .sub rd rs1 rs2 => asmR m rd rs1 rs2
  | .sll rd rs1 rs2 => asmR m rd rs1 rs2
  | .slt rd rs1 rs2 => asmR m rd rs1 rs2
  | .sltu rd rs1 rs2 => asmR m rd rs1 rs2
  | .xor rd rs1 rs2 => asmR m rd rs1 rs2
  | .srl rd rs1 rs2 => asmR m rd rs1 rs2
  | .sra rd rs1 rs2 => asmR m rd rs1 rs2
  | .or rd rs1 rs2 => asmR m rd rs1 rs2
  | .and rd rs1 rs2 => asmR m rd rs1 rs2
  | .fence _ _ _ => m
  | .ecall => m
  | .ebreak => m
  | .csrrw rd csr rs1 => asmCsr m rd csr (regText rs1)
  | .csrrs rd csr rs1 => asmCsr m rd csr (regText rs1)
  | .csrrc rd csr rs1 => asmCsr m rd csr (regText rs1)
  | .csrrwi rd csr zimm => asmCsr m rd csr (toString zimm.toNat)
  | .csrrsi rd csr zimm => asmCsr m rd csr (toString zimm.toNat)
  | .csrrci rd csr zimm => asmCsr m rd csr (toString zimm.toNat)

/-! ## Pseudo-instructions (R127, R128) -/

/-- The rows of R127's table. -/
inductive Pseudo where
  | nop
  | mv (rd rs : Reg)
  | not (rd rs : Reg)
  | neg (rd rs : Reg)
  | seqz (rd rs : Reg)
  | snez (rd rs : Reg)
  | sltz (rd rs : Reg)
  | sgtz (rd rs : Reg)
  | beqz (rs : Reg) (off : Word)
  | bnez (rs : Reg) (off : Word)
  | blez (rs : Reg) (off : Word)
  | bgez (rs : Reg) (off : Word)
  | bltz (rs : Reg) (off : Word)
  | bgtz (rs : Reg) (off : Word)
  | bgt (rs rt : Reg) (off : Word)
  | ble (rs rt : Reg) (off : Word)
  | bgtu (rs rt : Reg) (off : Word)
  | bleu (rs rt : Reg) (off : Word)
  | j (off : Word)
  | jal (off : Word)
  | jr (rs : Reg)
  | jalr (rs : Reg)
  | ret
  | call (off : Word)
  | tail (off : Word)
  | li (rd : Reg) (v : Word)
  | csrr (rd : Reg) (csr : CsrAddr)
  | csrw (csr : CsrAddr) (rs : Reg)
  | csrs (csr : CsrAddr) (rs : Reg)
  | csrc (csr : CsrAddr) (rs : Reg)
  | csrwi (csr : CsrAddr) (z : BitVec 5)
  | csrsi (csr : CsrAddr) (z : BitVec 5)
  | csrci (csr : CsrAddr) (z : BitVec 5)
  deriving DecidableEq, Repr

/-- lo12 of R128: sext_12(v[11:0]). -/
def lo12 (v : Word) : Word := (v.extractLsb' 0 12).signExtend 32

/-- hi20 of R128, placed in bits 31:12 as LUI and AUIPC hold it: v - sext_12(v[11:0]), whose low 12 bits are 0. -/
def hi20 (v : Word) : Word := v - lo12 v

/-- `li rd, v`: one ADDI when v fits imm12, else LUI and ADDI (R128). -/
def expandLi (rd : Reg) (v : Word) : List Instr :=
  if fitsImm12 v then [.addi rd 0#5 v] else [.lui rd (hi20 v), .addi rd rd (lo12 v)]

/-- The expansions of R127. -/
def Pseudo.expand : Pseudo → List Instr
  | .nop => [.addi 0#5 0#5 0#32]
  | .mv rd rs => [.addi rd rs 0#32]
  | .not rd rs => [.xori rd rs (-1#32)]
  | .neg rd rs => [.sub rd 0#5 rs]
  | .seqz rd rs => [.sltiu rd rs 1#32]
  | .snez rd rs => [.sltu rd 0#5 rs]
  | .sltz rd rs => [.slt rd rs 0#5]
  | .sgtz rd rs => [.slt rd 0#5 rs]
  | .beqz rs off => [.beq rs 0#5 off]
  | .bnez rs off => [.bne rs 0#5 off]
  | .blez rs off => [.bge 0#5 rs off]
  | .bgez rs off => [.bge rs 0#5 off]
  | .bltz rs off => [.blt rs 0#5 off]
  | .bgtz rs off => [.blt 0#5 rs off]
  | .bgt rs rt off => [.blt rt rs off]
  | .ble rs rt off => [.bge rt rs off]
  | .bgtu rs rt off => [.bltu rt rs off]
  | .bleu rs rt off => [.bgeu rt rs off]
  | .j off => [.jal 0#5 off]
  | .jal off => [.jal 1#5 off]
  | .jr rs => [.jalr 0#5 rs 0#32]
  | .jalr rs => [.jalr 1#5 rs 0#32]
  | .ret => [.jalr 0#5 1#5 0#32]
  | .call off => [.auipc 1#5 (hi20 off), .jalr 1#5 1#5 (lo12 off)]
  | .tail off => [.auipc 6#5 (hi20 off), .jalr 0#5 6#5 (lo12 off)]
  | .li rd v => expandLi rd v
  | .csrr rd csr => [.csrrs rd csr 0#5]
  | .csrw csr rs => [.csrrw 0#5 csr rs]
  | .csrs csr rs => [.csrrs 0#5 csr rs]
  | .csrc csr rs => [.csrrc 0#5 csr rs]
  | .csrwi csr z => [.csrrwi 0#5 csr z]
  | .csrsi csr z => [.csrrsi 0#5 csr z]
  | .csrci csr z => [.csrrci 0#5 csr z]

/-! ## ABI register names (R129) -/

/-- The ABI names of x0 to x31, in order; x8 is also fp. -/
def abiNames : List String :=
  ["zero", "ra", "sp", "gp", "tp", "t0", "t1", "t2", "s0", "s1", "a0", "a1", "a2", "a3", "a4", "a5", "a6", "a7",
   "s2", "s3", "s4", "s5", "s6", "s7", "s8", "s9", "s10", "s11", "t3", "t4", "t5", "t6"]

/-- The ABI name of a register. -/
def abiName (r : Reg) : String := abiNames.getD r.toNat ""

/-- The register an ABI name stands for. -/
def abiReg (name : String) : Option Reg :=
  if name = "fp" then some 8#5
  else if abiNames.contains name then some (BitVec.ofNat 5 (abiNames.idxOf name)) else none

end Sys2Proof.Machine
end

