-- ==== Sys2Proof/Machine/HostPort.lean ====
section
/-! DEFINITION. The host's side of the core: reset, run, the register and memory ports, construction and loading
(48_cpu_driver.md R297 to R305, 20_memory.md R61, R78, R79, 70_reset_and_hazards.md R360 to R366). Every command is one
transaction between steps; step never calls anything here. -/

namespace Sys2Proof.Machine

/-! ## Reset -/

/-- reset() of the register file: every GPR, the PC and every CSR to 0 (48_cpu_driver.md R302). -/
def State.resetRegisters (s : State) : State :=
  { s with regs := Vector.replicate 32 0#32, pc := 0#32, csrs := [] }

/-- The core reset (70_reset_and_hazards.md R360, R361). -/
def State.coreReset (s : State) : State :=
  { s.resetRegisters with
    mem := if s.cfg.resetClearsMemory then [] else s.mem
    runState := .running
    report := none }

/-! ## What a step reports, and run() -/

/-- The result step() gives the host (48_cpu_driver.md R304); the record is the condition report. -/
inductive StepResult where
  | normal
  | halt (c : Condition)
  | fault (c : Condition)
  deriving DecidableEq, Repr

/-- The result of the step that left this state: Normal when the run state is Running (R296), else the condition in the
report (R304). -/
def State.stepResult (t : State) : StepResult :=
  match t.runState, t.report with
  | .halted, some c => .halt c
  | .faulted, some c => .fault c
  | _, _ => .normal

/-- How a bounded run ends. -/
inductive RunResult where
  /-- A step returned a condition, which ends run() (R298, R300). -/
  | ended (c : Condition) (s : State)
  /-- The fuel ran out: the model's verdict, not a state of the core (R299, D18). -/
  | outOfFuel (s : State)
  | faulted (r : Fault)
  | refused (r : Refusal)
  deriving DecidableEq, Repr

/-- run() under fuel: steps until one returns a condition (R298, R299). -/
def runFuel : Nat → State → RunResult
  | 0, s => .outOfFuel s
  | n + 1, s =>
    match step s with
    | .next t =>
      match t.stepResult with
      | .normal => runFuel n t
      | .halt c => .ended c t
      | .fault c => .ended c t
    | .fault r => .faulted r
    | .refused r => .refused r

/-! ## The ports -/

/-- The host's errors: not conditions of a step (60_exceptions.md R322). -/
inductive HostError where
  /-- A GPR number outside 0 to 31 or a CSR number outside 0 to 4095 (R303). -/
  | indexViolation
  /-- An address whose access does not fit in [0, MEM_SIZE) (20_memory.md R78). -/
  | memoryRange
  /-- A stored value outside the signed range of its width (20_memory.md R79). -/
  | valueRange
  deriving DecidableEq, Repr

/-- What a port operation returns. -/
inductive HostReply where
  | done
  | value (v : Word)
  | error (e : HostError)
  deriving DecidableEq, Repr

/-- The memory port (20_memory.md R61). Addresses and stored values are integers (R78, R79). -/
inductive MemCommand where
  | fetchWord (a : Int)
  | storeWord (a v : Int)
  | loadHalf (a : Int)
  | loadHalfU (a : Int)
  | storeHalf (a v : Int)
  | loadByte (a : Int)
  | loadByteU (a : Int)
  | storeByte (a v : Int)
  | resetMemory
  deriving DecidableEq, Repr

/-- The register port (48_cpu_driver.md R302). -/
inductive RegCommand where
  | getGpr (i : Int)
  | setGpr (i : Int) (v : Word)
  | getPc
  | setPc (v : Word)
  | incrementPc
  | getCsr (i : Int)
  | setCsr (i : Int) (v : Word)
  | resetRegisters
  deriving DecidableEq, Repr

/-- What the host may do between two steps, besides step() and run() (R301). -/
inductive HostCommand where
  | mem (c : MemCommand)
  | reg (c : RegCommand)
  | reset
  deriving DecidableEq, Repr

/-- The bounds of R63 on the host's integer address (R78). -/
def hostInRange (memSize : Nat) (a : Int) (w : Width) : Bool :=
  decide (0 ≤ a) && decide (a + w.bytes ≤ memSize)

/-- The signed range of a width (R79). -/
def hostValueFits (w : Width) (v : Int) : Bool :=
  decide (-(2 ^ (w.bits - 1)) ≤ v) && decide (v < 2 ^ (w.bits - 1))

/-- A host read: the value widened, or a memory-range error. -/
def hostLoad (memSize : Nat) (m : Memory) (a : Int) (w : Width) (extend : BitVec w.bits → Word) : HostReply × Memory :=
  if hostInRange memSize a w then (.value (extend (m.readWidth a.toNat w)), m) else (.error .memoryRange, m)

/-- A host write: range first, then value (DESIGN CHOICE, assumption log 8); an error changes nothing (R78, R79). -/
def hostStore (memSize : Nat) (m : Memory) (a : Int) (w : Width) (v : Int) : HostReply × Memory :=
  if hostInRange memSize a w then
    if hostValueFits w v then (.done, m.writeWidth a.toNat w (BitVec.ofInt 32 v)) else (.error .valueRange, m)
  else (.error .memoryRange, m)

/-- The memory port's operations (R61). -/
def memPort (memSize : Nat) (c : MemCommand) (m : Memory) : HostReply × Memory :=
  match c with
  | .fetchWord a => hostLoad memSize m a .word id
  | .storeWord a v => hostStore memSize m a .word v
  | .loadHalf a => hostLoad memSize m a .half sext16
  | .loadHalfU a => hostLoad memSize m a .half zext16
  | .storeHalf a v => hostStore memSize m a .half v
  | .loadByte a => hostLoad memSize m a .byte sext8
  | .loadByteU a => hostLoad memSize m a .byte zext8
  | .storeByte a v => hostStore memSize m a .byte v
  | .resetMemory => (.done, [])

/-- A GPR number of the port, if it is one (R303). -/
def hostReg (i : Int) : Option Reg := if 0 ≤ i ∧ i < 32 then some (BitVec.ofInt 5 i) else none

/-- A CSR number of the port, if it is one (R303). -/
def hostCsr (i : Int) : Option CsrAddr := if 0 ≤ i ∧ i < 4096 then some (BitVec.ofInt 12 i) else none

/-- The register port's operations (R302, R303). -/
def regPort (c : RegCommand) (s : State) : HostReply × State :=
  match c with
  | .getGpr i =>
    match hostReg i with
    | some r => (.value (s.getReg r), s)
    | none => (.error .indexViolation, s)
  | .setGpr i v =>
    match hostReg i with
    | some r => (.done, s.setReg r v)
    | none => (.error .indexViolation, s)
  | .getPc => (.value s.pc, s)
  | .setPc v => (.done, s.resumeAt v)
  | .incrementPc => (.done, s.advance)
  | .getCsr i =>
    match hostCsr i with
    | some c => (.value (s.getCsr c), s)
    | none => (.error .indexViolation, s)
  | .setCsr i v =>
    match hostCsr i with
    | some c => (.done, s.setCsr c v)
    | none => (.error .indexViolation, s)
  | .resetRegisters => (.done, s.resetRegisters)

/-- One host command between two steps. -/
def hostCommand (c : HostCommand) (s : State) : HostReply × State :=
  match c with
  | .mem m => ((memPort s.cfg.memSize m s.mem).1, { s with mem := (memPort s.cfg.memSize m s.mem).2 })
  | .reg r => regPort r s
  | .reset => (.done, s.coreReset)

/-! ## Loading and construction -/

/-- The bytes of an image from address a upwards. -/
def Memory.placeBytes (m : Memory) (a : Nat) : List Byte → Memory
  | [] => m
  | b :: rest => (m.writeByte a b).placeBytes (a + 1) rest

/-- The host's loader: an image of bytes from address 0 (R305, 20_memory.md R72). An image that does not fit is refused
whole (DESIGN CHOICE, assumption log 9). -/
def loadImage (image : List Byte) (s : State) : HostReply × State :=
  if image.length ≤ s.cfg.memSize then (.done, { s with mem := s.mem.placeBytes 0 image })
  else (.error .memoryRange, s)

/-- A core as its host holds it: constructed but never reset, when only its memory is specified, or reset at least once
(70_reset_and_hazards.md R364, D10). -/
inductive Instance where
  | constructed (cfg : Config) (mem : Memory)
  | ready (s : State)
  deriving DecidableEq, Repr

/-- Construction: MEM_SIZE bytes, all zero (R301, 20_memory.md R60). -/
def Instance.construct (cfg : Config) : Instance := .constructed cfg []

/-- The state after reset of a core with these parameters and this memory. -/
def State.afterReset (cfg : Config) (mem : Memory) : State :=
  { State.reset with cfg := cfg, mem := mem }.coreReset

/-- reset() (R360). -/
def Instance.reset : Instance → Instance
  | .constructed cfg mem => .ready (State.afterReset cfg mem)
  | .ready s => .ready s.coreReset

/-- step() of an instance: stuck before the first reset (R364, I10). -/
def Instance.step : Instance → Host.Outcome Instance Fault Refusal
  | .constructed _ _ => .fault .beforeReset
  | .ready s =>
    match Sys2Proof.Machine.step s with
    | .next t => .next (.ready t)
    | .fault r => .fault r
    | .refused r => .refused r

/-- A host command on an instance: before the first reset the memory port and reset work, and the register port is
stuck (R364). -/
def Instance.command (c : HostCommand) : Instance → Host.Outcome (HostReply × Instance) Fault Refusal
  | .constructed cfg mem =>
    match c with
    | .mem m => .next ((memPort cfg.memSize m mem).1, .constructed cfg (memPort cfg.memSize m mem).2)
    | .reg _ => .fault .beforeReset
    | .reset => .next (.done, .ready (State.afterReset cfg mem))
  | .ready s => .next ((hostCommand c s).1, .ready (hostCommand c s).2)

/-- Boot: construct, reset, load the image at 0 (R365). -/
def boot (cfg : Config) (image : List Byte) : HostReply × State := loadImage image (State.afterReset cfg [])

end Sys2Proof.Machine
end

