-- ==== Sys2Proof/Safety.lean ====
section
/-! DEFINITION. The terms the statements use: the invariant of the machine, the states it can reach, frames, and what it is
for an instruction to complete or to end in a condition. -/

namespace Sys2Proof.Machine

/-! ## The invariant -/

/-- The run state and the report agree: a halt left Halted, a fault left Faulted (10_state.md R45, R46). -/
def State.reportAgrees (s : State) : Prop :=
  match s.runState with
  | .running => True
  | .halted => ∃ c, s.report = some c ∧ c.runState = .halted
  | .faulted => ∃ c, s.report = some c ∧ c.runState = .faulted

/-- What holds of every state the machine reaches. -/
structure State.Inv (s : State) : Prop where
  /-- MEM_SIZE is within R13's bound. -/
  memSize_le : s.cfg.wf
  /-- x0's own cell holds 0 ("GPR[0] == 0 at all times", R31). -/
  x0_zero : s.regs[0] = 0#32
  /-- The memory is in canonical form. -/
  mem_wf : Memory.wf s.mem = true
  /-- Only addresses below MEM_SIZE are listed (20_memory.md R60). -/
  mem_bound : ∀ c ∈ s.mem, c.1 < s.cfg.memSize
  /-- The CSR file is in canonical form. -/
  csrs_wf : Cells.canonical s.csrs = true
  /-- Only CSR numbers below 4096 are listed (10_state.md R38). -/
  csrs_bound : ∀ c ∈ s.csrs, c.1 < 4096
  /-- The run state and the report agree. -/
  report_agrees : s.reportAgrees

/-- The states a core can be in after its first reset: reset with any parameters R13 allows, then any steps, host commands
and image loads (70_reset_and_hazards.md R365, R366). -/
inductive Reachable : State → Prop where
  | reset (cfg : Config) (h : cfg.wf) : Reachable (State.afterReset cfg [])
  | step {s t : State} (h : Reachable s) (hs : Sys2Proof.Machine.step s = .next t) : Reachable t
  | command {s : State} (c : HostCommand) (h : Reachable s) : Reachable (hostCommand c s).2
  | load {s : State} (image : List Byte) (h : Reachable s) : Reachable (loadImage image s).2

/-- The step at s executes the instruction i: the fetch at the PC succeeds and its word decodes to i. -/
def State.executes (s : State) (i : Instr) : Prop := ∃ w, s.fetch = some w ∧ decode w = .instr i

/-- The eight control transfers (48_cpu_driver.md R294). -/
def isControlTransfer : Instr → Bool
  | .beq _ _ _ | .bne _ _ _ | .blt _ _ _ | .bge _ _ _ | .bltu _ _ _ | .bgeu _ _ _ | .jal _ _ | .jalr _ _ _ => true
  | .lui _ _ | .auipc _ _ | .lb _ _ _ | .lh _ _ _ | .lw _ _ _ | .lbu _ _ _ | .lhu _ _ _ | .sb _ _ _ | .sh _ _ _
  | .sw _ _ _ | .addi _ _ _ | .slti _ _ _ | .sltiu _ _ _ | .xori _ _ _ | .ori _ _ _ | .andi _ _ _ | .slli _ _ _
  | .srli _ _ _ | .srai _ _ _ | .add _ _ _ | .sub _ _ _ | .sll _ _ _ | .slt _ _ _ | .sltu _ _ _ | .xor _ _ _
  | .srl _ _ _ | .sra _ _ _ | .or _ _ _ | .and _ _ _ | .fence _ _ _ | .ecall | .ebreak | .csrrw _ _ _ | .csrrs _ _ _
  | .csrrc _ _ _ | .csrrwi _ _ _ | .csrrsi _ _ _ | .csrrci _ _ _ => false

/-- The PC after an instruction that completes at s: the target its rule computes for a control transfer
(45_control_transfer.md R240 to R247), pc + 4 for every other instruction (48_cpu_driver.md R294). -/
def nextPc (i : Instr) (s : State) : Word :=
  match i with
  | .beq rs1 rs2 off => if s.getReg rs1 = s.getReg rs2 then s.pc + off else s.pc + 4#32
  | .bne rs1 rs2 off => if s.getReg rs1 = s.getReg rs2 then s.pc + 4#32 else s.pc + off
  | .blt rs1 rs2 off => if (s.getReg rs1).toInt < (s.getReg rs2).toInt then s.pc + off else s.pc + 4#32
  | .bge rs1 rs2 off => if (s.getReg rs1).toInt < (s.getReg rs2).toInt then s.pc + 4#32 else s.pc + off
  | .bltu rs1 rs2 off => if (s.getReg rs1).toNat < (s.getReg rs2).toNat then s.pc + off else s.pc + 4#32
  | .bgeu rs1 rs2 off => if (s.getReg rs1).toNat < (s.getReg rs2).toNat then s.pc + 4#32 else s.pc + off
  | .jal _ off => s.pc + off
  | .jalr _ rs1 imm => BitVec.ofNat 32 ((s.getReg rs1 + imm).toNat / 2 * 2)
  | .lui _ _ | .auipc _ _ | .lb _ _ _ | .lh _ _ _ | .lw _ _ _ | .lbu _ _ _ | .lhu _ _ _ | .sb _ _ _ | .sh _ _ _
  | .sw _ _ _ | .addi _ _ _ | .slti _ _ _ | .sltiu _ _ _ | .xori _ _ _ | .ori _ _ _ | .andi _ _ _ | .slli _ _ _
  | .srli _ _ _ | .srai _ _ _ | .add _ _ _ | .sub _ _ _ | .sll _ _ _ | .slt _ _ _ | .sltu _ _ _ | .xor _ _ _
  | .srl _ _ _ | .sra _ _ _ | .or _ _ _ | .and _ _ _ | .fence _ _ _ | .ecall | .ebreak | .csrrw _ _ _ | .csrrs _ _ _
  | .csrrc _ _ _ | .csrrwi _ _ _ | .csrrsi _ _ _ | .csrrci _ _ _ => s.pc + 4#32

/-- The accesses R63 lets through, on plain integers: 0 <= s(ea) and s(ea) + n <= MEM_SIZE. -/
def InBounds (s : State) (ea : Word) (w : Width) : Prop := 0 ≤ ea.toInt ∧ ea.toInt + w.bytes ≤ s.cfg.memSize

/-- The decoder gives no instruction for the word (30_encoding.md R119). -/
def IsUndecoded (w : Word) : Prop := ∃ why, decode w = .undecoded why

/-- Every word that holds the value under the mask decodes to the instruction made of its own fields. -/
def Encodes (mask value : Word) (instr : Word → Instr) : Prop :=
  ∀ w : Word, w &&& mask = value → decode w = .instr (instr w)

/-- The access of a load or store: its effective address and width (43_loads.md, 44_stores.md). -/
def accessOf (i : Instr) (s : State) : Option (Word × Width) :=
  match i with
  | .lb _ rs1 imm | .lbu _ rs1 imm | .sb _ rs1 imm => some (s.getReg rs1 + imm, .byte)
  | .lh _ rs1 imm | .lhu _ rs1 imm | .sh _ rs1 imm => some (s.getReg rs1 + imm, .half)
  | .lw _ rs1 imm | .sw _ rs1 imm => some (s.getReg rs1 + imm, .word)
  | .lui _ _ | .auipc _ _ | .jal _ _ | .jalr _ _ _ | .beq _ _ _ | .bne _ _ _ | .blt _ _ _ | .bge _ _ _ | .bltu _ _ _
  | .bgeu _ _ _ | .addi _ _ _ | .slti _ _ _ | .sltiu _ _ _ | .xori _ _ _ | .ori _ _ _ | .andi _ _ _ | .slli _ _ _
  | .srli _ _ _ | .srai _ _ _ | .add _ _ _ | .sub _ _ _ | .sll _ _ _ | .slt _ _ _ | .sltu _ _ _ | .xor _ _ _
  | .srl _ _ _ | .sra _ _ _ | .or _ _ _ | .and _ _ _ | .fence _ _ _ | .ecall | .ebreak | .csrrw _ _ _ | .csrrs _ _ _
  | .csrrc _ _ _ | .csrrwi _ _ _ | .csrrsi _ _ _ | .csrrci _ _ _ => none

/-- Byte a of the memory as a number. -/
def State.byteAt (s : State) (a : Nat) : Nat := (s.mem.readByte a).toNat

/-- The two bytes from a as a little-endian number (20_memory.md R62). -/
def State.halfAt (s : State) (a : Nat) : Nat := s.byteAt a + 256 * s.byteAt (a + 1)

/-- The four bytes from a as a little-endian number (20_memory.md R62). -/
def State.wordAt (s : State) (a : Nat) : Nat := s.halfAt a + 256 ^ 2 * s.halfAt (a + 2)

/-- The s() value of an n-bit number (00_scope.md R18). -/
def signedOf (n : Nat) (v : Nat) : Int := if v < 2 ^ (n - 1) then v else (v : Int) - 2 ^ n

/-! ## Frames: what two states share -/

/-- Every GPR reads the same. -/
def SameRegs (s t : State) : Prop := ∀ r, t.getReg r = s.getReg r

/-- Every GPR reads the same but rd, which reads v; a write to x0 is discarded (10_state.md R31). -/
def WritesReg (s t : State) (rd : Reg) (v : Word) : Prop :=
  ∀ r, t.getReg r = if r = rd ∧ rd ≠ 0#5 then v else s.getReg r

/-- Every CSR cell reads the same. -/
def SameCsrs (s t : State) : Prop := ∀ c, t.getCsr c = s.getCsr c

/-- Every CSR cell reads the same but one, which reads v. -/
def WritesCsr (s t : State) (csr : CsrAddr) (v : Word) : Prop :=
  ∀ c, t.getCsr c = if c = csr then v else s.getCsr c

/-- Every byte of memory reads the same. -/
def SameMem (s t : State) : Prop := ∀ a, t.mem.readByte a = s.mem.readByte a

/-- Every byte of memory reads the same outside the n bytes from a, and byte a + k of those reads v[8k+7 : 8k]
(20_memory.md R65). -/
def WritesMem (s t : State) (a n : Nat) (v : Word) : Prop :=
  (∀ k, k < n → (t.mem.readByte (a + k)).toNat = v.toNat / 256 ^ k % 256) ∧
  (∀ b, b < a ∨ a + n ≤ b → t.mem.readByte b = s.mem.readByte b)

/-- The run state, the condition report and the parameters are the same. -/
def SameControl (s t : State) : Prop := t.runState = s.runState ∧ t.report = s.report ∧ t.cfg = s.cfg

/-! ## Completion -/

/-- i completes at s: rd reads v (x0 discards it), the PC advances by 4 modulo 2^32, and nothing else changes. -/
def CompletesWithReg (s : State) (i : Instr) (rd : Reg) (v : Word) : Prop :=
  ∃ t, exec i s = .next t ∧ WritesReg s t rd v ∧ t.pc = s.pc + 4#32 ∧ SameCsrs s t ∧ SameMem s t ∧ SameControl s t

/-- i completes at s: the PC becomes target, and nothing else changes. -/
def CompletesAtPc (s : State) (i : Instr) (target : Word) : Prop :=
  ∃ t, exec i s = .next t ∧ t.pc = target ∧ SameRegs s t ∧ SameCsrs s t ∧ SameMem s t ∧ SameControl s t

/-- i completes at s: rd reads pc + 4 (x0 discards it), the PC becomes target, and nothing else changes. -/
def CompletesWithLink (s : State) (i : Instr) (rd : Reg) (target : Word) : Prop :=
  ∃ t, exec i s = .next t ∧ WritesReg s t rd (s.pc + 4#32) ∧ t.pc = target ∧ SameCsrs s t ∧ SameMem s t ∧
    SameControl s t

/-- i completes at s: the n bytes from a hold the low bytes of v, the PC advances by 4, and nothing else changes. -/
def CompletesWithMem (s : State) (i : Instr) (a n : Nat) (v : Word) : Prop :=
  ∃ t, exec i s = .next t ∧ WritesMem s t a n v ∧ t.pc = s.pc + 4#32 ∧ SameRegs s t ∧ SameCsrs s t ∧ SameControl s t

/-- i completes at s: rd reads v (x0 discards it), the CSR cell reads new, the PC advances by 4, and nothing else
changes. -/
def CompletesWithCsr (s : State) (i : Instr) (rd : Reg) (v : Word) (csr : CsrAddr) (new : Word) : Prop :=
  ∃ t, exec i s = .next t ∧ WritesReg s t rd v ∧ WritesCsr s t csr new ∧ t.pc = s.pc + 4#32 ∧ SameMem s t ∧
    SameControl s t

/-- t is s after the condition c: no GPR, CSR, memory byte, PC or parameter differs, the run state is the condition's and
the report holds it (60_exceptions.md R330). -/
def EndsIn (s t : State) (c : Condition) : Prop :=
  SameRegs s t ∧ SameCsrs s t ∧ SameMem s t ∧ t.pc = s.pc ∧ t.cfg = s.cfg ∧ t.runState = c.runState ∧
    t.report = some c

/-- Executing i at s ends in the condition c. -/
def RaisesCondition (s : State) (i : Instr) (c : Condition) : Prop := ∃ t, exec i s = .next t ∧ EndsIn s t c

/-- A load of width w at ea into rd: in bounds it completes with the value v in rd; out of bounds it ends in
MemoryRangeViolation, with nothing written (43_loads.md R200 to R205). -/
def LoadRule (s : State) (i : Instr) (w : Width) (rd : Reg) (ea v : Word) : Prop :=
  (InBounds s ea w → CompletesWithReg s i rd v) ∧
  (¬InBounds s ea w → RaisesCondition s i (.memoryRangeViolation s.pc (some (encode i)) ea w))

/-- A store of width w of the low bytes of v at ea: in bounds it completes with those bytes written; out of bounds it ends
in MemoryRangeViolation, with no byte written (44_stores.md R220 to R224). -/
def StoreRule (s : State) (i : Instr) (w : Width) (ea v : Word) : Prop :=
  (InBounds s ea w → CompletesWithMem s i ea.toNat w.bytes v) ∧
  (¬InBounds s ea w → RaisesCondition s i (.memoryRangeViolation s.pc (some (encode i)) ea w))

/-! ## Runs -/

/-- The instructions of a list executed one after another. -/
def execAll : List Instr → State → Result
  | [], s => .next s
  | i :: rest, s =>
    match exec i s with
    | .next t => execAll rest t
    | .fault r => .fault r
    | .refused r => .refused r

/-- k steps from s to t, each of which returns Normal. -/
def NormalSteps : Nat → State → State → Prop
  | 0, s, t => t = s
  | k + 1, s, t => ∃ u, step s = .next u ∧ u.runState = .running ∧ NormalSteps k u t

/-- n steps from s, none of which ends in a fault condition: a safe run of that length. -/
def SafeRun : Nat → State → Prop
  | 0, _ => True
  | n + 1, s => ∃ t, step s = .next t ∧ t.runState ≠ .faulted ∧ SafeRun n t

end Sys2Proof.Machine
end

