-- ==== Sys2Proof/Certificates/Slice0/Obligations.lean ====
section
/-! DEFINITION. The statements about the model, from the numbered rules of spec/. Each docstring names the rule. -/

open Sys2Proof Sys2Proof.Machine

/-! ## Encoding (30_encoding.md) -/

/-- A few words written out from the spec's encodings decode to the instructions they stand for. The funct3 and funct7
values are the ones R116 marks as general knowledge (assumption log 10). -/
def Obligations.WrittenOutWordsDecode : Prop :=
  decode 0b00010010001101000101_00001_0110111#32 = .instr (.lui 1#5 0x12345000#32) ∧
  decode 0b000000000001_00001_000_00011_0010011#32 = .instr (.addi 3#5 1#5 1#32) ∧
  decode 0b0100000_00010_00001_000_00011_0110011#32 = .instr (.sub 3#5 1#5 2#5) ∧
  decode 0b111111111111_00001_000_00010_0000011#32 = .instr (.lb 2#5 1#5 0xFFFFFFFF#32) ∧
  decode 0b0000000_00010_00001_010_01000_0100011#32 = .instr (.sw 2#5 1#5 8#32) ∧
  decode 0b1_111111_00010_00001_100_1110_1_1100011#32 = .instr (.blt 1#5 2#5 0xFFFFFFFC#32) ∧
  decode 0b0_0000000100_0_00000000_00001_1101111#32 = .instr (.jal 1#5 8#32) ∧
  decode 0b000000000001_00000_000_00000_1110011#32 = .instr .ebreak ∧
  decode 0b001100000101_00001_010_00010_1110011#32 = .instr (.csrrs 2#5 0x305#12 1#5)

/-- R101 to R120: the word of every well-formed instruction decodes to that instruction, every operand at every value the
encoding admits. -/
def Obligations.DecodeEncodeRoundTrip : Prop :=
  ∀ i : Instr, i.wf = true → decode (encode i) = .instr i

/-- R101 to R120, the other way: a word that decodes is the word of the instruction it decodes to, which is well-formed, so
no bit of a word is dropped. -/
def Obligations.DecodedWordIsItsEncoding : Prop :=
  ∀ (w : Word) (i : Instr), decode w = .instr i → i.wf = true ∧ encode i = w

/-- R115 to R121: a word decodes to an instruction of a mnemonic exactly when it matches a row of the opcode table with that
mnemonic. The rows hold the values R116 marks as general knowledge (assumption log 10). -/
def Obligations.DecoderAgreesWithOpcodeTable : Prop :=
  ∀ (w : Word) (m : String),
    (∃ i, decode w = .instr i ∧ i.mnemonic = m) ↔ ∃ r ∈ opcodeTable, r.mnemonic = m ∧ r.admits w = true

/-- R102 to R107, R113, R115 to R118, R120, R121, with the funct3 and funct7 values that R116 marks as general knowledge
(assumption log 10): every word that matches the mask and value of an opcode-table row decodes to that row's instruction,
its operands taken from the word's own fields and immediates. -/
def Obligations.EveryRowDecodesWithItsOperands : Prop :=
  Encodes 0x0000007F#32 0x00000037#32 (fun w => .lui (rdOf w) (immU w)) ∧
  Encodes 0x0000007F#32 0x00000017#32 (fun w => .auipc (rdOf w) (immU w)) ∧
  Encodes 0x0000007F#32 0x0000006F#32 (fun w => .jal (rdOf w) (immJ w)) ∧
  Encodes 0x0000707F#32 0x00000067#32 (fun w => .jalr (rdOf w) (rs1Of w) (immI w)) ∧
  Encodes 0x0000707F#32 0x00000063#32 (fun w => .beq (rs1Of w) (rs2Of w) (immB w)) ∧
  Encodes 0x0000707F#32 0x00001063#32 (fun w => .bne (rs1Of w) (rs2Of w) (immB w)) ∧
  Encodes 0x0000707F#32 0x00004063#32 (fun w => .blt (rs1Of w) (rs2Of w) (immB w)) ∧
  Encodes 0x0000707F#32 0x00005063#32 (fun w => .bge (rs1Of w) (rs2Of w) (immB w)) ∧
  Encodes 0x0000707F#32 0x00006063#32 (fun w => .bltu (rs1Of w) (rs2Of w) (immB w)) ∧
  Encodes 0x0000707F#32 0x00007063#32 (fun w => .bgeu (rs1Of w) (rs2Of w) (immB w)) ∧
  Encodes 0x0000707F#32 0x00000003#32 (fun w => .lb (rdOf w) (rs1Of w) (immI w)) ∧
  Encodes 0x0000707F#32 0x00001003#32 (fun w => .lh (rdOf w) (rs1Of w) (immI w)) ∧
  Encodes 0x0000707F#32 0x00002003#32 (fun w => .lw (rdOf w) (rs1Of w) (immI w)) ∧
  Encodes 0x0000707F#32 0x00004003#32 (fun w => .lbu (rdOf w) (rs1Of w) (immI w)) ∧
  Encodes 0x0000707F#32 0x00005003#32 (fun w => .lhu (rdOf w) (rs1Of w) (immI w)) ∧
  Encodes 0x0000707F#32 0x00000023#32 (fun w => .sb (rs2Of w) (rs1Of w) (immS w)) ∧
  Encodes 0x0000707F#32 0x00001023#32 (fun w => .sh (rs2Of w) (rs1Of w) (immS w)) ∧
  Encodes 0x0000707F#32 0x00002023#32 (fun w => .sw (rs2Of w) (rs1Of w) (immS w)) ∧
  Encodes 0x0000707F#32 0x00000013#32 (fun w => .addi (rdOf w) (rs1Of w) (immI w)) ∧
  Encodes 0x0000707F#32 0x00002013#32 (fun w => .slti (rdOf w) (rs1Of w) (immI w)) ∧
  Encodes 0x0000707F#32 0x00003013#32 (fun w => .sltiu (rdOf w) (rs1Of w) (immI w)) ∧
  Encodes 0x0000707F#32 0x00004013#32 (fun w => .xori (rdOf w) (rs1Of w) (immI w)) ∧
  Encodes 0x0000707F#32 0x00006013#32 (fun w => .ori (rdOf w) (rs1Of w) (immI w)) ∧
  Encodes 0x0000707F#32 0x00007013#32 (fun w => .andi (rdOf w) (rs1Of w) (immI w)) ∧
  Encodes 0xFE00707F#32 0x00001013#32 (fun w => .slli (rdOf w) (rs1Of w) (shamtOf w)) ∧
  Encodes 0xFE00707F#32 0x00005013#32 (fun w => .srli (rdOf w) (rs1Of w) (shamtOf w)) ∧
  Encodes 0xFE00707F#32 0x40005013#32 (fun w => .srai (rdOf w) (rs1Of w) (shamtOf w)) ∧
  Encodes 0xFE00707F#32 0x00000033#32 (fun w => .add (rdOf w) (rs1Of w) (rs2Of w)) ∧
  Encodes 0xFE00707F#32 0x40000033#32 (fun w => .sub (rdOf w) (rs1Of w) (rs2Of w)) ∧
  Encodes 0xFE00707F#32 0x00001033#32 (fun w => .sll (rdOf w) (rs1Of w) (rs2Of w)) ∧
  Encodes 0xFE00707F#32 0x00002033#32 (fun w => .slt (rdOf w) (rs1Of w) (rs2Of w)) ∧
  Encodes 0xFE00707F#32 0x00003033#32 (fun w => .sltu (rdOf w) (rs1Of w) (rs2Of w)) ∧
  Encodes 0xFE00707F#32 0x00004033#32 (fun w => .xor (rdOf w) (rs1Of w) (rs2Of w)) ∧
  Encodes 0xFE00707F#32 0x00005033#32 (fun w => .srl (rdOf w) (rs1Of w) (rs2Of w)) ∧
  Encodes 0xFE00707F#32 0x40005033#32 (fun w => .sra (rdOf w) (rs1Of w) (rs2Of w)) ∧
  Encodes 0xFE00707F#32 0x00006033#32 (fun w => .or (rdOf w) (rs1Of w) (rs2Of w)) ∧
  Encodes 0xFE00707F#32 0x00007033#32 (fun w => .and (rdOf w) (rs1Of w) (rs2Of w)) ∧
  Encodes 0x0000707F#32 0x0000000F#32 (fun w => .fence (csrOf w) (rs1Of w) (rdOf w)) ∧
  Encodes 0xFFFFFFFF#32 0x00000073#32 (fun _ => .ecall) ∧
  Encodes 0xFFFFFFFF#32 0x00100073#32 (fun _ => .ebreak) ∧
  Encodes 0x0000707F#32 0x00001073#32 (fun w => .csrrw (rdOf w) (csrOf w) (rs1Of w)) ∧
  Encodes 0x0000707F#32 0x00002073#32 (fun w => .csrrs (rdOf w) (csrOf w) (rs1Of w)) ∧
  Encodes 0x0000707F#32 0x00003073#32 (fun w => .csrrc (rdOf w) (csrOf w) (rs1Of w)) ∧
  Encodes 0x0000707F#32 0x00005073#32 (fun w => .csrrwi (rdOf w) (csrOf w) (zimmOf w)) ∧
  Encodes 0x0000707F#32 0x00006073#32 (fun w => .csrrsi (rdOf w) (csrOf w) (zimmOf w)) ∧
  Encodes 0x0000707F#32 0x00007073#32 (fun w => .csrrci (rdOf w) (csrOf w) (zimmOf w))

/-- R122: for any two rows some bit is fixed in both masks and differs between the values; so a word matches at most one
row, and the first match does not depend on the order in which rows are tried. -/
def Obligations.OpcodeRowsNeverOverlap : Prop :=
  opcodeTable.Pairwise (fun r q => r.mask &&& q.mask &&& (r.value ^^^ q.value) ≠ 0#32) ∧
  (∀ (w : Word) (r q : OpcodeRow), r ∈ opcodeTable → q ∈ opcodeTable → r.admits w = true → q.admits w = true → r = q) ∧
  (∀ (w : Word) (rows : List OpcodeRow), rows.Perm opcodeTable →
    rows.find? (fun r => r.admits w) = opcodeTable.find? (fun r => r.admits w))

/-- R119: every word that matches no row is Undecoded and its step raises IllegalInstruction; each class of words the rule
lists is Undecoded. It rests on the spec's own decisions D6 and D7 (assumption logs 10 and 11). -/
def Obligations.UndecodedWordsRaiseIllegalInstruction : Prop :=
  (∀ w : Word, (∀ r ∈ opcodeTable, r.admits w = false) → IsUndecoded w) ∧
  (∀ (s : State) (w : Word), s.fetch = some w → IsUndecoded w →
    ∃ t, step s = .next t ∧ EndsIn s t (.illegalInstruction s.pc w)) ∧
  IsUndecoded 0x00000000#32 ∧ IsUndecoded 0xFFFFFFFF#32 ∧
  (∀ w : Word, w.extractLsb' 0 2 ≠ 0b11#2 → IsUndecoded w) ∧
  (∀ w : Word, opcodeOf w = 0x1B#7 ∨ opcodeOf w = 0x3B#7 → IsUndecoded w) ∧
  (∀ w : Word, opcodeOf w = 0x33#7 → funct7Of w ≠ 0b0000000#7 → funct7Of w ≠ 0b0100000#7 → IsUndecoded w) ∧
  (∀ w : Word, opcodeOf w = 0x33#7 → funct7Of w = 0b0100000#7 → funct3Of w ≠ 0b000#3 → funct3Of w ≠ 0b101#3 →
    IsUndecoded w) ∧
  (∀ w : Word, opcodeOf w = 0x67#7 → funct3Of w ≠ 0b000#3 → IsUndecoded w) ∧
  (∀ w : Word, opcodeOf w = 0x63#7 → funct3Of w = 0b010#3 ∨ funct3Of w = 0b011#3 → IsUndecoded w) ∧
  (∀ w : Word, opcodeOf w = 0x03#7 → funct3Of w = 0b011#3 ∨ funct3Of w = 0b110#3 ∨ funct3Of w = 0b111#3 →
    IsUndecoded w) ∧
  (∀ w : Word, opcodeOf w = 0x23#7 → 3 ≤ (funct3Of w).toNat → IsUndecoded w) ∧
  (∀ w : Word, opcodeOf w = 0x73#7 → funct3Of w = 0b100#3 → IsUndecoded w) ∧
  (∀ w : Word, opcodeOf w = 0x73#7 → funct3Of w = 0b000#3 → w ≠ 0x00000073#32 → w ≠ 0x00100073#32 →
    IsUndecoded w) ∧
  IsUndecoded 0x30200073#32 ∧ IsUndecoded 0x10200073#32 ∧ IsUndecoded 0x10500073#32 ∧
  (∀ w : Word, opcodeOf w = 0x73#7 → funct3Of w = 0b000#3 → funct7Of w = 0b0001001#7 → IsUndecoded w) ∧
  (∀ w : Word, opcodeOf w ∈ [0x2F#7, 0x07#7, 0x27#7, 0x43#7, 0x47#7, 0x4B#7, 0x4F#7, 0x53#7, 0x57#7, 0x0B#7, 0x2B#7,
    0x5B#7, 0x7B#7] → IsUndecoded w)

/-- R117: under opcode 0x13 the shift-immediates need inst[31:25] = 0000000 (SLLI, SRLI) or 0100000 (SRAI); inst[30]
tells SRAI from SRLI; every other inst[31:25] with funct3 001 or 101 is Undecoded. The
strictness is the spec's own decision D6 (assumption log 11). -/
def Obligations.ShiftImmediatesDecodeStrictly : Prop :=
  ∀ w : Word, opcodeOf w = 0x13#7 →
    (funct3Of w = 0b001#3 → funct7Of w = 0b0000000#7 → decode w = .instr (.slli (rdOf w) (rs1Of w) (shamtOf w))) ∧
    (funct3Of w = 0b001#3 → funct7Of w ≠ 0b0000000#7 → IsUndecoded w) ∧
    (funct3Of w = 0b101#3 → funct7Of w = 0b0000000#7 → decode w = .instr (.srli (rdOf w) (rs1Of w) (shamtOf w))) ∧
    (funct3Of w = 0b101#3 → funct7Of w = 0b0100000#7 → decode w = .instr (.srai (rdOf w) (rs1Of w) (shamtOf w))) ∧
    (funct3Of w = 0b101#3 → funct7Of w ≠ 0b0000000#7 → funct7Of w ≠ 0b0100000#7 → IsUndecoded w)

/-- R108, R109, R112, and R110 and R111: which bit of the word every bit of an immediate comes from, the range of each
immediate, and that branch and jump offsets are even. -/
def Obligations.ImmediateBitsAndRanges : Prop :=
  ∀ w : Word,
    (∀ k, k < 32 →
      (immI w).getLsbD k = w.getLsbD (if k < 12 then 20 + k else 31) ∧
      (immS w).getLsbD k = w.getLsbD (if k < 5 then 7 + k else if k < 12 then 20 + k else 31) ∧
      (immB w).getLsbD k = (k != 0 &&
        w.getLsbD (if k < 5 then 7 + k else if k < 11 then 20 + k else if k = 11 then 7 else 31)) ∧
      (immU w).getLsbD k = (12 ≤ k && w.getLsbD k) ∧
      (immJ w).getLsbD k = (k != 0 &&
        w.getLsbD (if k < 11 then 20 + k else if k = 11 then 20 else if k < 20 then k else 31))) ∧
    (-2048 ≤ (immI w).toInt ∧ (immI w).toInt ≤ 2047) ∧
    (-2048 ≤ (immS w).toInt ∧ (immS w).toInt ≤ 2047) ∧
    (-4096 ≤ (immB w).toInt ∧ (immB w).toInt ≤ 4094 ∧ (immB w).toInt % 2 = 0) ∧
    (immU w).toNat % 4096 = 0 ∧
    (-1048576 ≤ (immJ w).toInt ∧ (immJ w).toInt ≤ 1048574 ∧ (immJ w).toInt % 2 = 0)

/-! ## Reset, x0 and the invariant -/

/-- R360: what the core reset leaves, from every state and for either value of RESET_CLEARS_MEMORY. -/
def Obligations.CoreResetValues : Prop :=
  ∀ s : State,
    (∀ r, s.coreReset.getReg r = 0#32) ∧ s.coreReset.pc = 0#32 ∧ (∀ c, s.coreReset.getCsr c = 0#32) ∧
    s.coreReset.runState = .running ∧ s.coreReset.report = none ∧ s.coreReset.cfg = s.cfg ∧
    (s.cfg.resetClearsMemory = true → ∀ a, s.coreReset.mem.readByte a = 0#8) ∧
    (s.cfg.resetClearsMemory = false → SameMem s s.coreReset)

/-- R362: reset() followed by reset() gives the same state as one reset(). -/
def Obligations.CoreResetIdempotent : Prop :=
  ∀ s : State, s.coreReset.coreReset = s.coreReset

/-- R31: every read of x0 returns 0; every write to x0, by the host port or by an instruction, is discarded; x0's own
cell stays 0 through every instruction. -/
def Obligations.ZeroRegisterIsHardwired : Prop :=
  (∀ s : State, s.getReg 0#5 = 0#32) ∧
  (∀ (s : State) (v : Word), regPort (.setGpr 0 v) s = (.done, s)) ∧
  (∀ (s : State) (v : Word), s.setReg 0#5 v = s) ∧
  (∀ (i : Instr) (s t : State), exec i s = .next t → t.regs[0] = s.regs[0])

/-- The model's invariant (Safety.lean; its canonical forms are the model's representation, assumption log 13) holds after
reset, for the parameters State.reset carries (assumption log 2) and for every other parameters R13 allows. -/
def Obligations.InvariantHoldsAtReset : Prop :=
  State.reset.Inv ∧ ∀ cfg : Config, cfg.wf → (State.afterReset cfg []).Inv

/-- The model's invariant (Safety.lean: canonical memory and CSR file within their bounds, x0's cell 0, run state and
report in agreement) is kept by every step from every state that meets it. -/
def Obligations.InvariantKeptByEveryStep : Prop :=
  ∀ s t : State, s.Inv → step s = .next t → t.Inv

/-- The model's invariant holds of every state a core can be in after its first reset, through steps, host commands and
image loads. Which states those are rests on assumption logs 4, 7, 9 and 14, the invariant's canonical forms on log 13. -/
def Obligations.InvariantHoldsOfEveryReachableState : Prop :=
  ∀ s : State, Reachable s → s.Inv

/-! ## The step (48_cpu_driver.md, 60_exceptions.md) -/

/-- R290, R293, R297: when the four bytes at the PC decode to an instruction, the step is that instruction executed at the
same state with the run state set to Running, whatever it was (the spec's own decision D9, assumption log 12); the
step adds nothing else. -/
def Obligations.StepRunsTheDecodedInstruction : Prop :=
  ∀ (s : State) (i : Instr), InBounds s s.pc .word →
    decodeBytes [s.mem.readByte s.pc.toNat, s.mem.readByte (s.pc.toNat + 1), s.mem.readByte (s.pc.toNat + 2),
      s.mem.readByte (s.pc.toNat + 3)] = .instr i →
    step s = exec i { s with runState := .running }

/-- R291: the fetch reads the four bytes at the PC, little-endian, at any alignment (the spec's own decision D4); out of
range the step raises MemoryRangeViolation with the PC as the address, width 4 and no instruction word, and changes nothing
else (its own decision D5). Both decisions are in assumption log 12. -/
def Obligations.FetchReadsFourBytesOrRaises : Prop :=
  ∀ s : State,
    (InBounds s s.pc .word → s.fetch = some (BitVec.ofNat 32 (s.wordAt s.pc.toNat))) ∧
    (¬InBounds s s.pc .word →
      ∃ t, step s = .next t ∧ EndsIn s t (.memoryRangeViolation s.pc none s.pc .word))

/-- R290, R304: from every state a step answers a next state; none faults or is refused. That a condition is a next state is
the model's reading (assumption log 5). -/
def Obligations.EveryStepAnswersNext : Prop :=
  ∀ s : State, ∃ t, step s = .next t

/-- R297, R330: a step does not depend on the run state it starts in or on the report; a step that ended in a condition,
taken again, ends in the same state. They rest on the spec's own decisions D9 and D5 (assumption log 12). -/
def Obligations.StepIgnoresRunStateAndRepeatsConditions : Prop :=
  (∀ (s t : State) (rs : RunState), step s = .next t → step { s with runState := rs } = .next t) ∧
  (∀ (s t : State) (c : Option Condition), step s = .next t →
    ∃ u, step { s with report := c } = .next u ∧ u = { t with report := u.report }) ∧
  (∀ s t : State, step s = .next t → t.runState ≠ .running → step t = .next t)

/-- R330: a step that ends in a condition changes no GPR, no CSR, no memory byte and not the PC; only the run state and the
report, which holds the PC and the fetched word. This is the spec's own decision D5 (assumption logs 6 and 12). -/
def Obligations.ConditionsArePrecise : Prop :=
  ∀ s t : State, step s = .next t → t.runState ≠ .running →
    ∃ c, EndsIn s t c ∧ c.pc = s.pc ∧ c.inst = s.fetch

/-- R45: a step that completes normally leaves Running (and the report as it was, R46), one that ends in a halt condition
sets Halted, one that ends in a fault condition sets Faulted; reset sets Running. The run state after a step from Halted or
Faulted is the spec's own decision D9 (assumption log 12). -/
def Obligations.RunStateFollowsTheStep : Prop :=
  (∀ s t : State, step s = .next t →
    (t.runState = .running ∧ t.report = s.report) ∨
    (t.runState = .halted ∧ ∃ pc inst, t.report = some (.environmentCall pc inst) ∨
      t.report = some (.breakpoint pc inst)) ∨
    (t.runState = .faulted ∧ ((∃ pc inst, t.report = some (.illegalInstruction pc inst)) ∨
      ∃ pc inst ea w, t.report = some (.memoryRangeViolation pc inst ea w)))) ∧
  (∀ s : State, s.coreReset.runState = .running)

/-- R321: each condition, its cause, the instructions that raise it and what its report records, both ways: a step ends in
the condition exactly when the cause holds. What the report records is the spec's own decision D11 (assumption logs 6
and 12). -/
def Obligations.ConditionsFollowTheirCauses : Prop :=
  ∀ s t : State, step s = .next t →
    (t.runState = .halted ∧ t.report = some (.environmentCall s.pc 0x00000073#32) ↔ s.executes .ecall) ∧
    (t.runState = .halted ∧ t.report = some (.breakpoint s.pc 0x00100073#32) ↔ s.executes .ebreak) ∧
    (∀ w, t.runState = .faulted ∧ t.report = some (.illegalInstruction s.pc w) ↔
      s.fetch = some w ∧ IsUndecoded w) ∧
    (∀ inst ea w, t.runState = .faulted ∧ t.report = some (.memoryRangeViolation s.pc inst ea w) ↔
      (inst = none ∧ ea = s.pc ∧ w = .word ∧ ¬InBounds s s.pc .word) ∨
      ∃ i, s.executes i ∧ inst = some (encode i) ∧ accessOf i s = some (ea, w) ∧ ¬InBounds s ea w)

/-- R36: each step moves the PC in exactly one of three ways: pc + 4, the target of a control transfer, or not at all
when it ends in a condition. -/
def Obligations.PcMovesInExactlyThreeWays : Prop :=
  ∀ s t : State, step s = .next t →
    (t.runState = .running ∧ ∃ i, s.executes i ∧ isControlTransfer i = false ∧ t.pc = s.pc + 4#32) ∨
    (t.runState = .running ∧ ∃ i, s.executes i ∧ isControlTransfer i = true ∧ t.pc = nextPc i s) ∨
    (t.runState ≠ .running ∧ t.pc = s.pc)

/-- R277: a CSR cell changes in a step only when the step executes a Zicsr instruction that names it. -/
def Obligations.OnlyZicsrChangesACsr : Prop :=
  ∀ (s t : State) (c : CsrAddr), step s = .next t → t.getCsr c ≠ s.getCsr c →
    (∃ rd rs1, s.executes (.csrrw rd c rs1) ∨ s.executes (.csrrs rd c rs1) ∨ s.executes (.csrrc rd c rs1)) ∨
    (∃ rd z, s.executes (.csrrwi rd c z) ∨ s.executes (.csrrsi rd c z) ∨ s.executes (.csrrci rd c z))

/-- R42, R205, R221 to R223: a byte of memory changes in a step only when the step executes a store whose bytes, from
x[rs1] + imm upwards, include it. -/
def Obligations.OnlyStoresChangeMemory : Prop :=
  ∀ (s t : State) (a : Nat), step s = .next t → t.mem.readByte a ≠ s.mem.readByte a →
    ∃ rs2 rs1 imm,
      (s.executes (.sb rs2 rs1 imm) ∧ a = (s.getReg rs1 + imm).toNat) ∨
      (s.executes (.sh rs2 rs1 imm) ∧ (s.getReg rs1 + imm).toNat ≤ a ∧ a < (s.getReg rs1 + imm).toNat + 2) ∨
      (s.executes (.sw rs2 rs1 imm) ∧ (s.getReg rs1 + imm).toNat ≤ a ∧ a < (s.getReg rs1 + imm).toNat + 4)

/-- R295: a step changes at most one GPR, at most one CSR, and bytes of memory that lie within four of each other. -/
def Obligations.StepChangesAtMostOneOfEach : Prop :=
  ∀ s t : State, step s = .next t →
    (∀ r q, t.getReg r ≠ s.getReg r → t.getReg q ≠ s.getReg q → r = q) ∧
    (∀ c d, t.getCsr c ≠ s.getCsr c → t.getCsr d ≠ s.getCsr d → c = d) ∧
    (∀ a b, t.mem.readByte a ≠ s.mem.readByte a → t.mem.readByte b ≠ s.mem.readByte b → a < b + 4)

/-- R13, R47: no step and no host command changes MEM_SIZE or RESET_CLEARS_MEMORY. -/
def Obligations.ParametersNeverChange : Prop :=
  (∀ s t : State, step s = .next t → t.cfg = s.cfg) ∧
  (∀ (c : HostCommand) (s : State), (hostCommand c s).2.cfg = s.cfg)

/-! ## Results of the instructions -/

/-- R150, R151: LUI writes immU; AUIPC writes pc + immU modulo 2^32. -/
def Obligations.UpperImmediateResults : Prop :=
  ∀ (s : State) (rd : Reg) (imm : Word),
    CompletesWithReg s (.lui rd imm) rd imm ∧
    CompletesWithReg s (.auipc rd imm) rd (BitVec.ofNat 32 (s.pc.toNat + imm.toNat))

/-- R160, R180, R181: ADDI, ADD and SUB are the integer sum or difference modulo 2^32; overflow is not detected. -/
def Obligations.AddSubtractResults : Prop :=
  ∀ (s : State) (rd rs1 rs2 : Reg) (imm : Word),
    CompletesWithReg s (.addi rd rs1 imm) rd (BitVec.ofInt 32 ((s.getReg rs1).toInt + imm.toInt)) ∧
    CompletesWithReg s (.add rd rs1 rs2) rd (BitVec.ofInt 32 ((s.getReg rs1).toInt + (s.getReg rs2).toInt)) ∧
    CompletesWithReg s (.sub rd rs1 rs2) rd (BitVec.ofInt 32 ((s.getReg rs1).toInt - (s.getReg rs2).toInt))

/-- R161, R162, R183, R184: SLTI and SLT compare s() values, SLTIU and SLTU u() values of the sign-extended immediate or
the register; the result is 1 or 0. -/
def Obligations.CompareResults : Prop :=
  ∀ (s : State) (rd rs1 rs2 : Reg) (imm : Word),
    CompletesWithReg s (.slti rd rs1 imm) rd (if (s.getReg rs1).toInt < imm.toInt then 1#32 else 0#32) ∧
    CompletesWithReg s (.sltiu rd rs1 imm) rd (if (s.getReg rs1).toNat < imm.toNat then 1#32 else 0#32) ∧
    CompletesWithReg s (.slt rd rs1 rs2) rd
      (if (s.getReg rs1).toInt < (s.getReg rs2).toInt then 1#32 else 0#32) ∧
    CompletesWithReg s (.sltu rd rs1 rs2) rd
      (if (s.getReg rs1).toNat < (s.getReg rs2).toNat then 1#32 else 0#32)

/-- R163, R164, R165, R185, R188, R189: the bitwise instructions, bit by bit. -/
def Obligations.BitwiseResults : Prop :=
  ∀ (s : State) (rd rs1 rs2 : Reg) (imm : Word),
    (∃ v : Word, (∀ k, k < 32 → v.getLsbD k = ((s.getReg rs1).getLsbD k ^^ imm.getLsbD k)) ∧
      CompletesWithReg s (.xori rd rs1 imm) rd v) ∧
    (∃ v : Word, (∀ k, k < 32 → v.getLsbD k = ((s.getReg rs1).getLsbD k || imm.getLsbD k)) ∧
      CompletesWithReg s (.ori rd rs1 imm) rd v) ∧
    (∃ v : Word, (∀ k, k < 32 → v.getLsbD k = ((s.getReg rs1).getLsbD k && imm.getLsbD k)) ∧
      CompletesWithReg s (.andi rd rs1 imm) rd v) ∧
    (∃ v : Word, (∀ k, k < 32 → v.getLsbD k = ((s.getReg rs1).getLsbD k ^^ (s.getReg rs2).getLsbD k)) ∧
      CompletesWithReg s (.xor rd rs1 rs2) rd v) ∧
    (∃ v : Word, (∀ k, k < 32 → v.getLsbD k = ((s.getReg rs1).getLsbD k || (s.getReg rs2).getLsbD k)) ∧
      CompletesWithReg s (.or rd rs1 rs2) rd v) ∧
    (∃ v : Word, (∀ k, k < 32 → v.getLsbD k = ((s.getReg rs1).getLsbD k && (s.getReg rs2).getLsbD k)) ∧
      CompletesWithReg s (.and rd rs1 rs2) rd v)

/-- R166, R167, R168, R182, R186, R187: the shifts multiply or divide by a power of two, by shamt or by the low 5 bits of
x[rs2]; the arithmetic right shift rounds down. -/
def Obligations.ShiftResults : Prop :=
  ∀ (s : State) (rd rs1 rs2 : Reg) (shamt : BitVec 5),
    CompletesWithReg s (.slli rd rs1 shamt) rd (BitVec.ofNat 32 ((s.getReg rs1).toNat * 2 ^ shamt.toNat)) ∧
    CompletesWithReg s (.srli rd rs1 shamt) rd (BitVec.ofNat 32 ((s.getReg rs1).toNat / 2 ^ shamt.toNat)) ∧
    CompletesWithReg s (.srai rd rs1 shamt) rd (BitVec.ofInt 32 ((s.getReg rs1).toInt / 2 ^ shamt.toNat)) ∧
    CompletesWithReg s (.sll rd rs1 rs2) rd
      (BitVec.ofNat 32 ((s.getReg rs1).toNat * 2 ^ ((s.getReg rs2).toNat % 32))) ∧
    CompletesWithReg s (.srl rd rs1 rs2) rd
      (BitVec.ofNat 32 ((s.getReg rs1).toNat / 2 ^ ((s.getReg rs2).toNat % 32))) ∧
    CompletesWithReg s (.sra rd rs1 rs2) rd
      (BitVec.ofInt 32 ((s.getReg rs1).toInt / 2 ^ ((s.getReg rs2).toNat % 32)))

/-- R200 to R204: each load reads its bytes little-endian at x[rs1] + imm, at any alignment, and widens them with the sign
or with zeros; out of range it raises MemoryRangeViolation and writes nothing, for rd = x0 too. The alignment, the frame of
the condition, its report, the signed range check and the read for rd = x0 are the spec's own decisions D3, D5, D11, D14 and
D19 (assumption log 12); that the report's word is encode i is assumption log 6. -/
def Obligations.LoadResults : Prop :=
  ∀ (s : State) (rd rs1 : Reg) (imm : Word),
    LoadRule s (.lb rd rs1 imm) .byte rd (s.getReg rs1 + imm)
      (BitVec.ofInt 32 (signedOf 8 (s.byteAt (s.getReg rs1 + imm).toNat))) ∧
    LoadRule s (.lh rd rs1 imm) .half rd (s.getReg rs1 + imm)
      (BitVec.ofInt 32 (signedOf 16 (s.halfAt (s.getReg rs1 + imm).toNat))) ∧
    LoadRule s (.lw rd rs1 imm) .word rd (s.getReg rs1 + imm)
      (BitVec.ofNat 32 (s.wordAt (s.getReg rs1 + imm).toNat)) ∧
    LoadRule s (.lbu rd rs1 imm) .byte rd (s.getReg rs1 + imm)
      (BitVec.ofNat 32 (s.byteAt (s.getReg rs1 + imm).toNat)) ∧
    LoadRule s (.lhu rd rs1 imm) .half rd (s.getReg rs1 + imm)
      (BitVec.ofNat 32 (s.halfAt (s.getReg rs1 + imm).toNat))

/-- R221, R222, R223: each store writes the low bytes of x[rs2], little-endian, at x[rs1] + imm, at any alignment, and no
other byte; out of range it raises MemoryRangeViolation and writes none. The alignment, the frame of the condition, its
report and the signed range check are the spec's own decisions D3, D5, D11 and D14 (assumption log 12); that the report's
word is encode i is assumption log 6. -/
def Obligations.StoreResults : Prop :=
  ∀ (s : State) (rs2 rs1 : Reg) (imm : Word),
    StoreRule s (.sb rs2 rs1 imm) .byte (s.getReg rs1 + imm) (s.getReg rs2) ∧
    StoreRule s (.sh rs2 rs1 imm) .half (s.getReg rs1 + imm) (s.getReg rs2) ∧
    StoreRule s (.sw rs2 rs1 imm) .word (s.getReg rs1 + imm) (s.getReg rs2)

/-- R240 to R245: a branch sets the PC to pc + off when its comparison holds and to pc + 4 when not, modulo 2^32, and
changes nothing else. -/
def Obligations.BranchResults : Prop :=
  ∀ (s : State) (rs1 rs2 : Reg) (off : Word),
    CompletesAtPc s (.beq rs1 rs2 off) (BitVec.ofInt 32
      (s.pc.toInt + if (s.getReg rs1).toNat = (s.getReg rs2).toNat then off.toInt else 4)) ∧
    CompletesAtPc s (.bne rs1 rs2 off) (BitVec.ofInt 32
      (s.pc.toInt + if (s.getReg rs1).toNat ≠ (s.getReg rs2).toNat then off.toInt else 4)) ∧
    CompletesAtPc s (.blt rs1 rs2 off) (BitVec.ofInt 32
      (s.pc.toInt + if (s.getReg rs1).toInt < (s.getReg rs2).toInt then off.toInt else 4)) ∧
    CompletesAtPc s (.bge rs1 rs2 off) (BitVec.ofInt 32
      (s.pc.toInt + if (s.getReg rs1).toInt ≥ (s.getReg rs2).toInt then off.toInt else 4)) ∧
    CompletesAtPc s (.bltu rs1 rs2 off) (BitVec.ofInt 32
      (s.pc.toInt + if (s.getReg rs1).toNat < (s.getReg rs2).toNat then off.toInt else 4)) ∧
    CompletesAtPc s (.bgeu rs1 rs2 off) (BitVec.ofInt 32
      (s.pc.toInt + if (s.getReg rs1).toNat ≥ (s.getReg rs2).toNat then off.toInt else 4))

/-- R246, R247: JAL and JALR write pc + 4 to rd and set the PC to pc + off, or to x[rs1] + imm with bit 0 cleared; JALR
reads the old x[rs1] when rd is rs1. -/
def Obligations.JumpResults : Prop :=
  ∀ (s : State) (rd rs1 : Reg) (off imm : Word),
    CompletesWithLink s (.jal rd off) rd (BitVec.ofInt 32 (s.pc.toInt + off.toInt)) ∧
    CompletesWithLink s (.jalr rd rs1 imm) rd (BitVec.ofNat 32 ((s.getReg rs1 + imm).toNat / 2 * 2))

/-- R260, R261: ECALL ends in EnvironmentCall and EBREAK in Breakpoint, at their own pc and word; the run state becomes
Halted and nothing else changes, the PC included (the spec's own decision D5, assumption log 12). -/
def Obligations.EcallAndEbreakHalt : Prop :=
  ∀ s : State,
    RaisesCondition s .ecall (.environmentCall s.pc 0x00000073#32) ∧
    RaisesCondition s .ebreak (.breakpoint s.pc 0x00100073#32) ∧
    Condition.runState (.environmentCall s.pc 0x00000073#32) = .halted ∧
    Condition.runState (.breakpoint s.pc 0x00100073#32) = .halted

/-- R262: FENCE, whatever its fields hold, advances the PC by 4 and changes nothing else. -/
def Obligations.FenceOnlyAdvancesThePc : Prop :=
  ∀ (s : State) (ordering : BitVec 12) (rs1 rd : Reg),
    CompletesAtPc s (.fence ordering rs1 rd) (BitVec.ofNat 32 (s.pc.toNat + 4))

/-- R271 to R276: rd gets the old cell; CSRRW and CSRRWI always write the cell, the others set or clear bits of it unless
rs1 is x0 or zimm is 0; the source is read before rd is written. -/
def Obligations.ZicsrResults : Prop :=
  ∀ (s : State) (rd rs1 : Reg) (csr : CsrAddr) (zimm : BitVec 5),
    CompletesWithCsr s (.csrrw rd csr rs1) rd (s.getCsr csr) csr (s.getReg rs1) ∧
    CompletesWithCsr s (.csrrs rd csr rs1) rd (s.getCsr csr) csr
      (if rs1 = 0#5 then s.getCsr csr else s.getCsr csr ||| s.getReg rs1) ∧
    CompletesWithCsr s (.csrrc rd csr rs1) rd (s.getCsr csr) csr
      (if rs1 = 0#5 then s.getCsr csr else s.getCsr csr &&& ~~~s.getReg rs1) ∧
    CompletesWithCsr s (.csrrwi rd csr zimm) rd (s.getCsr csr) csr (BitVec.ofNat 32 zimm.toNat) ∧
    CompletesWithCsr s (.csrrsi rd csr zimm) rd (s.getCsr csr) csr
      (if zimm = 0#5 then s.getCsr csr else s.getCsr csr ||| BitVec.ofNat 32 zimm.toNat) ∧
    CompletesWithCsr s (.csrrci rd csr zimm) rd (s.getCsr csr) csr
      (if zimm = 0#5 then s.getCsr csr else s.getCsr csr &&& ~~~BitVec.ofNat 32 zimm.toNat)

/-! ## Memory across instructions (20_memory.md) -/

/-- R81: a store of a width followed by a load of that width at the same address returns the low bits of the stored value,
sign-extended from the signed load and zero-extended from the unsigned load. -/
def Obligations.StoreThenLoadRoundTrip : Prop :=
  ∀ (s : State) (rs2 rs1 rd base : Reg) (imm off ea v : Word), ea = s.getReg rs1 + imm → v = s.getReg rs2 →
    ea = s.getReg base + off →
    (InBounds s ea .byte → ∃ t, exec (.sb rs2 rs1 imm) s = .next t ∧
      CompletesWithReg t (.lb rd base off) rd (BitVec.ofInt 32 ((v.toNat : Int).bmod (2 ^ 8))) ∧
      CompletesWithReg t (.lbu rd base off) rd (BitVec.ofNat 32 (v.toNat % 2 ^ 8))) ∧
    (InBounds s ea .half → ∃ t, exec (.sh rs2 rs1 imm) s = .next t ∧
      CompletesWithReg t (.lh rd base off) rd (BitVec.ofInt 32 ((v.toNat : Int).bmod (2 ^ 16))) ∧
      CompletesWithReg t (.lhu rd base off) rd (BitVec.ofNat 32 (v.toNat % 2 ^ 16))) ∧
    (InBounds s ea .word → ∃ t, exec (.sw rs2 rs1 imm) s = .next t ∧ CompletesWithReg t (.lw rd base off) rd v)

/-- R68: after MemWrite(a, 4, v) a byte read at a + k gives byte k of v, and a halfword read at a or a + 2 its low or high
half, for MEM_SIZE within R13's bound. -/
def Obligations.NarrowReadsSeeWideWrites : Prop :=
  ∀ (s t : State) (a v : Word), s.cfg.wf → s.memWrite a .word v = some t →
    t.memRead a .byte = some (BitVec.ofNat 8 v.toNat) ∧
    t.memRead (a + 1#32) .byte = some (BitVec.ofNat 8 (v.toNat / 256)) ∧
    t.memRead (a + 2#32) .byte = some (BitVec.ofNat 8 (v.toNat / 256 ^ 2)) ∧
    t.memRead (a + 3#32) .byte = some (BitVec.ofNat 8 (v.toNat / 256 ^ 3)) ∧
    t.memRead a .half = some (BitVec.ofNat 16 v.toNat) ∧
    t.memRead (a + 2#32) .half = some (BitVec.ofNat 16 (v.toNat / 256 ^ 2))

/-- R77: a store of a word to the next instruction's address changes what the next step executes, with no fence. -/
def Obligations.StoreToNextInstructionIsFetched : Prop :=
  ∀ (s t u : State) (rs2 rs1 : Reg) (imm : Word) (i : Instr), s.executes (.sw rs2 rs1 imm) →
    s.getReg rs1 + imm = s.pc + 4#32 → InBounds s (s.pc + 4#32) .word → decode (s.getReg rs2) = .instr i →
    step s = .next t → exec i t = .next u → t.pc = s.pc + 4#32 ∧ step t = .next u

/-! ## The host interface (48_cpu_driver.md, 20_memory.md) -/

/-- R303, R302 (the operations that name a register by number): the register port answers IndexViolation and changes nothing exactly for a GPR number outside 0 to 31 or a
CSR number outside 0 to 4095; inside, it reads and writes the register; writes to x0 are discarded. It rests on the spec's
own decision D15 (assumption log 12). -/
def Obligations.HostRegisterPort : Prop :=
  ∀ (s : State) (i : Int) (v : Word),
    (i < 0 ∨ 32 ≤ i → regPort (.getGpr i) s = (.error .indexViolation, s) ∧
      regPort (.setGpr i v) s = (.error .indexViolation, s)) ∧
    (0 ≤ i → i < 32 → ∃ r : Reg, (r.toNat : Int) = i ∧ regPort (.getGpr i) s = (.value (s.getReg r), s) ∧
      ∃ t, regPort (.setGpr i v) s = (.done, t) ∧ WritesReg s t r v ∧ t.pc = s.pc ∧ SameCsrs s t ∧ SameMem s t ∧
        SameControl s t) ∧
    (i < 0 ∨ 4096 ≤ i → regPort (.getCsr i) s = (.error .indexViolation, s) ∧
      regPort (.setCsr i v) s = (.error .indexViolation, s)) ∧
    (0 ≤ i → i < 4096 → ∃ c : CsrAddr, (c.toNat : Int) = i ∧ regPort (.getCsr i) s = (.value (s.getCsr c), s) ∧
      ∃ t, regPort (.setCsr i v) s = (.done, t) ∧ WritesCsr s t c v ∧ t.pc = s.pc ∧ SameRegs s t ∧ SameMem s t ∧
        SameControl s t)

/-- R78, R79, R303: a host command that answers an error changes nothing. It rests on the spec's own decisions D15 and D16
(assumption log 12). -/
def Obligations.HostErrorsChangeNothing : Prop :=
  ∀ (c : HostCommand) (s : State) (e : HostError), (hostCommand c s).1 = .error e → (hostCommand c s).2 = s

/-- R79, R78: a host store whose value is outside the signed range of its width fails and changes nothing; one whose
address is out of range fails and changes nothing; any other writes its bytes little-endian, and no other byte and nothing
else. Which error comes first when both are out of range is left open here (assumption log 8). It rests on the spec's own
decision D16 (assumption log 12). -/
def Obligations.HostStoresCheckAddressAndValue : Prop :=
  ∀ (s : State) (a v : Int) (memSize : Int), memSize = s.cfg.memSize →
    (v < -128 ∨ 127 < v → ∃ e, hostCommand (.mem (.storeByte a v)) s = (.error e, s)) ∧
    (v < -32768 ∨ 32767 < v → ∃ e, hostCommand (.mem (.storeHalf a v)) s = (.error e, s)) ∧
    (v < -2147483648 ∨ 2147483647 < v → ∃ e, hostCommand (.mem (.storeWord a v)) s = (.error e, s)) ∧
    (a < 0 ∨ memSize < a + 1 → ∃ e, hostCommand (.mem (.storeByte a v)) s = (.error e, s)) ∧
    (a < 0 ∨ memSize < a + 2 → ∃ e, hostCommand (.mem (.storeHalf a v)) s = (.error e, s)) ∧
    (a < 0 ∨ memSize < a + 4 → ∃ e, hostCommand (.mem (.storeWord a v)) s = (.error e, s)) ∧
    (0 ≤ a → a + 1 ≤ memSize → -128 ≤ v → v ≤ 127 →
      ∃ t, hostCommand (.mem (.storeByte a v)) s = (.done, t) ∧ WritesMem s t a.toNat 1 (BitVec.ofInt 32 v) ∧
        t.pc = s.pc ∧ SameRegs s t ∧ SameCsrs s t ∧ SameControl s t) ∧
    (0 ≤ a → a + 2 ≤ memSize → -32768 ≤ v → v ≤ 32767 →
      ∃ t, hostCommand (.mem (.storeHalf a v)) s = (.done, t) ∧ WritesMem s t a.toNat 2 (BitVec.ofInt 32 v) ∧
        t.pc = s.pc ∧ SameRegs s t ∧ SameCsrs s t ∧ SameControl s t) ∧
    (0 ≤ a → a + 4 ≤ memSize → -2147483648 ≤ v → v ≤ 2147483647 →
      ∃ t, hostCommand (.mem (.storeWord a v)) s = (.done, t) ∧ WritesMem s t a.toNat 4 (BitVec.ofInt 32 v) ∧
        t.pc = s.pc ∧ SameRegs s t ∧ SameCsrs s t ∧ SameControl s t)

/-- R61, R78: a host read inside [0, MEM_SIZE) returns the little-endian value, widened with the sign or with zeros, and one
outside it answers a memory-range error; a read changes nothing. It rests on the spec's own decision D16 (assumption
log 12). -/
def Obligations.HostLoadsReadAndWiden : Prop :=
  ∀ (s : State) (a memSize : Int), memSize = s.cfg.memSize →
    (0 ≤ a → a + 1 ≤ memSize →
      hostCommand (.mem (.loadByte a)) s = (.value (BitVec.ofInt 32 (signedOf 8 (s.byteAt a.toNat))), s) ∧
      hostCommand (.mem (.loadByteU a)) s = (.value (BitVec.ofNat 32 (s.byteAt a.toNat)), s)) ∧
    (0 ≤ a → a + 2 ≤ memSize →
      hostCommand (.mem (.loadHalf a)) s = (.value (BitVec.ofInt 32 (signedOf 16 (s.halfAt a.toNat))), s) ∧
      hostCommand (.mem (.loadHalfU a)) s = (.value (BitVec.ofNat 32 (s.halfAt a.toNat)), s)) ∧
    (0 ≤ a → a + 4 ≤ memSize →
      hostCommand (.mem (.fetchWord a)) s = (.value (BitVec.ofNat 32 (s.wordAt a.toNat)), s)) ∧
    (a < 0 ∨ memSize < a + 1 →
      hostCommand (.mem (.loadByte a)) s = (.error .memoryRange, s) ∧
      hostCommand (.mem (.loadByteU a)) s = (.error .memoryRange, s)) ∧
    (a < 0 ∨ memSize < a + 2 →
      hostCommand (.mem (.loadHalf a)) s = (.error .memoryRange, s) ∧
      hostCommand (.mem (.loadHalfU a)) s = (.error .memoryRange, s)) ∧
    (a < 0 ∨ memSize < a + 4 → hostCommand (.mem (.fetchWord a)) s = (.error .memoryRange, s))

/-- R298: run() ends with the first condition a step returns: every step before it returned Normal, and the condition is
the one in the report; it never stops otherwise than by a condition or by running out of fuel, which is the model's verdict
(the spec's own decision D18, assumption log 15). -/
def Obligations.RunEndsAtTheFirstCondition : Prop :=
  (∀ (n : Nat) (s t : State) (c : Condition), runFuel n s = .ended c t →
    ∃ k u, k < n ∧ NormalSteps k s u ∧ step u = .next t ∧ t.runState ≠ .running ∧ t.report = some c ∧
      t.runState = c.runState) ∧
  (∀ (n : Nat) (s : State), (∃ c t, runFuel n s = .ended c t) ∨
    ∃ t, runFuel n s = .outOfFuel t ∧ NormalSteps n s t)

/-- R299: a program that never raises a condition keeps run() from returning, such as a branch to itself: under any fuel
the run of a taken branch with offset 0 runs out of fuel at the same PC (the spec's own decision D18, assumption log 15). -/
def Obligations.BranchToItselfNeverEnds : Prop :=
  ∀ (n : Nat) (s : State), s.executes (.beq 0#5 0#5 0#32) →
    ∃ t, runFuel n s = .outOfFuel t ∧ t.pc = s.pc ∧ SameRegs s t ∧ SameCsrs s t ∧ SameMem s t

/-- R305, R365, R72: booting with an image that fits leaves the image's bytes from address 0, every other byte 0, every
register and CSR 0, the PC at 0 and the run state Running. How an image is loaded is the model's reading (assumption logs 4
and 9). -/
def Obligations.BootLoadsTheImageAtZero : Prop :=
  ∀ (cfg : Config) (image : List Byte), image.length ≤ cfg.memSize →
    ∃ t, boot cfg image = (.done, t) ∧ (∀ a, t.mem.readByte a = image.getD a 0#8) ∧ (∀ r, t.getReg r = 0#32) ∧
      (∀ c, t.getCsr c = 0#32) ∧ t.pc = 0#32 ∧ t.runState = .running ∧ t.report = none ∧ t.cfg = cfg

/-- R364: before the first reset a step and the register port are stuck; the memory port answers and changes the memory as
it does for a core that was reset and has the same parameters and memory; and reset() makes the core ready with the memory
as it stands, or cleared where RESET_CLEARS_MEMORY says so. That a step and the register port are stuck is the model's
reading of the spec's own decision D10 (assumption log 7). -/
def Obligations.ConstructedCoreIsStuckUntilReset : Prop :=
  ∀ (cfg : Config) (mem : Memory) (r : RegCommand) (m : MemCommand) (s : State),
    (Instance.constructed cfg mem).step = .fault .beforeReset ∧
    (Instance.constructed cfg mem).command (.reg r) = .fault .beforeReset ∧
    (Instance.constructed cfg mem).command (.mem m) =
      .next ((memPort cfg.memSize m mem).1, .constructed cfg (memPort cfg.memSize m mem).2) ∧
    (Instance.constructed s.cfg s.mem).command (.mem m) =
      .next ((hostCommand (.mem m) s).1, .constructed s.cfg (hostCommand (.mem m) s).2.mem) ∧
    ∃ t, (Instance.constructed cfg mem).command .reset = .next (.done, .ready t) ∧ t.cfg = cfg ∧ t.pc = 0#32 ∧
      t.runState = .running ∧ t.report = none ∧ (∀ x, t.getReg x = 0#32) ∧ (∀ c, t.getCsr c = 0#32) ∧
      ∀ a, t.mem.readByte a = if cfg.resetClearsMemory then 0#8 else mem.readByte a

/-- R128: the expansion of `li rd, v` is made of well-formed instructions and leaves v in rd, for every v and every rd but
x0, moving the PC past its words, and changes no other register. The expansion is the spec's own decision D23 (assumption
log 12). -/
def Obligations.LoadImmediateBuildsTheConstant : Prop :=
  ∀ (s : State) (rd : Reg) (v : Word), rd ≠ 0#5 →
    (∀ i ∈ expandLi rd v, i.wf = true) ∧
    ∃ t, execAll (expandLi rd v) s = .next t ∧ WritesReg s t rd v ∧
      t.pc = s.pc + BitVec.ofNat 32 (4 * (expandLi rd v).length) ∧ SameCsrs s t ∧ SameMem s t ∧ SameControl s t

/-- R127, R128: the expansion of `call off` is made of well-formed instructions, leaves the address after it in ra, and
jumps to pc + off with bit 0 cleared, for every offset. The expansion is the spec's own decision D23 (assumption log 12). -/
def Obligations.CallJumpsRelativeToItsOwnPc : Prop :=
  ∀ (s : State) (off : Word),
    (∀ i ∈ Pseudo.expand (.call off), i.wf = true) ∧
    ∃ t, execAll (Pseudo.expand (.call off)) s = .next t ∧ WritesReg s t 1#5 (s.pc + 8#32) ∧
      t.pc = BitVec.ofNat 32 ((s.pc + off).toNat / 2 * 2) ∧ SameCsrs s t ∧ SameMem s t ∧ SameControl s t

/-- R302 (the PC operations and the register file's own reset): getPC returns the PC; setPC sets it to any 32-bit value;
incrementPC adds 4 modulo 2^32; reset() zeroes every GPR, the PC and every CSR. None fails, and each changes nothing else;
that the register file's reset leaves the run state and the report is the model's reading (assumption log 18). -/
def Obligations.HostPcPortAndRegisterFileReset : Prop :=
  ∀ (s : State) (v : Word),
    hostCommand (.reg .getPc) s = (.value s.pc, s) ∧
    (∃ t, hostCommand (.reg (.setPc v)) s = (.done, t) ∧ t.pc = v ∧ SameRegs s t ∧ SameCsrs s t ∧ SameMem s t ∧
      SameControl s t) ∧
    (∃ t, hostCommand (.reg .incrementPc) s = (.done, t) ∧ t.pc = BitVec.ofNat 32 (s.pc.toNat + 4) ∧ SameRegs s t ∧
      SameCsrs s t ∧ SameMem s t ∧ SameControl s t) ∧
    ∃ t, hostCommand (.reg .resetRegisters) s = (.done, t) ∧ (∀ r, t.getReg r = 0#32) ∧ t.pc = 0#32 ∧
      (∀ c, t.getCsr c = 0#32) ∧ SameMem s t ∧ SameControl s t

/-- R61 (its reset() row), R361: the memory's own reset() zeroes every byte, whatever RESET_CLEARS_MEMORY is, never fails,
and changes nothing but the memory; then every host read in range returns 0. -/
def Obligations.HostMemoryResetZeroesEveryByte : Prop :=
  ∀ s : State, ∃ t, hostCommand (.mem .resetMemory) s = (.done, t) ∧ (∀ a, t.mem.readByte a = 0#8) ∧ t.pc = s.pc ∧
    SameRegs s t ∧ SameCsrs s t ∧ SameControl s t ∧
    ∀ a : Int, 0 ≤ a → a + 4 ≤ s.cfg.memSize → hostCommand (.mem (.fetchWord a)) t = (.value 0#32, t)
end

