-- ==== Sys2Proof/Laws/Decode.lean ====
section
/-! SUPPORT. The fields of an encoded word, the immediates of an encoded word, and the word rebuilt from its own fields. -/

namespace Sys2Proof

/-! ## The fields of an encoded word -/

@[simp] theorem opcodeOf_encR (f7 : BitVec 7) (f3 : BitVec 3) (op : BitVec 7) (rd rs1 rs2 : Reg) : opcodeOf (encR f7 f3 op rd rs1 rs2) = op := by
  apply BitVec.eq_of_getLsbD_eq
  intro i hi
  simp only [opcodeOf, encR, BitVec.getLsbD_extractLsb', BitVec.getLsbD_append]
  interval_cases i <;> simp

@[simp] theorem rdOf_encR (f7 : BitVec 7) (f3 : BitVec 3) (op : BitVec 7) (rd rs1 rs2 : Reg) : rdOf (encR f7 f3 op rd rs1 rs2) = rd := by
  apply BitVec.eq_of_getLsbD_eq
  intro i hi
  simp only [rdOf, encR, BitVec.getLsbD_extractLsb', BitVec.getLsbD_append]
  interval_cases i <;> simp

@[simp] theorem funct3Of_encR (f7 : BitVec 7) (f3 : BitVec 3) (op : BitVec 7) (rd rs1 rs2 : Reg) : funct3Of (encR f7 f3 op rd rs1 rs2) = f3 := by
  apply BitVec.eq_of_getLsbD_eq
  intro i hi
  simp only [funct3Of, encR, BitVec.getLsbD_extractLsb', BitVec.getLsbD_append]
  interval_cases i <;> simp

@[simp] theorem rs1Of_encR (f7 : BitVec 7) (f3 : BitVec 3) (op : BitVec 7) (rd rs1 rs2 : Reg) : rs1Of (encR f7 f3 op rd rs1 rs2) = rs1 := by
  apply BitVec.eq_of_getLsbD_eq
  intro i hi
  simp only [rs1Of, encR, BitVec.getLsbD_extractLsb', BitVec.getLsbD_append]
  interval_cases i <;> simp

@[simp] theorem rs2Of_encR (f7 : BitVec 7) (f3 : BitVec 3) (op : BitVec 7) (rd rs1 rs2 : Reg) : rs2Of (encR f7 f3 op rd rs1 rs2) = rs2 := by
  apply BitVec.eq_of_getLsbD_eq
  intro i hi
  simp only [rs2Of, encR, BitVec.getLsbD_extractLsb', BitVec.getLsbD_append]
  interval_cases i <;> simp

@[simp] theorem shamtOf_encR (f7 : BitVec 7) (f3 : BitVec 3) (op : BitVec 7) (rd rs1 rs2 : Reg) : shamtOf (encR f7 f3 op rd rs1 rs2) = rs2 := by
  apply BitVec.eq_of_getLsbD_eq
  intro i hi
  simp only [shamtOf, encR, BitVec.getLsbD_extractLsb', BitVec.getLsbD_append]
  interval_cases i <;> simp

@[simp] theorem funct7Of_encR (f7 : BitVec 7) (f3 : BitVec 3) (op : BitVec 7) (rd rs1 rs2 : Reg) : funct7Of (encR f7 f3 op rd rs1 rs2) = f7 := by
  apply BitVec.eq_of_getLsbD_eq
  intro i hi
  simp only [funct7Of, encR, BitVec.getLsbD_extractLsb', BitVec.getLsbD_append]
  interval_cases i <;> simp

@[simp] theorem opcodeOf_encI (f3 : BitVec 3) (op : BitVec 7) (rd rs1 : Reg) (imm : BitVec 12) : opcodeOf (encI f3 op rd rs1 imm) = op := by
  apply BitVec.eq_of_getLsbD_eq
  intro i hi
  simp only [opcodeOf, encI, BitVec.getLsbD_extractLsb', BitVec.getLsbD_append]
  interval_cases i <;> simp

@[simp] theorem rdOf_encI (f3 : BitVec 3) (op : BitVec 7) (rd rs1 : Reg) (imm : BitVec 12) : rdOf (encI f3 op rd rs1 imm) = rd := by
  apply BitVec.eq_of_getLsbD_eq
  intro i hi
  simp only [rdOf, encI, BitVec.getLsbD_extractLsb', BitVec.getLsbD_append]
  interval_cases i <;> simp

@[simp] theorem funct3Of_encI (f3 : BitVec 3) (op : BitVec 7) (rd rs1 : Reg) (imm : BitVec 12) : funct3Of (encI f3 op rd rs1 imm) = f3 := by
  apply BitVec.eq_of_getLsbD_eq
  intro i hi
  simp only [funct3Of, encI, BitVec.getLsbD_extractLsb', BitVec.getLsbD_append]
  interval_cases i <;> simp

@[simp] theorem rs1Of_encI (f3 : BitVec 3) (op : BitVec 7) (rd rs1 : Reg) (imm : BitVec 12) : rs1Of (encI f3 op rd rs1 imm) = rs1 := by
  apply BitVec.eq_of_getLsbD_eq
  intro i hi
  simp only [rs1Of, encI, BitVec.getLsbD_extractLsb', BitVec.getLsbD_append]
  interval_cases i <;> simp

@[simp] theorem zimmOf_encI (f3 : BitVec 3) (op : BitVec 7) (rd rs1 : Reg) (imm : BitVec 12) : zimmOf (encI f3 op rd rs1 imm) = rs1 := by
  apply BitVec.eq_of_getLsbD_eq
  intro i hi
  simp only [zimmOf, encI, BitVec.getLsbD_extractLsb', BitVec.getLsbD_append]
  interval_cases i <;> simp

@[simp] theorem csrOf_encI (f3 : BitVec 3) (op : BitVec 7) (rd rs1 : Reg) (imm : BitVec 12) : csrOf (encI f3 op rd rs1 imm) = imm := by
  apply BitVec.eq_of_getLsbD_eq
  intro i hi
  simp only [csrOf, encI, BitVec.getLsbD_extractLsb', BitVec.getLsbD_append]
  interval_cases i <;> simp

@[simp] theorem opcodeOf_encS (f3 : BitVec 3) (op : BitVec 7) (rs2 rs1 : Reg) (imm : Word) : opcodeOf (encS f3 op rs2 rs1 imm) = op := by
  apply BitVec.eq_of_getLsbD_eq
  intro i hi
  simp only [opcodeOf, encS, BitVec.getLsbD_extractLsb', BitVec.getLsbD_append]
  interval_cases i <;> simp

@[simp] theorem funct3Of_encS (f3 : BitVec 3) (op : BitVec 7) (rs2 rs1 : Reg) (imm : Word) : funct3Of (encS f3 op rs2 rs1 imm) = f3 := by
  apply BitVec.eq_of_getLsbD_eq
  intro i hi
  simp only [funct3Of, encS, BitVec.getLsbD_extractLsb', BitVec.getLsbD_append]
  interval_cases i <;> simp

@[simp] theorem rs1Of_encS (f3 : BitVec 3) (op : BitVec 7) (rs2 rs1 : Reg) (imm : Word) : rs1Of (encS f3 op rs2 rs1 imm) = rs1 := by
  apply BitVec.eq_of_getLsbD_eq
  intro i hi
  simp only [rs1Of, encS, BitVec.getLsbD_extractLsb', BitVec.getLsbD_append]
  interval_cases i <;> simp

@[simp] theorem rs2Of_encS (f3 : BitVec 3) (op : BitVec 7) (rs2 rs1 : Reg) (imm : Word) : rs2Of (encS f3 op rs2 rs1 imm) = rs2 := by
  apply BitVec.eq_of_getLsbD_eq
  intro i hi
  simp only [rs2Of, encS, BitVec.getLsbD_extractLsb', BitVec.getLsbD_append]
  interval_cases i <;> simp

@[simp] theorem opcodeOf_encB (f3 : BitVec 3) (op : BitVec 7) (rs1 rs2 : Reg) (off : Word) : opcodeOf (encB f3 op rs1 rs2 off) = op := by
  apply BitVec.eq_of_getLsbD_eq
  intro i hi
  simp only [opcodeOf, encB, BitVec.getLsbD_extractLsb', BitVec.getLsbD_append]
  interval_cases i <;> simp

@[simp] theorem funct3Of_encB (f3 : BitVec 3) (op : BitVec 7) (rs1 rs2 : Reg) (off : Word) : funct3Of (encB f3 op rs1 rs2 off) = f3 := by
  apply BitVec.eq_of_getLsbD_eq
  intro i hi
  simp only [funct3Of, encB, BitVec.getLsbD_extractLsb', BitVec.getLsbD_append]
  interval_cases i <;> simp

@[simp] theorem rs1Of_encB (f3 : BitVec 3) (op : BitVec 7) (rs1 rs2 : Reg) (off : Word) : rs1Of (encB f3 op rs1 rs2 off) = rs1 := by
  apply BitVec.eq_of_getLsbD_eq
  intro i hi
  simp only [rs1Of, encB, BitVec.getLsbD_extractLsb', BitVec.getLsbD_append]
  interval_cases i <;> simp

@[simp] theorem rs2Of_encB (f3 : BitVec 3) (op : BitVec 7) (rs1 rs2 : Reg) (off : Word) : rs2Of (encB f3 op rs1 rs2 off) = rs2 := by
  apply BitVec.eq_of_getLsbD_eq
  intro i hi
  simp only [rs2Of, encB, BitVec.getLsbD_extractLsb', BitVec.getLsbD_append]
  interval_cases i <;> simp

@[simp] theorem opcodeOf_encU (op : BitVec 7) (rd : Reg) (imm : Word) : opcodeOf (encU op rd imm) = op := by
  apply BitVec.eq_of_getLsbD_eq
  intro i hi
  simp only [opcodeOf, encU, BitVec.getLsbD_extractLsb', BitVec.getLsbD_append]
  interval_cases i <;> simp

@[simp] theorem rdOf_encU (op : BitVec 7) (rd : Reg) (imm : Word) : rdOf (encU op rd imm) = rd := by
  apply BitVec.eq_of_getLsbD_eq
  intro i hi
  simp only [rdOf, encU, BitVec.getLsbD_extractLsb', BitVec.getLsbD_append]
  interval_cases i <;> simp

@[simp] theorem opcodeOf_encJ (op : BitVec 7) (rd : Reg) (off : Word) : opcodeOf (encJ op rd off) = op := by
  apply BitVec.eq_of_getLsbD_eq
  intro i hi
  simp only [opcodeOf, encJ, BitVec.getLsbD_extractLsb', BitVec.getLsbD_append]
  interval_cases i <;> simp

@[simp] theorem rdOf_encJ (op : BitVec 7) (rd : Reg) (off : Word) : rdOf (encJ op rd off) = rd := by
  apply BitVec.eq_of_getLsbD_eq
  intro i hi
  simp only [rdOf, encJ, BitVec.getLsbD_extractLsb', BitVec.getLsbD_append]
  interval_cases i <;> simp

/-! ## Immediates -/

/-- A Word in the signed n-bit range is the sign extension of its low n bits. -/
theorem signExtend_low {n : Nat} (hn : 0 < n) (hn' : n ≤ 32) (v : Word) (h1 : -(2 ^ (n - 1) : Int) ≤ v.toInt)
    (h2 : v.toInt < 2 ^ (n - 1)) : (v.extractLsb' 0 n).signExtend 32 = v := by
  apply BitVec.eq_of_toInt_eq
  rw [BitVec.toInt_signExtend_of_le hn']
  have e : v.extractLsb' 0 n = v.setWidth n := BitVec.eq_of_toNat_eq (by simp)
  rw [e, BitVec.toInt_setWidth]
  have h3 : (v.toNat : Int).bmod (2 ^ n) = v.toInt.bmod (2 ^ n) := by
    rw [BitVec.toInt_eq_toNat_bmod v, Int.bmod_bmod_of_dvd]
    exact_mod_cast Nat.pow_dvd_pow 2 hn'
  rw [h3]
  obtain ⟨m, rfl⟩ : ∃ m, n = m + 1 := ⟨n - 1, by omega⟩
  simp only [Nat.add_sub_cancel] at h1 h2
  apply Int.bmod_eq_of_le
  · have : ((2 ^ (m + 1) : Nat) : Int) / 2 = 2 ^ m := by push_cast; omega
    omega
  · have : (((2 ^ (m + 1) : Nat) : Int) + 1) / 2 = 2 ^ m := by push_cast; omega
    omega

/-- An even Word has bit 0 clear. -/
theorem even_bit_zero {v : Word} (h : v.toInt % 2 = 0) : v[0] = false := by
  have h2 : v.toNat % 2 = 0 := by
    rw [BitVec.toInt_eq_toNat_cond] at h
    split at h <;> omega
  rw [← BitVec.getLsbD_eq_getElem, BitVec.getLsbD]
  simp [Nat.testBit_zero, h2]

theorem fitsImm12_iff (v : Word) : fitsImm12 v = true ↔ -2048 ≤ v.toInt ∧ v.toInt ≤ 2047 := by
  simp [fitsImm12]

theorem fitsBranch_iff (v : Word) :
    fitsBranch v = true ↔ -4096 ≤ v.toInt ∧ v.toInt ≤ 4094 ∧ v.toInt % 2 = 0 := by
  simp [fitsBranch, and_assoc]

theorem fitsJump_iff (v : Word) :
    fitsJump v = true ↔ -1048576 ≤ v.toInt ∧ v.toInt ≤ 1048574 ∧ v.toInt % 2 = 0 := by
  simp [fitsJump, and_assoc]

theorem fitsUpper_iff (v : Word) : fitsUpper v = true ↔ v.toNat % 4096 = 0 := by
  simp [fitsUpper]

theorem immI_encI_low12 (f3 : BitVec 3) (op : BitVec 7) (rd rs1 : Reg) {imm : Word} (h : fitsImm12 imm = true) :
    immI (encI f3 op rd rs1 (low12 imm)) = imm := by
  obtain ⟨h1, h2⟩ := (fitsImm12_iff imm).mp h
  have : immI (encI f3 op rd rs1 (low12 imm)) = (low12 imm).signExtend 32 := by
    show (csrOf (encI f3 op rd rs1 (low12 imm))).signExtend 32 = _
    rw [csrOf_encI]
  rw [this]
  exact signExtend_low (n := 12) (by omega) (by omega) imm (by omega) (by omega)

theorem immS_encS (f3 : BitVec 3) (op : BitVec 7) (rs2 rs1 : Reg) {imm : Word} (h : fitsImm12 imm = true) :
    immS (encS f3 op rs2 rs1 imm) = imm := by
  obtain ⟨h1, h2⟩ := (fitsImm12_iff imm).mp h
  rw [← signExtend_low (n := 12) (by omega) (by omega) imm (by omega) (by omega)]
  unfold immS
  congr 1
  apply BitVec.eq_of_getLsbD_eq
  intro i hi
  rw [signExtend_low (n := 12) (by omega) (by omega) imm (by omega) (by omega)]
  simp only [encS, BitVec.getLsbD_extractLsb', BitVec.getLsbD_append]
  interval_cases i <;> simp

theorem immB_encB (f3 : BitVec 3) (op : BitVec 7) (rs1 rs2 : Reg) {off : Word} (h : fitsBranch off = true) :
    immB (encB f3 op rs1 rs2 off) = off := by
  obtain ⟨h1, h2, h3⟩ := (fitsBranch_iff off).mp h
  have h0 := even_bit_zero h3
  refine Eq.trans ?_ (signExtend_low (n := 13) (by omega) (by omega) off (by omega) (by omega))
  unfold immB
  congr 1
  apply BitVec.eq_of_getLsbD_eq
  intro i hi
  simp only [encB, BitVec.getLsbD_extractLsb', BitVec.getLsbD_append]
  interval_cases i <;> simp [h0]

theorem immU_encU (op : BitVec 7) (rd : Reg) {imm : Word} (h : fitsUpper imm = true) : immU (encU op rd imm) = imm := by
  have h0 : ∀ i, i < 12 → imm.getLsbD i = false := by
    intro i hi
    have hm : imm.toNat % 2 ^ 12 = 0 := (fitsUpper_iff imm).mp h
    have ht : (imm.toNat % 2 ^ 12).testBit i = false := by rw [hm]; exact Nat.zero_testBit i
    rw [Nat.testBit_mod_two_pow] at ht
    simpa [hi, BitVec.getLsbD] using ht
  apply BitVec.eq_of_getLsbD_eq
  intro i hi
  simp only [immU, encU, BitVec.getLsbD_extractLsb', BitVec.getLsbD_append]
  by_cases h12 : i < 12
  · simp [h12, h0 i h12]
  · have e : 12 + (i - 12 + (12 - 7 - 5)) = i := by omega
    have : i - 12 < 20 := by omega
    interval_cases i <;> simp_all

theorem immJ_encJ (op : BitVec 7) (rd : Reg) {off : Word} (h : fitsJump off = true) : immJ (encJ op rd off) = off := by
  obtain ⟨h1, h2, h3⟩ := (fitsJump_iff off).mp h
  have h0 := even_bit_zero h3
  refine Eq.trans ?_ (signExtend_low (n := 21) (by omega) (by omega) off (by omega) (by omega))
  unfold immJ
  congr 1
  apply BitVec.eq_of_getLsbD_eq
  intro i hi
  simp only [encJ, BitVec.getLsbD_extractLsb', BitVec.getLsbD_append]
  interval_cases i <;> simp [h0]

/-! ## The range of a decoded immediate -/

theorem toInt_signExtend_bounds {n : Nat} (hn' : n ≤ 32) (x : BitVec n) :
    -(2 ^ (n - 1) : Int) ≤ (x.signExtend 32).toInt ∧ (x.signExtend 32).toInt < 2 ^ (n - 1) := by
  rw [BitVec.toInt_signExtend_of_le hn']
  exact ⟨by exact_mod_cast BitVec.le_toInt x, by exact_mod_cast BitVec.toInt_lt⟩

theorem toInt_signExtend_even {n : Nat} (hn' : n + 1 ≤ 32) (x : BitVec n) :
    ((x ++ 0#1).signExtend 32).toInt % 2 = 0 := by
  rw [BitVec.toInt_signExtend_of_le hn', BitVec.toInt_eq_toNat_cond]
  have h : (x ++ 0#1).toNat = 2 * x.toNat := by
    simp [BitVec.toNat_append, Nat.shiftLeft_eq, Nat.mul_comm]
  have h2 : (2 : Int) ^ (n + 1) = 2 * 2 ^ n := by ring
  split <;> rw [h] <;> push_cast <;> omega

theorem fitsImm12_immI (w : Word) : fitsImm12 (immI w) = true := by
  have := toInt_signExtend_bounds (n := 12) (by omega) (w.extractLsb' 20 12)
  rw [fitsImm12_iff]
  unfold immI
  omega

theorem fitsImm12_immS (w : Word) : fitsImm12 (immS w) = true := by
  have := toInt_signExtend_bounds (n := 12) (by omega) (w.extractLsb' 25 7 ++ w.extractLsb' 7 5)
  rw [fitsImm12_iff]
  unfold immS
  omega

theorem fitsBranch_immB (w : Word) : fitsBranch (immB w) = true := by
  have h1 := toInt_signExtend_bounds (n := 13) (by omega)
    (w.extractLsb' 31 1 ++ w.extractLsb' 7 1 ++ w.extractLsb' 25 6 ++ w.extractLsb' 8 4 ++ 0#1)
  have h2 := toInt_signExtend_even (n := 12) (by omega)
    (w.extractLsb' 31 1 ++ w.extractLsb' 7 1 ++ w.extractLsb' 25 6 ++ w.extractLsb' 8 4)
  rw [fitsBranch_iff]
  unfold immB
  omega

theorem fitsJump_immJ (w : Word) : fitsJump (immJ w) = true := by
  have h1 := toInt_signExtend_bounds (n := 21) (by omega)
    (w.extractLsb' 31 1 ++ w.extractLsb' 12 8 ++ w.extractLsb' 20 1 ++ w.extractLsb' 21 10 ++ 0#1)
  have h2 := toInt_signExtend_even (n := 20) (by omega)
    (w.extractLsb' 31 1 ++ w.extractLsb' 12 8 ++ w.extractLsb' 20 1 ++ w.extractLsb' 21 10)
  rw [fitsJump_iff]
  unfold immJ
  omega

theorem fitsUpper_immU (w : Word) : fitsUpper (immU w) = true := by
  rw [fitsUpper_iff]
  have h : (immU w).toNat = (w.extractLsb' 12 20).toNat * 4096 := by
    unfold immU
    rw [BitVec.toNat_append, Nat.shiftLeft_eq]
    simp
  omega

/-! ## The word rebuilt from its own fields -/

theorem low12_immI (w : Word) : low12 (immI w) = csrOf w := by
  apply BitVec.eq_of_getLsbD_eq
  intro i hi
  simp only [low12, immI, csrOf, BitVec.getLsbD_extractLsb', BitVec.getLsbD_signExtend]
  interval_cases i <;> simp

theorem encR_fields (w : Word) : encR (funct7Of w) (funct3Of w) (opcodeOf w) (rdOf w) (rs1Of w) (rs2Of w) = w := by
  apply BitVec.eq_of_getLsbD_eq
  intro i hi
  simp only [encR, funct7Of, funct3Of, opcodeOf, rdOf, rs1Of, rs2Of, BitVec.getLsbD_extractLsb', BitVec.getLsbD_append]
  interval_cases i <;> simp

theorem encI_fields (w : Word) : encI (funct3Of w) (opcodeOf w) (rdOf w) (rs1Of w) (csrOf w) = w := by
  apply BitVec.eq_of_getLsbD_eq
  intro i hi
  simp only [encI, funct3Of, opcodeOf, rdOf, rs1Of, csrOf, BitVec.getLsbD_extractLsb', BitVec.getLsbD_append]
  interval_cases i <;> simp

theorem encS_fields (w : Word) : encS (funct3Of w) (opcodeOf w) (rs2Of w) (rs1Of w) (immS w) = w := by
  apply BitVec.eq_of_getLsbD_eq
  intro i hi
  simp only [encS, funct3Of, opcodeOf, rs1Of, rs2Of, immS, BitVec.getLsbD_signExtend, BitVec.getLsbD_extractLsb', BitVec.getLsbD_append]
  interval_cases i <;> simp

theorem encB_fields (w : Word) : encB (funct3Of w) (opcodeOf w) (rs1Of w) (rs2Of w) (immB w) = w := by
  apply BitVec.eq_of_getLsbD_eq
  intro i hi
  simp only [encB, funct3Of, opcodeOf, rs1Of, rs2Of, immB, BitVec.getLsbD_signExtend, BitVec.getLsbD_extractLsb', BitVec.getLsbD_append]
  interval_cases i <;> simp

theorem encU_fields (w : Word) : encU (opcodeOf w) (rdOf w) (immU w) = w := by
  apply BitVec.eq_of_getLsbD_eq
  intro i hi
  simp only [encU, opcodeOf, rdOf, immU, BitVec.getLsbD_extractLsb', BitVec.getLsbD_append]
  interval_cases i <;> simp

theorem encJ_fields (w : Word) : encJ (opcodeOf w) (rdOf w) (immJ w) = w := by
  apply BitVec.eq_of_getLsbD_eq
  intro i hi
  simp only [encJ, opcodeOf, rdOf, immJ, BitVec.getLsbD_signExtend, BitVec.getLsbD_extractLsb', BitVec.getLsbD_append]
  interval_cases i <;> simp

end Sys2Proof
end

