-- ==== Sys2Proof/Laws/Assembler.lean ====
section
/-! SUPPORT. The two halves of a constant fit the instructions that build it (30_encoding.md R128). -/

namespace Sys2Proof.Machine

theorem fitsImm12_lo12 (v : Word) : fitsImm12 (lo12 v) = true := by
  have := toInt_signExtend_bounds (n := 12) (by omega) (v.extractLsb' 0 12)
  rw [fitsImm12_iff]
  unfold lo12
  omega

theorem fitsUpper_hi20 (v : Word) : fitsUpper (hi20 v) = true := by
  rw [fitsUpper_iff]
  have e : v.extractLsb' 0 12 = v.setWidth 12 := BitVec.eq_of_toNat_eq (by simp)
  have h1 : (lo12 v).toInt = (v.toNat : Int).bmod 4096 := by
    unfold lo12; rw [BitVec.toInt_signExtend_of_le (by decide), e, BitVec.toInt_setWidth]
  have h2 : (lo12 v).toNat % 4096 = v.toNat % 4096 := by
    rw [BitVec.toInt_eq_toNat_cond] at h1
    have := v.isLt; have := (lo12 v).isLt
    rw [Int.bmod_def] at h1; split at h1 <;> split at h1 <;> omega
  unfold hi20; rw [BitVec.toNat_sub]; have := v.isLt; have := (lo12 v).isLt
  omega

theorem hi20_add_lo12 (v : Word) : hi20 v + lo12 v = v := by simp [hi20]

end Sys2Proof.Machine
end

