-- ==== Sys2Proof/Laws/Cells.lean ====
section
/-! SUPPORT. The laws of the sparse cells: read after write, and the canonical form. -/

namespace Sys2Proof.Machine

variable {n : Nat}

theorem Cells.read_place_other (l : List (Nat × BitVec n)) {a b : Nat} (v : BitVec n) (h : b ≠ a) :
    Cells.read (Cells.place l a v) b = Cells.read l b := by
  induction l with
  | nil => simp [Cells.place, Cells.read, h.symm]
  | cons c rest ih =>
    obtain ⟨k, x⟩ := c
    by_cases hk : a < k
    · simp [Cells.place, Cells.read, hk, h.symm]
    · simp [Cells.place, Cells.read, hk, ih]

theorem Cells.read_place_same (l : List (Nat × BitVec n)) (a : Nat) (v : BitVec n) (h : ∀ c ∈ l, c.1 ≠ a) :
    Cells.read (Cells.place l a v) a = v := by
  induction l with
  | nil => simp [Cells.place, Cells.read]
  | cons c rest ih =>
    obtain ⟨k, x⟩ := c
    have hka : k ≠ a := h (k, x) (by simp)
    by_cases hk : a < k
    · simp [Cells.place, Cells.read, hk]
    · simp [Cells.place, Cells.read, hk, hka, ih (fun c hc => h c (by simp [hc]))]

theorem Cells.read_drop_same (l : List (Nat × BitVec n)) (a : Nat) :
    Cells.read (l.filter (fun c => c.1 != a)) a = 0#n := by
  induction l with
  | nil => rfl
  | cons c rest ih =>
    obtain ⟨k, x⟩ := c
    by_cases hk : k = a
    · simpa [hk] using ih
    · simpa [hk, Cells.read] using ih

theorem Cells.read_drop_other (l : List (Nat × BitVec n)) {a b : Nat} (h : b ≠ a) :
    Cells.read (l.filter (fun c => c.1 != a)) b = Cells.read l b := by
  induction l with
  | nil => rfl
  | cons c rest ih =>
    obtain ⟨k, x⟩ := c
    by_cases hk : k = a
    · have hkb : a ≠ b := h.symm
      simpa [hk, hkb, Cells.read] using ih
    · simp [hk, Cells.read, ih]

/-- Read after write: the key written reads the value, every other key as before. -/
theorem Cells.read_write (l : List (Nat × BitVec n)) (a b : Nat) (v : BitVec n) :
    Cells.read (Cells.write l a v) b = if b = a then v else Cells.read l b := by
  have hout : ∀ c ∈ l.filter (fun c => c.1 != a), c.1 ≠ a := by simp
  unfold Cells.write
  by_cases hv : v = 0#n <;> by_cases hb : b = a
  · subst hb; simp [hv, Cells.read_drop_same]
  · simp [hv, hb, Cells.read_drop_other l hb]
  · subst hb; simp [hv, Cells.read_place_same _ _ _ hout]
  · simp [hv, hb, Cells.read_place_other _ _ hb, Cells.read_drop_other l hb]

@[simp] theorem Cells.read_nil (a : Nat) : Cells.read ([] : List (Nat × BitVec n)) a = 0#n := rfl

theorem Cells.mem_place (l : List (Nat × BitVec n)) (a : Nat) (v : BitVec n) (c : Nat × BitVec n) :
    c ∈ Cells.place l a v ↔ c = (a, v) ∨ c ∈ l := by
  induction l with
  | nil => simp [Cells.place]
  | cons d rest ih =>
    obtain ⟨k, x⟩ := d
    by_cases hk : a < k
    · simp [Cells.place, hk]
    · simp only [Cells.place, hk, if_false, List.mem_cons, ih]
      tauto

/-- A write lists no key but the one written and those listed before. -/
theorem Cells.mem_write {l : List (Nat × BitVec n)} {a : Nat} {v : BitVec n} {c : Nat × BitVec n}
    (h : c ∈ Cells.write l a v) : c.1 = a ∨ c ∈ l := by
  unfold Cells.write at h
  by_cases hv : v = 0#n
  · simp [hv] at h; exact .inr h.1
  · simp only [hv, if_false, Cells.mem_place, List.mem_filter] at h
    rcases h with rfl | h
    · exact .inl rfl
    · exact .inr h.1

theorem Cells.canonical_iff (l : List (Nat × BitVec n)) :
    Cells.canonical l = true ↔ l.Pairwise (fun c d => c.1 < d.1) ∧ ∀ c ∈ l, c.2 ≠ 0#n := by
  simp [Cells.canonical]

theorem Cells.place_sorted {l : List (Nat × BitVec n)} {a : Nat} (v : BitVec n)
    (h : l.Pairwise (fun c d => c.1 < d.1)) (ha : ∀ c ∈ l, c.1 ≠ a) :
    (Cells.place l a v).Pairwise (fun c d => c.1 < d.1) := by
  induction l with
  | nil => simp [Cells.place]
  | cons d rest ih =>
    obtain ⟨k, x⟩ := d
    have hka : k ≠ a := ha (k, x) (by simp)
    obtain ⟨hhead, htail⟩ := List.pairwise_cons.mp h
    by_cases hk : a < k
    · simp only [Cells.place, hk, if_true, List.pairwise_cons]
      refine ⟨fun c hc => ?_, hhead, htail⟩
      rcases List.mem_cons.mp hc with rfl | hc
      · exact hk
      · exact lt_trans hk (hhead c hc)
    · simp only [Cells.place, hk, if_false, List.pairwise_cons]
      refine ⟨fun c hc => ?_, ih htail (fun c hc => ha c (by simp [hc]))⟩
      rcases (Cells.mem_place rest a v c).mp hc with rfl | hc
      · show k < a; omega
      · exact hhead c hc

/-- A write keeps the canonical form. -/
theorem Cells.write_canonical {l : List (Nat × BitVec n)} (a : Nat) (v : BitVec n) (h : Cells.canonical l = true) :
    Cells.canonical (Cells.write l a v) = true := by
  obtain ⟨hs, hz⟩ := (Cells.canonical_iff l).mp h
  have hs' : (l.filter (fun c => c.1 != a)).Pairwise (fun c d => c.1 < d.1) := hs.filter _
  rw [Cells.canonical_iff]
  unfold Cells.write
  by_cases hv : v = 0#n
  · simp only [hv, if_true]
    exact ⟨hs', fun c hc => hz c (List.mem_filter.mp hc).1⟩
  · simp only [hv, if_false]
    refine ⟨Cells.place_sorted v hs' (by simp), fun c hc => ?_⟩
    rcases (Cells.mem_place _ _ _ _).mp hc with rfl | hc
    · exact hv
    · exact hz c (List.mem_filter.mp hc).1

theorem Cells.read_of_lt {l : List (Nat × BitVec n)} {a : Nat} (h : ∀ c ∈ l, a < c.1) : Cells.read l a = 0#n := by
  induction l with
  | nil => rfl
  | cons d rest ih =>
    obtain ⟨k, x⟩ := d
    have hk : a < k := h (k, x) (by simp)
    have hne : k ≠ a := by omega
    simp [Cells.read, hne, ih (fun c hc => h c (by simp [hc]))]

/-- Canonical lists that read the same everywhere are equal: equal memories are equal data. -/
theorem Cells.canonical_ext {l m : List (Nat × BitVec n)} (hl : Cells.canonical l = true)
    (hm : Cells.canonical m = true) (h : ∀ a, Cells.read l a = Cells.read m a) : l = m := by
  rw [Cells.canonical_iff] at hl hm
  induction l generalizing m with
  | nil =>
    cases m with
    | nil => rfl
    | cons d rest =>
      obtain ⟨k, x⟩ := d
      have := h k
      simp [Cells.read] at this
      exact absurd this.symm (hm.2 (k, x) (by simp))
  | cons c rest ih =>
    obtain ⟨k, x⟩ := c
    obtain ⟨⟨hck, hcs⟩, hcz⟩ := And.imp_left List.pairwise_cons.mp hl
    have hx : x ≠ 0#n := hcz (k, x) (by simp)
    cases m with
    | nil =>
      have := h k
      simp [Cells.read] at this
      exact absurd this hx
    | cons d rest' =>
      obtain ⟨j, y⟩ := d
      obtain ⟨⟨hdk, hds⟩, hdz⟩ := And.imp_left List.pairwise_cons.mp hm
      have hy : y ≠ 0#n := hdz (j, y) (by simp)
      have hkj : k = j := by
        rcases lt_trichotomy k j with hlt | heq | hgt
        · have := h k
          rw [Cells.read_of_lt (l := (j, y) :: rest') (a := k)] at this
          · simp [Cells.read] at this; exact absurd this hx
          · intro c hc
            rcases List.mem_cons.mp hc with rfl | hc
            · exact hlt
            · exact lt_trans hlt (hdk c hc)
        · exact heq
        · have := h j
          rw [Cells.read_of_lt (l := (k, x) :: rest) (a := j)] at this
          · simp [Cells.read] at this; exact absurd this.symm hy
          · intro c hc
            rcases List.mem_cons.mp hc with rfl | hc
            · exact hgt
            · exact lt_trans hgt (hck c hc)
      subst hkj
      have hxy : x = y := by simpa [Cells.read] using h k
      subst hxy
      have : rest = rest' := by
        refine ih ⟨hcs, fun c hc => hcz c (by simp [hc])⟩ ⟨hds, fun c hc => hdz c (by simp [hc])⟩ (fun a => ?_)
        by_cases hak : k = a
        · subst hak
          rw [Cells.read_of_lt hck, Cells.read_of_lt hdk]
        · simpa [Cells.read, hak] using h a
      rw [this]

end Sys2Proof.Machine
end

