-- ==== Sys2Proof/Laws/State.lean ====
section
/-! SUPPORT. One lemma per field per update of State, and what the accessors read after each update. -/

namespace Sys2Proof.Machine

variable (s : State)

@[simp] theorem State.advance_cfg : (s.advance).cfg = s.cfg := rfl
@[simp] theorem State.advance_regs : (s.advance).regs = s.regs := rfl
@[simp] theorem State.advance_pc : (s.advance).pc = s.pc + 4#32 := rfl
@[simp] theorem State.advance_csrs : (s.advance).csrs = s.csrs := rfl
@[simp] theorem State.advance_mem : (s.advance).mem = s.mem := rfl
@[simp] theorem State.advance_runState : (s.advance).runState = s.runState := rfl
@[simp] theorem State.advance_report : (s.advance).report = s.report := rfl

@[simp] theorem State.jump_cfg (t : Word) : (s.jump t).cfg = s.cfg := rfl
@[simp] theorem State.jump_regs (t : Word) : (s.jump t).regs = s.regs := rfl
@[simp] theorem State.jump_pc (t : Word) : (s.jump t).pc = t := rfl
@[simp] theorem State.jump_csrs (t : Word) : (s.jump t).csrs = s.csrs := rfl
@[simp] theorem State.jump_mem (t : Word) : (s.jump t).mem = s.mem := rfl
@[simp] theorem State.jump_runState (t : Word) : (s.jump t).runState = s.runState := rfl
@[simp] theorem State.jump_report (t : Word) : (s.jump t).report = s.report := rfl

@[simp] theorem State.resumeAt_cfg (t : Word) : (s.resumeAt t).cfg = s.cfg := rfl
@[simp] theorem State.resumeAt_regs (t : Word) : (s.resumeAt t).regs = s.regs := rfl
@[simp] theorem State.resumeAt_pc (t : Word) : (s.resumeAt t).pc = t := rfl
@[simp] theorem State.resumeAt_csrs (t : Word) : (s.resumeAt t).csrs = s.csrs := rfl
@[simp] theorem State.resumeAt_mem (t : Word) : (s.resumeAt t).mem = s.mem := rfl
@[simp] theorem State.resumeAt_runState (t : Word) : (s.resumeAt t).runState = s.runState := rfl
@[simp] theorem State.resumeAt_report (t : Word) : (s.resumeAt t).report = s.report := rfl

@[simp] theorem State.raise_cfg (c : Condition) : (s.raise c).cfg = s.cfg := rfl
@[simp] theorem State.raise_regs (c : Condition) : (s.raise c).regs = s.regs := rfl
@[simp] theorem State.raise_pc (c : Condition) : (s.raise c).pc = s.pc := rfl
@[simp] theorem State.raise_csrs (c : Condition) : (s.raise c).csrs = s.csrs := rfl
@[simp] theorem State.raise_mem (c : Condition) : (s.raise c).mem = s.mem := rfl
@[simp] theorem State.raise_runState (c : Condition) : (s.raise c).runState = c.runState := rfl
@[simp] theorem State.raise_report (c : Condition) : (s.raise c).report = some c := rfl

@[simp] theorem State.begun_cfg : (s.begun).cfg = s.cfg := rfl
@[simp] theorem State.begun_regs : (s.begun).regs = s.regs := rfl
@[simp] theorem State.begun_pc : (s.begun).pc = s.pc := rfl
@[simp] theorem State.begun_csrs : (s.begun).csrs = s.csrs := rfl
@[simp] theorem State.begun_mem : (s.begun).mem = s.mem := rfl
@[simp] theorem State.begun_runState : (s.begun).runState = .running := rfl
@[simp] theorem State.begun_report : (s.begun).report = s.report := rfl

@[simp] theorem State.setCsr_cfg (c : CsrAddr) (v : Word) : (s.setCsr c v).cfg = s.cfg := rfl
@[simp] theorem State.setCsr_regs (c : CsrAddr) (v : Word) : (s.setCsr c v).regs = s.regs := rfl
@[simp] theorem State.setCsr_pc (c : CsrAddr) (v : Word) : (s.setCsr c v).pc = s.pc := rfl
@[simp] theorem State.setCsr_csrs (c : CsrAddr) (v : Word) : (s.setCsr c v).csrs = Cells.write s.csrs c.toNat v := rfl
@[simp] theorem State.setCsr_mem (c : CsrAddr) (v : Word) : (s.setCsr c v).mem = s.mem := rfl
@[simp] theorem State.setCsr_runState (c : CsrAddr) (v : Word) : (s.setCsr c v).runState = s.runState := rfl
@[simp] theorem State.setCsr_report (c : CsrAddr) (v : Word) : (s.setCsr c v).report = s.report := rfl

@[simp] theorem State.setReg_cfg (r : Reg) (v : Word) : (s.setReg r v).cfg = s.cfg := by unfold State.setReg; split <;> rfl
@[simp] theorem State.setReg_pc (r : Reg) (v : Word) : (s.setReg r v).pc = s.pc := by unfold State.setReg; split <;> rfl
@[simp] theorem State.setReg_csrs (r : Reg) (v : Word) : (s.setReg r v).csrs = s.csrs := by unfold State.setReg; split <;> rfl
@[simp] theorem State.setReg_mem (r : Reg) (v : Word) : (s.setReg r v).mem = s.mem := by unfold State.setReg; split <;> rfl
@[simp] theorem State.setReg_runState (r : Reg) (v : Word) : (s.setReg r v).runState = s.runState := by unfold State.setReg; split <;> rfl
@[simp] theorem State.setReg_report (r : Reg) (v : Word) : (s.setReg r v).report = s.report := by unfold State.setReg; split <;> rfl

/-! What the accessors read after each update. -/

@[simp] theorem State.getReg_zero : s.getReg 0#5 = 0#32 := by simp [State.getReg]

/-- Two states with the same register file read the same registers. -/
theorem State.getReg_congr {s t : State} (h : t.regs = s.regs) (r : Reg) : t.getReg r = s.getReg r := by
  simp [State.getReg, h]

theorem State.getCsr_congr {s t : State} (h : t.csrs = s.csrs) (c : CsrAddr) : t.getCsr c = s.getCsr c := by
  simp [State.getCsr, h]

/-- x[i] after x[rd] <- v: v at rd unless rd is x0, every other register as before. -/
theorem State.getReg_setReg (rd r : Reg) (v : Word) :
    (s.setReg rd v).getReg r = if r = rd ∧ rd ≠ 0#5 then v else s.getReg r := by
  unfold State.setReg State.getReg
  by_cases h0 : rd = 0#5
  · simp [h0]
  · by_cases hr : r = rd
    · subst hr; simp [h0]
    · have hne : rd.toNat ≠ r.toNat := fun h => hr (BitVec.eq_of_toNat_eq h.symm)
      simp [h0, hr, hne]

@[simp] theorem State.getReg_advance (r : Reg) : s.advance.getReg r = s.getReg r := rfl
@[simp] theorem State.getReg_jump (t : Word) (r : Reg) : (s.jump t).getReg r = s.getReg r := rfl
@[simp] theorem State.getReg_raise (c : Condition) (r : Reg) : (s.raise c).getReg r = s.getReg r := rfl
@[simp] theorem State.getReg_begun (r : Reg) : s.begun.getReg r = s.getReg r := rfl
@[simp] theorem State.getReg_setCsr (c : CsrAddr) (v : Word) (r : Reg) : (s.setCsr c v).getReg r = s.getReg r := rfl

/-- CSR[c] after CSR[d] <- v. -/
theorem State.getCsr_setCsr (d c : CsrAddr) (v : Word) :
    (s.setCsr d v).getCsr c = if c = d then v else s.getCsr c := by
  simp [State.getCsr, State.setCsr, Cells.read_write, ← BitVec.toNat_inj]

@[simp] theorem State.getCsr_setReg (r : Reg) (v : Word) (c : CsrAddr) : (s.setReg r v).getCsr c = s.getCsr c := by
  simp [State.getCsr]

@[simp] theorem State.getCsr_advance (c : CsrAddr) : s.advance.getCsr c = s.getCsr c := rfl
@[simp] theorem State.getCsr_jump (t : Word) (c : CsrAddr) : (s.jump t).getCsr c = s.getCsr c := rfl
@[simp] theorem State.getCsr_raise (d : Condition) (c : CsrAddr) : (s.raise d).getCsr c = s.getCsr c := rfl
@[simp] theorem State.getCsr_begun (c : CsrAddr) : s.begun.getCsr c = s.getCsr c := rfl

end Sys2Proof.Machine
end

