-- ==== Sys2Proof/Laws/Memory.lean ====
section
/-! SUPPORT. The laws of memory: the range check on plain numbers, what MemRead and MemWrite answer, read after write, and
the canonical form. -/

namespace Sys2Proof.Machine

/-! ## Bytes -/

theorem Memory.readByte_writeByte (m : Memory) (a b : Nat) (v : Byte) :
    (m.writeByte a v).readByte b = if b = a then v else m.readByte b :=
  Cells.read_write m a b v

/-- What one byte reads as after a write of any width. -/
theorem Memory.readByte_writeWidth (m : Memory) (a : Nat) (w : Width) (v : Word) (b : Nat) :
    (m.writeWidth a w v).readByte b =
      if a ≤ b ∧ b < a + w.bytes then byteOf v (b - a) else m.readByte b := by
  by_cases hin : a ≤ b ∧ b < a + w.bytes
  · rw [if_pos hin]
    obtain ⟨k, rfl⟩ := Nat.exists_eq_add_of_le hin.1
    rw [Nat.add_sub_cancel_left]
    have hk : k < w.bytes := by omega
    cases w <;> simp only [Memory.writeWidth, Memory.readByte_writeByte, Width.bytes] at hk ⊢
    · obtain rfl : k = 0 := by omega
      simp
    · obtain rfl | rfl : k = 0 ∨ k = 1 := by omega
      all_goals simp
    · obtain rfl | rfl | rfl | rfl : k = 0 ∨ k = 1 ∨ k = 2 ∨ k = 3 := by omega
      all_goals simp
  · rw [if_neg hin]
    cases w <;> simp only [Memory.writeWidth, Memory.readByte_writeByte, Width.bytes] at hin ⊢
    · rw [if_neg (by omega)]
    · rw [if_neg (by omega), if_neg (by omega)]
    · rw [if_neg (by omega), if_neg (by omega), if_neg (by omega), if_neg (by omega)]

/-- A byte of a Word as a number. -/
theorem byteOf_toNat (v : Word) (k : Nat) : (byteOf v k).toNat = v.toNat / 256 ^ k % 256 := by
  have : (256 : Nat) ^ k = 2 ^ (8 * k) := by rw [pow_mul]; rfl
  simp [byteOf, BitVec.extractLsb'_toNat, Nat.shiftRight_eq_div_pow, this]

/-- Two memories that read the same bytes read the same values at every width. -/
theorem Memory.readWidth_congr {m m' : Memory} {a : Nat} (w : Width)
    (h : ∀ k, k < w.bytes → m'.readByte (a + k) = m.readByte (a + k)) : m'.readWidth a w = m.readWidth a w := by
  cases w <;> simp only [Memory.readWidth, Width.bytes] at *
  · simpa using h 0 (by omega)
  · have h0 := h 0 (by omega)
    have h1 := h 1 (by omega)
    simp only [Nat.add_zero] at h0
    simp [h0, h1]
  · have h0 := h 0 (by omega)
    have h1 := h 1 (by omega)
    have h2 := h 2 (by omega)
    have h3 := h 3 (by omega)
    simp only [Nat.add_zero] at h0
    simp [h0, h1, h2, h3]

/-- Read after write at the same address and width gives the low bits of the value (20_memory.md R81). -/
theorem Memory.readWidth_writeWidth (m : Memory) (a : Nat) (w : Width) (v : Word) :
    (m.writeWidth a w v).readWidth a w = v.extractLsb' 0 w.bits := by
  have hb : ∀ k, k < w.bytes → (m.writeWidth a w v).readByte (a + k) = byteOf v k := by
    intro k hk
    rw [Memory.readByte_writeWidth, if_pos ⟨by omega, by omega⟩, Nat.add_sub_cancel_left]
  cases w <;> simp only [Memory.readWidth, Width.bytes] at *
  · have h0 := hb 0 (by omega)
    simpa [byteOf] using h0
  · have h0 := hb 0 (by omega)
    have h1 := hb 1 (by omega)
    simp only [Nat.add_zero] at h0
    rw [h0, h1]
    apply BitVec.eq_of_getLsbD_eq
    intro i hi
    simp only [byteOf, BitVec.getLsbD_append, BitVec.getLsbD_extractLsb', Nat.mul_one, Nat.mul_zero, Nat.zero_add]
    by_cases h8 : i < 8
    · have : i < 16 := by omega
      simp [h8, this]
    · have h16 : i < 16 := by simpa using hi
      have e : 8 + (i - 8) = i := by omega
      have : i - 8 < 8 := by omega
      simp [h8, h16, this, e]
  · have h0 := hb 0 (by omega)
    have h1 := hb 1 (by omega)
    have h2 := hb 2 (by omega)
    have h3 := hb 3 (by omega)
    simp only [Nat.add_zero] at h0
    rw [h0, h1, h2, h3]
    apply BitVec.eq_of_getLsbD_eq
    intro i hi
    have h32 : i < 32 := by simpa using hi
    simp only [byteOf, BitVec.getLsbD_append, BitVec.getLsbD_extractLsb', Nat.mul_zero, Nat.zero_add]
    by_cases c0 : i < 8
    · simp [c0, h32]
    by_cases c1 : i < 16
    · have e : 8 * 1 + (i - 8) = i := by omega
      have l : i - 8 < 8 := by omega
      simp [c0, h32, l, e]
    by_cases c2 : i < 24
    · have e : 8 * 2 + (i - 8 - 8) = i := by omega
      have l : i - 8 - 8 < 8 := by omega
      have l' : ¬ (i - 8 < 8) := by omega
      simp [c0, h32, l, l', e]
    · have e : 8 * 3 + (i - 8 - 8 - 8) = i := by omega
      have l : i - 8 - 8 - 8 < 8 := by omega
      have l' : ¬ (i - 8 < 8) := by omega
      have l'' : ¬ (i - 8 - 8 < 8) := by omega
      simp [c0, h32, l, l', l'', e]

/-! ## The canonical form -/

theorem Memory.writeByte_wf {m : Memory} (a : Nat) (v : Byte) (h : Memory.wf m = true) :
    Memory.wf (m.writeByte a v) = true :=
  Cells.write_canonical a v h

theorem Memory.writeWidth_wf {m : Memory} (a : Nat) (w : Width) (v : Word) (h : Memory.wf m = true) :
    Memory.wf (m.writeWidth a w v) = true := by
  cases w <;> simp only [Memory.writeWidth] <;> repeat' apply Memory.writeByte_wf
  all_goals exact h

/-- A write lists no address but those it writes and those listed before. -/
theorem Memory.mem_writeWidth {m : Memory} {a : Nat} {w : Width} {v : Word} {c : Host.Cell}
    (h : c ∈ m.writeWidth a w v) : (a ≤ c.1 ∧ c.1 < a + w.bytes) ∨ c ∈ m := by
  have step : ∀ {m : Memory} {k : Nat} {b : Byte}, c ∈ m.writeByte k b → c.1 = k ∨ c ∈ m := Cells.mem_write
  cases w <;> simp only [Memory.writeWidth, Width.bytes] at *
  · rcases step h with h | h
    · left; omega
    · exact .inr h
  · rcases step h with h | h
    · left; omega
    rcases step h with h | h
    · left; omega
    · exact .inr h
  · rcases step h with h | h
    · left; omega
    rcases step h with h | h
    · left; omega
    rcases step h with h | h
    · left; omega
    rcases step h with h | h
    · left; omega
    · exact .inr h

theorem Memory.ext {m m' : Memory} (h : Memory.wf m = true) (h' : Memory.wf m' = true)
    (hr : ∀ a, m.readByte a = m'.readByte a) : m = m' :=
  Cells.canonical_ext h h' hr

/-! ## The range check -/

theorem inRange_iff (memSize : Nat) (addr : Word) (w : Width) :
    inRange memSize addr w = true ↔ 0 ≤ addr.toInt ∧ addr.toInt + w.bytes ≤ memSize := by
  simp [inRange]

theorem toInt_eq_toNat_of_nonneg {a : Word} (h : 0 ≤ a.toInt) : a.toInt = a.toNat := by
  rw [BitVec.toInt_eq_toNat_cond] at h ⊢
  split
  · rfl
  · rename_i hn
    rw [if_neg hn] at h
    have := a.isLt
    omega

/-- The check on the address as a natural number. -/
theorem inRange_iff_toNat (memSize : Nat) (addr : Word) (w : Width) :
    inRange memSize addr w = true ↔ addr.toNat < 2 ^ 31 ∧ addr.toNat + w.bytes ≤ memSize := by
  rw [inRange_iff, BitVec.toInt_eq_toNat_cond]
  have := addr.isLt
  split <;> omega

/-! ## MemRead and MemWrite -/

theorem State.memRead_of_inRange {s : State} {addr : Word} {w : Width} (h : inRange s.cfg.memSize addr w = true) :
    s.memRead addr w = some (s.mem.readWidth addr.toNat w) := by
  simp [State.memRead, h]

theorem State.memRead_of_not_inRange {s : State} {addr : Word} {w : Width} (h : inRange s.cfg.memSize addr w = false) :
    s.memRead addr w = none := by
  simp [State.memRead, h]

theorem State.memRead_eq_some {s : State} {addr : Word} {w : Width} {v : BitVec w.bits} :
    s.memRead addr w = some v ↔ inRange s.cfg.memSize addr w = true ∧ s.mem.readWidth addr.toNat w = v := by
  unfold State.memRead
  split <;> simp_all

theorem State.memWrite_of_inRange {s : State} {addr : Word} {w : Width} (v : Word)
    (h : inRange s.cfg.memSize addr w = true) :
    s.memWrite addr w v = some { s with mem := s.mem.writeWidth addr.toNat w v } := by
  simp [State.memWrite, h]

theorem State.memWrite_of_not_inRange {s : State} {addr : Word} {w : Width} (v : Word)
    (h : inRange s.cfg.memSize addr w = false) : s.memWrite addr w v = none := by
  simp [State.memWrite, h]

theorem State.memWrite_eq_some {s t : State} {addr : Word} {w : Width} {v : Word} :
    s.memWrite addr w v = some t ↔
      inRange s.cfg.memSize addr w = true ∧ t = { s with mem := s.mem.writeWidth addr.toNat w v } := by
  unfold State.memWrite
  by_cases h : inRange s.cfg.memSize addr w = true
  · simp only [h, if_true, Option.some.injEq, true_and]
    exact eq_comm
  · simp only [h, if_false, false_and, reduceCtorEq]

/-- A read depends on the bytes it reads and on MEM_SIZE alone. -/
theorem State.memRead_congr {s t : State} {addr : Word} {w : Width} (hc : t.cfg = s.cfg)
    (hm : ∀ k, k < w.bytes → t.mem.readByte (addr.toNat + k) = s.mem.readByte (addr.toNat + k)) :
    t.memRead addr w = s.memRead addr w := by
  simp [State.memRead, hc, Memory.readWidth_congr w hm]

end Sys2Proof.Machine
end

