-- ==== Sys2Proof/Laws/Exec.lean ====
section
/-! SUPPORT. What the shared operations answer, and the one inversion lemma of exec: every instruction answers a next state,
and that state has one of a few shapes. -/

namespace Sys2Proof.Machine

/-! ## The shared operations -/

theorem load_of_inRange {s : State} {inst : Word} {w : Width} {extend : BitVec w.bits → Word} {rd : Reg} {ea : Word}
    (h : inRange s.cfg.memSize ea w = true) :
    load s inst w extend rd ea = .next (s.setReg rd (extend (s.mem.readWidth ea.toNat w))).advance := by
  simp [load, State.memRead_of_inRange h, retire]

theorem load_of_not_inRange {s : State} {inst : Word} {w : Width} {extend : BitVec w.bits → Word} {rd : Reg}
    {ea : Word} (h : inRange s.cfg.memSize ea w = false) :
    load s inst w extend rd ea = .next (s.raise (.memoryRangeViolation s.pc (some inst) ea w)) := by
  simp [load, State.memRead_of_not_inRange h]

theorem store_of_inRange {s : State} {inst : Word} {w : Width} {ea v : Word}
    (h : inRange s.cfg.memSize ea w = true) :
    store s inst w ea v = .next ({ s with mem := s.mem.writeWidth ea.toNat w v } : State).advance := by
  simp [store, State.memWrite_of_inRange v h]

theorem store_of_not_inRange {s : State} {inst : Word} {w : Width} {ea v : Word}
    (h : inRange s.cfg.memSize ea w = false) :
    store s inst w ea v = .next (s.raise (.memoryRangeViolation s.pc (some inst) ea w)) := by
  simp [store, State.memWrite_of_not_inRange v h]

/-! ## Operands of the instructions that write memory or a CSR -/

/-- Width, data register, base register and offset of a store. -/
def storeOperands : Instr → Option (Width × Reg × Reg × Word)
  | .sb rs2 rs1 imm => some (.byte, rs2, rs1, imm)
  | .sh rs2 rs1 imm => some (.half, rs2, rs1, imm)
  | .sw rs2 rs1 imm => some (.word, rs2, rs1, imm)
  | _ => none

/-- The CSR a Zicsr instruction names. -/
def csrOperand : Instr → Option CsrAddr
  | .csrrw _ csr _ | .csrrs _ csr _ | .csrrc _ csr _ | .csrrwi _ csr _ | .csrrsi _ csr _ | .csrrci _ csr _ => some csr
  | _ => none

/-- The shapes of the state after an instruction. -/
inductive ExecShape (i : Instr) (s : State) : State → Prop where
  /-- One GPR written, PC + 4. -/
  | reg (rd : Reg) (v : Word) (ht : isControlTransfer i = false) : ExecShape i s (s.setReg rd v).advance
  /-- PC + 4 alone. -/
  | quiet (ht : isControlTransfer i = false) : ExecShape i s s.advance
  /-- A store in range. -/
  | mem (w : Width) (rs2 rs1 : Reg) (imm : Word) (ht : isControlTransfer i = false)
      (hi : storeOperands i = some (w, rs2, rs1, imm))
      (hr : inRange s.cfg.memSize (s.effAddr rs1 imm) w = true) :
      ExecShape i s
        ({ s with mem := s.mem.writeWidth (s.effAddr rs1 imm).toNat w (s.getReg rs2) } : State).advance
  /-- A CSR and a GPR written. -/
  | csr (rd : Reg) (csr : CsrAddr) (v : Word) (ht : isControlTransfer i = false) (hi : csrOperand i = some csr) :
      ExecShape i s ((s.setCsr csr v).setReg rd (s.getCsr csr)).advance
  /-- A branch. -/
  | jump (target : Word) (ht : isControlTransfer i = true) : ExecShape i s (s.jump target)
  /-- A jump that links. -/
  | link (rd : Reg) (target : Word) (ht : isControlTransfer i = true) :
      ExecShape i s ((s.setReg rd (s.pc + 4#32)).jump target)
  /-- A condition, whose report names the instruction's pc and word. -/
  | raised (c : Condition) (hpc : c.pc = s.pc) (hinst : c.inst = some (encode i)) : ExecShape i s (s.raise c)

/-- Every instruction answers a next state of one of the shapes. -/
theorem exec_shape (i : Instr) (s : State) : ∃ t, exec i s = .next t ∧ ExecShape i s t := by
  have hload : ∀ (w : Width) (extend : BitVec w.bits → Word) (rd : Reg) (ea : Word),
      isControlTransfer i = false →
      ∃ t, load s (encode i) w extend rd ea = .next t ∧ ExecShape i s t := by
    intro w extend rd ea ht
    by_cases h : inRange s.cfg.memSize ea w = true
    · exact ⟨_, load_of_inRange h, .reg _ _ ht⟩
    · exact ⟨_, load_of_not_inRange (by simpa using h), .raised _ rfl rfl⟩
  have hstore : ∀ (w : Width) (rs2 rs1 : Reg) (imm : Word), isControlTransfer i = false →
      storeOperands i = some (w, rs2, rs1, imm) →
      ∃ t, store s (encode i) w (s.effAddr rs1 imm) (s.getReg rs2) = .next t ∧ ExecShape i s t := by
    intro w rs2 rs1 imm ht hi
    by_cases h : inRange s.cfg.memSize (s.effAddr rs1 imm) w = true
    · exact ⟨_, store_of_inRange h, .mem w rs2 rs1 imm ht hi h⟩
    · exact ⟨_, store_of_not_inRange (by simpa using h), .raised _ rfl rfl⟩
  have hcsr : ∀ (rd : Reg) (csr : CsrAddr) (new : Option Word), isControlTransfer i = false →
      csrOperand i = some csr → ∃ t, csrAccess s rd csr new = .next t ∧ ExecShape i s t := by
    intro rd csr new ht hi
    cases new with
    | none => exact ⟨_, rfl, .reg _ _ ht⟩
    | some v => exact ⟨_, rfl, .csr _ _ _ ht hi⟩
  cases i with
  | lb _ _ _ => exact hload _ _ _ _ rfl
  | lh _ _ _ => exact hload _ _ _ _ rfl
  | lw _ _ _ => exact hload _ _ _ _ rfl
  | lbu _ _ _ => exact hload _ _ _ _ rfl
  | lhu _ _ _ => exact hload _ _ _ _ rfl
  | sb _ _ _ => exact hstore _ _ _ _ rfl rfl
  | sh _ _ _ => exact hstore _ _ _ _ rfl rfl
  | sw _ _ _ => exact hstore _ _ _ _ rfl rfl
  | csrrw rd csr rs1 => exact hcsr rd csr (some (s.getReg rs1)) rfl rfl
  | csrrs _ _ _ => exact hcsr _ _ _ rfl rfl
  | csrrc _ _ _ => exact hcsr _ _ _ rfl rfl
  | csrrwi rd csr zimm => exact hcsr rd csr (some (zext5 zimm)) rfl rfl
  | csrrsi _ _ _ => exact hcsr _ _ _ rfl rfl
  | csrrci _ _ _ => exact hcsr _ _ _ rfl rfl
  | beq _ _ _ => exact ⟨_, rfl, .jump _ rfl⟩
  | bne _ _ _ => exact ⟨_, rfl, .jump _ rfl⟩
  | blt _ _ _ => exact ⟨_, rfl, .jump _ rfl⟩
  | bge _ _ _ => exact ⟨_, rfl, .jump _ rfl⟩
  | bltu _ _ _ => exact ⟨_, rfl, .jump _ rfl⟩
  | bgeu _ _ _ => exact ⟨_, rfl, .jump _ rfl⟩
  | jal _ _ => exact ⟨_, rfl, .link _ _ rfl⟩
  | jalr _ _ _ => exact ⟨_, rfl, .link _ _ rfl⟩
  | fence _ _ _ => exact ⟨_, rfl, .quiet rfl⟩
  | ecall => exact ⟨_, rfl, .raised _ rfl rfl⟩
  | ebreak => exact ⟨_, rfl, .raised _ rfl rfl⟩
  | _ => exact ⟨_, rfl, .reg _ _ rfl⟩

/-- exec never faults or refuses, and its next state has one of the shapes. -/
theorem exec_inv {i : Instr} {s t : State} (h : exec i s = .next t) : ExecShape i s t := by
  obtain ⟨t', ht', hs⟩ := exec_shape i s
  rw [ht'] at h
  cases h
  exact hs

/-! ## The step -/

/-- The fetch does not read the run state. -/
@[simp] theorem State.fetch_begun (s : State) : s.begun.fetch = s.fetch := rfl

/-- The shapes of the state after a step. -/
inductive StepShape (s : State) : State → Prop where
  | fetchFault (hf : s.fetch = none) : StepShape s (s.begun.raise (.memoryRangeViolation s.pc none s.pc .word))
  | illegal (w : Word) (why : Undecoded) (hf : s.fetch = some w) (hd : decode w = .undecoded why) :
      StepShape s (s.begun.raise (.illegalInstruction s.pc w))
  | executed (w : Word) (i : Instr) (t : State) (hf : s.fetch = some w) (hd : decode w = .instr i)
      (he : exec i s.begun = .next t) (hs : ExecShape i s.begun t) : StepShape s t

theorem step_of_fetch_none {s : State} (hf : s.fetch = none) :
    step s = .next (s.begun.raise (.memoryRangeViolation s.pc none s.pc .word)) := by
  simp [step, driverStep, hf]

theorem step_of_undecoded {s : State} {w : Word} {why : Undecoded} (hf : s.fetch = some w)
    (hd : decode w = .undecoded why) : step s = .next (s.begun.raise (.illegalInstruction s.pc w)) := by
  simp [step, driverStep, hf, hd]

theorem step_of_instr {s : State} {w : Word} {i : Instr} (hf : s.fetch = some w) (hd : decode w = .instr i) :
    step s = exec i s.begun := by
  simp [step, driverStep, hf, hd]

/-- Every step answers a next state of one of the shapes. -/
theorem step_shape (s : State) : ∃ t, step s = .next t ∧ StepShape s t := by
  cases hf : s.fetch with
  | none => exact ⟨_, step_of_fetch_none hf, .fetchFault hf⟩
  | some w =>
    cases hd : decode w with
    | undecoded why => exact ⟨_, step_of_undecoded hf hd, .illegal w why hf hd⟩
    | instr i =>
      obtain ⟨t, ht, hs⟩ := exec_shape i s.begun
      exact ⟨t, (step_of_instr hf hd).trans ht, .executed w i t hf hd ht hs⟩

theorem step_inv {s t : State} (h : step s = .next t) : StepShape s t := by
  obtain ⟨t', ht', hs⟩ := step_shape s
  rw [ht'] at h
  cases h
  exact hs

end Sys2Proof.Machine
end

