-- ==== Sys2Proof/Laws/Completes.lean ====
section
/-! SUPPORT. What each shared operation does, whole: the registers, CSRs, memory, PC and control it leaves. The
per-instruction statements cite these. -/

namespace Sys2Proof.Machine

theorem inBounds_iff (s : State) (ea : Word) (w : Width) :
    InBounds s ea w ↔ inRange s.cfg.memSize ea w = true :=
  (inRange_iff _ _ _).symm

/-- retire writes rd and advances the PC, and changes nothing else. -/
theorem retire_completes {s : State} {i : Instr} {rd : Reg} {v : Word} (h : exec i s = retire s rd v) :
    CompletesWithReg s i rd v := by
  refine ⟨_, h, fun r => ?_, by simp, fun c => by simp, fun a => by simp, by simp [SameControl]⟩
  simp [State.getReg_setReg]

/-- branch sets the PC and changes nothing else. -/
theorem branch_completes {s : State} {i : Instr} {taken : Bool} {off target : Word} (h : exec i s = branch s taken off)
    (ht : target = if taken then s.pc + off else s.pc + 4#32) : CompletesAtPc s i target :=
  ⟨_, h, by simp [ht], fun r => by simp, fun c => by simp, fun a => by simp, by simp [SameControl]⟩

/-- link writes pc + 4 to rd, sets the PC, and changes nothing else. -/
theorem link_completes {s : State} {i : Instr} {rd : Reg} {target : Word} (h : exec i s = link s rd target) :
    CompletesWithLink s i rd target := by
  refine ⟨_, h, fun r => ?_, by simp, fun c => by simp, fun a => by simp, by simp [SameControl]⟩
  simp [State.getReg_setReg]

/-- raise leaves everything but the run state and the report. -/
theorem raise_endsIn (s : State) (c : Condition) : EndsIn s (s.raise c) c :=
  ⟨fun r => by simp, fun d => by simp, fun a => by simp, by simp, by simp, by simp, by simp⟩

/-- The same from the state a step begins with. -/
theorem begun_raise_endsIn (s : State) (c : Condition) : EndsIn s (s.begun.raise c) c :=
  ⟨fun r => by simp, fun d => by simp, fun a => by simp, by simp, by simp, by simp, by simp⟩

/-- load follows the rule of a load: in bounds rd gets the widened bytes, out of bounds the condition is raised. -/
theorem load_rule {s : State} {i : Instr} {w : Width} {extend : BitVec w.bits → Word} {rd : Reg} {ea : Word}
    (h : exec i s = load s (encode i) w extend rd ea) :
    LoadRule s i w rd ea (extend (s.mem.readWidth ea.toNat w)) := by
  constructor
  · intro hb
    exact retire_completes (h.trans (load_of_inRange ((inBounds_iff s ea w).mp hb)))
  · intro hb
    have hr : inRange s.cfg.memSize ea w = false := by simpa [inBounds_iff] using hb
    exact ⟨_, h.trans (load_of_not_inRange hr), raise_endsIn _ _⟩

/-- The bytes of a write of any width, as numbers. -/
theorem writesMem_writeWidth (s : State) (a : Nat) (w : Width) (v : Word) :
    WritesMem s { s with mem := s.mem.writeWidth a w v } a w.bytes v := by
  constructor
  · intro k hk
    rw [Memory.readByte_writeWidth, if_pos ⟨by omega, by omega⟩, Nat.add_sub_cancel_left, byteOf_toNat]
  · intro b hb
    rw [Memory.readByte_writeWidth, if_neg (by omega)]

/-- store follows the rule of a store: in bounds the low bytes are written, out of bounds the condition is raised. -/
theorem store_rule {s : State} {i : Instr} {w : Width} {ea v : Word} (h : exec i s = store s (encode i) w ea v) :
    StoreRule s i w ea v := by
  constructor
  · intro hb
    exact ⟨_, h.trans (store_of_inRange ((inBounds_iff s ea w).mp hb)), writesMem_writeWidth s ea.toNat w v, rfl,
      fun r => rfl, fun c => rfl, rfl, rfl, rfl⟩
  · intro hb
    have hr : inRange s.cfg.memSize ea w = false := by simpa [inBounds_iff] using hb
    exact ⟨_, h.trans (store_of_not_inRange hr), raise_endsIn _ _⟩

/-- csrAccess gives rd the old cell and the cell its new value, or its old one when there is no write. -/
theorem csrAccess_completes {s : State} {i : Instr} {rd : Reg} {csr : CsrAddr} {new : Option Word}
    (h : exec i s = csrAccess s rd csr new) :
    CompletesWithCsr s i rd (s.getCsr csr) csr (new.getD (s.getCsr csr)) := by
  cases new with
  | none =>
    refine ⟨_, h, fun r => by simp [State.getReg_setReg], fun c => ?_, by simp, fun a => by simp,
      by simp [SameControl]⟩
    by_cases hc : c = csr
    · subst hc; simp
    · simp [hc]
  | some v =>
    refine ⟨_, h, fun r => by simp [State.getReg_setReg], fun c => ?_, by simp, fun a => by simp,
      by simp [SameControl]⟩
    simp [State.getCsr_setCsr]

end Sys2Proof.Machine
end

