-- ==== Sys2Proof/Laws/Numbers.lean ====
section
/-! SUPPORT. The model's words as plain numbers: loaded values, extensions, shifts, wrapping sums, the JALR target. -/

namespace Sys2Proof.Machine

theorem append_toNat {n m : Nat} (x : BitVec n) (y : BitVec m) : (x ++ y).toNat = x.toNat * 2 ^ m + y.toNat := by
  rw [BitVec.toNat_append, Nat.shiftLeft_eq, Nat.mul_comm, Nat.two_pow_add_eq_or_of_lt y.isLt]

/-! ## Loaded values -/

theorem readWidth_half_toNat (s : State) (a : Nat) : (s.mem.readWidth a .half).toNat = s.halfAt a := by
  show (s.mem.readByte (a + 1) ++ s.mem.readByte a).toNat = _
  rw [append_toNat]
  simp [State.halfAt, State.byteAt]
  omega

theorem readWidth_word_toNat (s : State) (a : Nat) : (s.mem.readWidth a .word).toNat = s.wordAt a := by
  show (s.mem.readByte (a + 3) ++ s.mem.readByte (a + 2) ++ s.mem.readByte (a + 1) ++ s.mem.readByte a).toNat = _
  rw [append_toNat, append_toNat, append_toNat]
  simp [State.wordAt, State.halfAt, State.byteAt, Nat.add_assoc]
  omega

theorem toInt_eq_signedOf {n : Nat} (x : BitVec n) (hn : 0 < n) : x.toInt = signedOf n x.toNat := by
  rw [BitVec.toInt_eq_toNat_cond, signedOf]
  obtain ⟨m, rfl⟩ : ∃ m, n = m + 1 := ⟨n - 1, by omega⟩
  simp only [Nat.add_sub_cancel, Nat.pow_succ]
  push_cast
  split <;> split <;> first | rfl | omega

theorem signExtend_eq_ofInt {n : Nat} (x : BitVec n) (hn : 0 < n) :
    x.signExtend 32 = BitVec.ofInt 32 (signedOf n x.toNat) := by
  rw [← toInt_eq_signedOf x hn]
  rfl

theorem zeroExtend_eq_ofNat {n : Nat} (x : BitVec n) : x.zeroExtend 32 = BitVec.ofNat 32 x.toNat := by
  apply BitVec.eq_of_toNat_eq
  simp

/-! ## Sums and shifts -/

theorem add_eq_ofInt (a b : Word) : a + b = BitVec.ofInt 32 (a.toInt + b.toInt) := by
  apply BitVec.eq_of_toInt_eq
  simp [BitVec.toInt_add]

theorem add_eq_ofNat (a b : Word) : a + b = BitVec.ofNat 32 (a.toNat + b.toNat) := by
  apply BitVec.eq_of_toNat_eq
  simp

theorem shiftAmount_eq (v : Word) : shiftAmount v = v.toNat % 32 := by simp [shiftAmount]

theorem shiftLeft_eq_ofNat (x : Word) (n : Nat) : x <<< n = BitVec.ofNat 32 (x.toNat * 2 ^ n) := by
  apply BitVec.eq_of_toNat_eq
  simp [Nat.shiftLeft_eq]

theorem ushiftRight_eq_ofNat (x : Word) (n : Nat) : x >>> n = BitVec.ofNat 32 (x.toNat / 2 ^ n) := by
  apply BitVec.eq_of_toNat_eq
  have h1 := x.isLt
  have h2 : x.toNat / 2 ^ n ≤ x.toNat := Nat.div_le_self _ _
  simp only [BitVec.toNat_ushiftRight, Nat.shiftRight_eq_div_pow, BitVec.toNat_ofNat]
  rw [Nat.mod_eq_of_lt]
  omega

theorem sshiftRight_eq_ofInt (x : Word) (n : Nat) : x.sshiftRight n = BitVec.ofInt 32 (x.toInt / 2 ^ n) := by
  simp [BitVec.sshiftRight, Int.shiftRight_eq_div_pow]

/-- Clearing bit 0 is rounding down to an even number. -/
theorem jalrTarget_eq_ofNat (s : State) (rs1 : Reg) (imm : Word) :
    s.jalrTarget rs1 imm = BitVec.ofNat 32 ((s.getReg rs1 + imm).toNat / 2 * 2) := by
  unfold State.jalrTarget
  generalize s.getReg rs1 + imm = x
  have hx := x.isLt
  apply BitVec.eq_of_getLsbD_eq
  intro i hi
  simp only [BitVec.getLsbD_and, BitVec.getLsbD_ofNat, hi, decide_true, Bool.true_and]
  cases i with
  | zero => simp [Nat.testBit_zero]
  | succ j =>
    have e : (x.toNat / 2 * 2).testBit (j + 1) = x.getLsbD (j + 1) := by
      rw [BitVec.getLsbD, Nat.testBit_succ, Nat.testBit_succ]
      congr 1
      omega
    rw [e]
    have hj : j < 31 := by omega
    interval_cases j <;> simp <;> exact fun _ => by decide

end Sys2Proof.Machine
end

