-- ==== Sys2Proof/Laws/Ends.lean ====
section
/-! SUPPORT. How an instruction ends: it completes, with the PC its rule gives, or it ends in one of the conditions, with
the cause of that condition. -/

namespace Sys2Proof.Machine

/-- The ends of an instruction: the run state and the report it leaves tell which one it was. -/
inductive ExecEnd (i : Instr) (s : State) : State → Prop where
  | completes (t : State) (hrun : t.runState = s.runState) (hrep : t.report = s.report) (hpc : t.pc = nextPc i s)
      (hacc : ∀ ea w, accessOf i s = some (ea, w) → InBounds s ea w) (hecall : i ≠ .ecall) (hebreak : i ≠ .ebreak) :
      ExecEnd i s t
  | ecall (hi : i = .ecall) : ExecEnd i s (s.raise (.environmentCall s.pc (encode .ecall)))
  | ebreak (hi : i = .ebreak) : ExecEnd i s (s.raise (.breakpoint s.pc (encode .ebreak)))
  | range (ea : Word) (w : Width) (hacc : accessOf i s = some (ea, w)) (hb : ¬InBounds s ea w) :
      ExecEnd i s (s.raise (.memoryRangeViolation s.pc (some (encode i)) ea w))

theorem encode_ecall : encode .ecall = 0x00000073#32 := rfl

theorem encode_ebreak : encode .ebreak = 0x00100073#32 := rfl

/-- Every instruction ends in one of these ways. -/
theorem exec_end (i : Instr) (s : State) : ∃ t, exec i s = .next t ∧ ExecEnd i s t := by
  have hretire : ∀ (rd : Reg) (v : Word), accessOf i s = none → i ≠ .ecall → i ≠ .ebreak →
      nextPc i s = s.pc + 4#32 → ∃ t, retire s rd v = .next t ∧ ExecEnd i s t := fun rd v ha h1 h2 hp =>
    ⟨_, rfl, .completes _ (by simp) (by simp) (by simp [hp]) (by simp [ha]) h1 h2⟩
  have hload : ∀ (w : Width) (extend : BitVec w.bits → Word) (rd : Reg) (ea : Word), accessOf i s = some (ea, w) →
      i ≠ .ecall → i ≠ .ebreak → nextPc i s = s.pc + 4#32 →
      ∃ t, load s (encode i) w extend rd ea = .next t ∧ ExecEnd i s t := by
    intro w extend rd ea ha h1 h2 hp
    by_cases h : inRange s.cfg.memSize ea w = true
    · exact ⟨_, load_of_inRange h, .completes _ (by simp) (by simp) (by simp [hp])
        (by simp [ha, inBounds_iff, h]) h1 h2⟩
    · exact ⟨_, load_of_not_inRange (by simpa using h), .range _ _ ha (by rwa [inBounds_iff])⟩
  have hstore : ∀ (w : Width) (ea v : Word), accessOf i s = some (ea, w) →
      i ≠ .ecall → i ≠ .ebreak → nextPc i s = s.pc + 4#32 →
      ∃ t, store s (encode i) w ea v = .next t ∧ ExecEnd i s t := by
    intro w ea v ha h1 h2 hp
    by_cases h : inRange s.cfg.memSize ea w = true
    · exact ⟨_, store_of_inRange h, .completes _ (by simp) (by simp) (by simp [hp])
        (by simp [ha, inBounds_iff, h]) h1 h2⟩
    · exact ⟨_, store_of_not_inRange (by simpa using h), .range _ _ ha (by rwa [inBounds_iff])⟩
  have hcsr : ∀ (rd : Reg) (csr : CsrAddr) (new : Option Word), accessOf i s = none → i ≠ .ecall → i ≠ .ebreak →
      nextPc i s = s.pc + 4#32 → ∃ t, csrAccess s rd csr new = .next t ∧ ExecEnd i s t := by
    intro rd csr new ha h1 h2 hp
    cases new <;> exact ⟨_, rfl, .completes _ (by simp) (by simp) (by simp [hp]) (by simp [ha]) h1 h2⟩
  have hbranch : ∀ (taken : Bool) (off : Word), accessOf i s = none → i ≠ .ecall → i ≠ .ebreak →
      nextPc i s = (if taken then s.pc + off else s.pc + 4#32) →
      ∃ t, branch s taken off = .next t ∧ ExecEnd i s t := fun taken off ha h1 h2 hp =>
    ⟨_, rfl, .completes _ (by simp) (by simp) (by simp [hp]) (by simp [ha]) h1 h2⟩
  have hlink : ∀ (rd : Reg) (target : Word), accessOf i s = none → i ≠ .ecall → i ≠ .ebreak →
      nextPc i s = target → ∃ t, link s rd target = .next t ∧ ExecEnd i s t := fun rd target ha h1 h2 hp =>
    ⟨_, rfl, .completes _ (by simp) (by simp) (by simp [hp]) (by simp [ha]) h1 h2⟩
  cases i with
  | lb _ _ _ => exact hload .byte _ _ _ rfl (by simp) (by simp) rfl
  | lh _ _ _ => exact hload .half _ _ _ rfl (by simp) (by simp) rfl
  | lw _ _ _ => exact hload .word _ _ _ rfl (by simp) (by simp) rfl
  | lbu _ _ _ => exact hload .byte _ _ _ rfl (by simp) (by simp) rfl
  | lhu _ _ _ => exact hload .half _ _ _ rfl (by simp) (by simp) rfl
  | sb _ _ _ => exact hstore .byte _ _ rfl (by simp) (by simp) rfl
  | sh _ _ _ => exact hstore .half _ _ rfl (by simp) (by simp) rfl
  | sw _ _ _ => exact hstore .word _ _ rfl (by simp) (by simp) rfl
  | csrrw rd csr rs1 => exact hcsr rd csr (some (s.getReg rs1)) rfl (by simp) (by simp) rfl
  | csrrs _ _ _ => exact hcsr _ _ _ rfl (by simp) (by simp) rfl
  | csrrc _ _ _ => exact hcsr _ _ _ rfl (by simp) (by simp) rfl
  | csrrwi rd csr zimm => exact hcsr rd csr (some (zext5 zimm)) rfl (by simp) (by simp) rfl
  | csrrsi _ _ _ => exact hcsr _ _ _ rfl (by simp) (by simp) rfl
  | csrrci _ _ _ => exact hcsr _ _ _ rfl (by simp) (by simp) rfl
  | beq rs1 rs2 off =>
    exact hbranch _ off rfl (by simp) (by simp) (by simp [nextPc])
  | bne rs1 rs2 off =>
    exact hbranch _ off rfl (by simp) (by simp) (by simp [nextPc])
  | blt rs1 rs2 off =>
    exact hbranch _ off rfl (by simp) (by simp) (by simp [nextPc, ltSigned, BitVec.slt])
  | bge rs1 rs2 off =>
    exact hbranch _ off rfl (by simp) (by simp)
      (by simp only [nextPc, ltSigned, BitVec.slt, Bool.not_eq_true', decide_eq_false_iff_not, ite_not])
  | bltu rs1 rs2 off =>
    exact hbranch _ off rfl (by simp) (by simp) (by simp [nextPc, ltUnsigned, BitVec.ult])
  | bgeu rs1 rs2 off =>
    exact hbranch _ off rfl (by simp) (by simp)
      (by simp only [nextPc, ltUnsigned, BitVec.ult, Bool.not_eq_true', decide_eq_false_iff_not, ite_not])
  | jal _ _ => exact hlink _ _ rfl (by simp) (by simp) rfl
  | jalr rd rs1 imm => exact hlink _ _ rfl (by simp) (by simp) (jalrTarget_eq_ofNat s rs1 imm).symm
  | fence _ _ _ => exact ⟨_, rfl, .completes _ rfl rfl rfl (by simp [accessOf]) (by simp) (by simp)⟩
  | ecall => exact ⟨_, rfl, .ecall rfl⟩
  | ebreak => exact ⟨_, rfl, .ebreak rfl⟩
  | _ => exact hretire _ _ rfl (by simp) (by simp) rfl

theorem exec_end_inv {i : Instr} {s t : State} (h : exec i s = .next t) : ExecEnd i s t := by
  obtain ⟨t', ht', hs⟩ := exec_end i s
  rw [ht'] at h
  cases h
  exact hs

end Sys2Proof.Machine
end

