-- ==== Sys2Proof/Laws/Invariant.lean ====
section
/-! SUPPORT. The invariant through each update of the state, and the memory and CSR bounds through each write. -/

namespace Sys2Proof.Machine

/-- The report agrees with the run state Running, whatever it holds. -/
theorem State.reportAgrees_of_running {s : State} (h : s.runState = .running) : s.reportAgrees := by
  simp [State.reportAgrees, h]

/-- A raised condition leaves a run state and a report that agree. -/
theorem State.reportAgrees_raise (s : State) (c : Condition) : (s.raise c).reportAgrees := by
  cases c <;> simp [State.reportAgrees, State.raise, Condition.runState]

/-- x0's own cell is never written. -/
theorem State.setReg_regs_zero (s : State) (rd : Reg) (v : Word) : (s.setReg rd v).regs[0] = s.regs[0] := by
  unfold State.setReg
  split
  · rfl
  · rename_i h
    have hn : rd.toNat ≠ 0 := fun e => h (BitVec.eq_of_toNat_eq (by simpa using e))
    exact Vector.getElem_set_ne rd.isLt (by decide) hn

/-- The parts of the invariant that a state with the same parameters, memory, CSR file and x0 cell shares. -/
theorem State.Inv.congr {s t : State} (h : s.Inv) (hc : t.cfg = s.cfg) (hr : t.regs[0] = s.regs[0])
    (hm : t.mem = s.mem) (hk : t.csrs = s.csrs) (hp : t.reportAgrees) : t.Inv :=
  ⟨hc ▸ h.memSize_le, hr ▸ h.x0_zero, hm ▸ h.mem_wf, hm ▸ hc ▸ h.mem_bound, hk ▸ h.csrs_wf, hk ▸ h.csrs_bound, hp⟩

theorem State.Inv.begun {s : State} (h : s.Inv) : s.begun.Inv :=
  h.congr rfl rfl rfl rfl (State.reportAgrees_of_running rfl)

theorem State.Inv.raise {s : State} (h : s.Inv) (c : Condition) : (s.raise c).Inv :=
  h.congr rfl rfl rfl rfl (State.reportAgrees_raise s c)

theorem State.Inv.advance {s : State} (h : s.Inv) : s.advance.Inv :=
  h.congr rfl rfl rfl rfl h.report_agrees

theorem State.Inv.jump {s : State} (h : s.Inv) (target : Word) : (s.jump target).Inv :=
  h.congr rfl rfl rfl rfl h.report_agrees

theorem State.Inv.setReg {s : State} (h : s.Inv) (rd : Reg) (v : Word) : (s.setReg rd v).Inv := by
  refine h.congr (by simp) (s.setReg_regs_zero rd v) (by simp) (by simp) ?_
  have := h.report_agrees
  simpa [State.reportAgrees] using this

theorem State.Inv.setCsr {s : State} (h : s.Inv) (csr : CsrAddr) (v : Word) : (s.setCsr csr v).Inv := by
  refine ⟨h.memSize_le, h.x0_zero, h.mem_wf, h.mem_bound, Cells.write_canonical _ _ h.csrs_wf, ?_, h.report_agrees⟩
  intro c hc
  rcases Cells.mem_write hc with e | hc
  · rw [e]
    exact csr.isLt
  · exact h.csrs_bound c hc

/-- A memory whose form and bound hold may replace the state's. -/
theorem State.Inv.withMem {s : State} (h : s.Inv) {m : Memory} (hw : Memory.wf m = true)
    (hb : ∀ c ∈ m, c.1 < s.cfg.memSize) : State.Inv { s with mem := m } :=
  ⟨h.memSize_le, h.x0_zero, hw, hb, h.csrs_wf, h.csrs_bound, h.report_agrees⟩

/-- A write whose bytes lie below MEM_SIZE keeps the invariant. -/
theorem State.Inv.writeWidth {s : State} (h : s.Inv) {a : Nat} {w : Width} {v : Word}
    (hr : a + w.bytes ≤ s.cfg.memSize) : State.Inv { s with mem := s.mem.writeWidth a w v } := by
  refine h.withMem (Memory.writeWidth_wf _ _ _ h.mem_wf) fun c hc => ?_
  rcases Memory.mem_writeWidth hc with ⟨_, h2⟩ | hc
  · omega
  · exact h.mem_bound c hc

/-- Every shape an instruction leaves keeps the invariant. -/
theorem ExecShape.inv {i : Instr} {s t : State} (h : s.Inv) (hs : ExecShape i s t) : t.Inv := by
  cases hs with
  | reg rd v _ => exact (h.setReg rd v).advance
  | quiet _ => exact h.advance
  | mem w rs2 rs1 imm _ _ hr => exact (h.writeWidth ((inRange_iff_toNat _ _ _).mp hr).2).advance
  | csr rd csr v _ _ => exact ((h.setCsr csr v).setReg rd _).advance
  | jump target _ => exact h.jump target
  | link rd target _ => exact (h.setReg rd _).jump target
  | raised c _ _ => exact h.raise c

end Sys2Proof.Machine
end

