-- ==== Sys2Proof/Laws/Step.lean ====
section
/-! SUPPORT. The fetch and its bounds, which instruction a step executes, and what an instruction does not read. -/

namespace Sys2Proof.Machine

theorem fetch_of_inBounds {s : State} (h : InBounds s s.pc .word) :
    s.fetch = some (s.mem.readWidth s.pc.toNat .word) :=
  State.memRead_of_inRange ((inBounds_iff _ _ _).mp h)

theorem fetch_of_not_inBounds {s : State} (h : ¬InBounds s s.pc .word) : s.fetch = none :=
  State.memRead_of_not_inRange (by simpa [inBounds_iff] using h)

theorem not_inBounds_of_fetch_none {s : State} (h : s.fetch = none) : ¬InBounds s s.pc .word := by
  intro hb
  rw [fetch_of_inBounds hb] at h
  cases h

theorem inBounds_of_fetch_some {s : State} {w : Word} (h : s.fetch = some w) : InBounds s s.pc .word := by
  by_contra hb
  rw [fetch_of_not_inBounds hb] at h
  cases h

/-- A step executes one instruction. -/
theorem executes_iff {s : State} {i j : Instr} {w : Word} (hf : s.fetch = some w) (hd : decode w = .instr i) :
    s.executes j ↔ j = i := by
  constructor
  · rintro ⟨w', h1, h2⟩
    rw [hf] at h1
    cases h1
    rw [hd] at h2
    cases h2
    rfl
  · rintro rfl
    exact ⟨w, hf, hd⟩

/-- The access of an instruction does not depend on the run state. -/
theorem accessOf_begun (i : Instr) (s : State) : accessOf i s.begun = accessOf i s := by cases i <;> rfl

/-- The PC after an instruction does not depend on the run state. -/
theorem nextPc_begun (i : Instr) (s : State) : nextPc i s.begun = nextPc i s := by cases i <;> rfl

theorem nextPc_of_not_transfer {i : Instr} {s : State} (h : isControlTransfer i = false) :
    nextPc i s = s.pc + 4#32 := by
  cases i <;> first | rfl | cases h

/-- Two next states that differ in the report alone. -/
def SameButReport (r r' : Result) : Prop := ∃ t u, r = .next t ∧ r' = .next u ∧ u = { t with report := u.report }

theorem retire_ignoresReport (s : State) (c : Option Condition) (rd : Reg) (v : Word) :
    SameButReport (retire s rd v) (retire { s with report := c } rd v) :=
  ⟨_, _, rfl, rfl, by unfold State.setReg; split <;> rfl⟩

theorem link_ignoresReport (s : State) (c : Option Condition) (rd : Reg) (target : Word) :
    SameButReport (link s rd target) (link { s with report := c } rd target) :=
  ⟨_, _, rfl, rfl, by unfold State.setReg; split <;> rfl⟩

theorem csrAccess_ignoresReport (s : State) (c : Option Condition) (rd : Reg) (csr : CsrAddr) (new : Option Word) :
    SameButReport (csrAccess s rd csr new) (csrAccess { s with report := c } rd csr new) := by
  cases new <;> exact ⟨_, _, rfl, rfl, by unfold State.setReg; split <;> rfl⟩

theorem load_ignoresReport (s : State) (c : Option Condition) (inst : Word) (w : Width)
    (extend : BitVec w.bits → Word) (rd : Reg) (ea : Word) :
    SameButReport (load s inst w extend rd ea) (load { s with report := c } inst w extend rd ea) := by
  cases h : inRange s.cfg.memSize ea w with
  | true => exact ⟨_, _, load_of_inRange h, load_of_inRange (s := { s with report := c }) h,
      by unfold State.setReg; split <;> rfl⟩
  | false => exact ⟨_, _, load_of_not_inRange h, load_of_not_inRange (s := { s with report := c }) h, rfl⟩

theorem store_ignoresReport (s : State) (c : Option Condition) (inst : Word) (w : Width) (ea v : Word) :
    SameButReport (store s inst w ea v) (store { s with report := c } inst w ea v) := by
  cases h : inRange s.cfg.memSize ea w with
  | true => exact ⟨_, _, store_of_inRange h, store_of_inRange (s := { s with report := c }) h, rfl⟩
  | false => exact ⟨_, _, store_of_not_inRange h, store_of_not_inRange (s := { s with report := c }) h, rfl⟩

/-- No instruction reads the report. -/
theorem exec_ignoresReport (i : Instr) (s : State) (c : Option Condition) :
    SameButReport (exec i s) (exec i { s with report := c }) := by
  cases i with
  | csrrw rd csr rs1 => exact csrAccess_ignoresReport s c rd csr (some (s.getReg rs1))
  | csrrwi rd csr z => exact csrAccess_ignoresReport s c rd csr (some (zext5 z))
  | lb _ _ _ => exact load_ignoresReport s c _ _ _ _ _
  | lh _ _ _ => exact load_ignoresReport s c _ _ _ _ _
  | lw _ _ _ => exact load_ignoresReport s c _ _ _ _ _
  | lbu _ _ _ => exact load_ignoresReport s c _ _ _ _ _
  | lhu _ _ _ => exact load_ignoresReport s c _ _ _ _ _
  | sb _ _ _ => exact store_ignoresReport s c _ _ _ _
  | sh _ _ _ => exact store_ignoresReport s c _ _ _ _
  | sw _ _ _ => exact store_ignoresReport s c _ _ _ _
  | csrrs _ _ _ => exact csrAccess_ignoresReport s c _ _ _
  | csrrc _ _ _ => exact csrAccess_ignoresReport s c _ _ _
  | csrrsi _ _ _ => exact csrAccess_ignoresReport s c _ _ _
  | csrrci _ _ _ => exact csrAccess_ignoresReport s c _ _ _
  | jal _ _ => exact link_ignoresReport s c _ _
  | jalr _ _ _ => exact link_ignoresReport s c _ _
  | beq _ _ _ => exact ⟨_, _, rfl, rfl, rfl⟩
  | bne _ _ _ => exact ⟨_, _, rfl, rfl, rfl⟩
  | blt _ _ _ => exact ⟨_, _, rfl, rfl, rfl⟩
  | bge _ _ _ => exact ⟨_, _, rfl, rfl, rfl⟩
  | bltu _ _ _ => exact ⟨_, _, rfl, rfl, rfl⟩
  | bgeu _ _ _ => exact ⟨_, _, rfl, rfl, rfl⟩
  | fence _ _ _ => exact ⟨_, _, rfl, rfl, rfl⟩
  | ecall => exact ⟨_, _, rfl, rfl, rfl⟩
  | ebreak => exact ⟨_, _, rfl, rfl, rfl⟩
  | _ => exact retire_ignoresReport s c _ _

end Sys2Proof.Machine
end

