-- ==== Sys2Proof/Laws/HostPort.lean ====
section
/-! SUPPORT. What the host's commands do: the register numbers of the port, loaded images, reset, and the invariant through
each. -/

namespace Sys2Proof.Machine

/-! ## Register numbers of the port (48_cpu_driver.md R303) -/

theorem hostReg_of_inside {i : Int} (h0 : 0 ≤ i) (h1 : i < 32) : hostReg i = some (BitVec.ofInt 5 i) := by
  simp [hostReg, h0, h1]

theorem hostReg_of_outside {i : Int} (h : i < 0 ∨ 32 ≤ i) : hostReg i = none := by
  rw [hostReg, if_neg (by omega)]

theorem hostCsr_of_inside {i : Int} (h0 : 0 ≤ i) (h1 : i < 4096) : hostCsr i = some (BitVec.ofInt 12 i) := by
  simp [hostCsr, h0, h1]

theorem hostCsr_of_outside {i : Int} (h : i < 0 ∨ 4096 ≤ i) : hostCsr i = none := by
  rw [hostCsr, if_neg (by omega)]

theorem toNat_ofInt_of_lt {n : Nat} {i : Int} (h0 : 0 ≤ i) (h1 : i < 2 ^ n) :
    ((BitVec.ofInt n i).toNat : Int) = i := by
  rw [BitVec.toNat_ofInt]
  have : i % ((2 ^ n : Nat) : Int) = i := Int.emod_eq_of_lt h0 (by exact_mod_cast h1)
  rw [this]
  omega

/-! ## The memory port (20_memory.md R61, R78, R79) -/

theorem hostInRange_iff (memSize : Nat) (a : Int) (w : Width) :
    hostInRange memSize a w = true ↔ 0 ≤ a ∧ a + w.bytes ≤ memSize := by
  simp [hostInRange]

/-- A host store writes its bytes, or answers an error and writes none. -/
theorem hostStore_cases (memSize : Nat) (m : Memory) (a : Int) (w : Width) (v : Int) :
    (hostInRange memSize a w = true ∧ hostValueFits w v = true ∧
      hostStore memSize m a w v = (.done, m.writeWidth a.toNat w (BitVec.ofInt 32 v))) ∨
    ((hostInRange memSize a w = false ∨ hostValueFits w v = false) ∧
      ∃ e, hostStore memSize m a w v = (.error e, m)) := by
  unfold hostStore
  cases h1 : hostInRange memSize a w
  · exact .inr ⟨.inl rfl, _, rfl⟩
  · cases h2 : hostValueFits w v
    · exact .inr ⟨.inr rfl, _, rfl⟩
    · exact .inl ⟨rfl, rfl, rfl⟩

/-- A host load changes no memory. -/
theorem hostLoad_snd (memSize : Nat) (m : Memory) (a : Int) (w : Width) (extend : BitVec w.bits → Word) :
    (hostLoad memSize m a w extend).2 = m := by
  unfold hostLoad
  split <;> rfl

/-- The memory after a port operation: unchanged, written by a store that fits, or all zero. -/
theorem memPort_snd (memSize : Nat) (c : MemCommand) (m : Memory) :
    (memPort memSize c m).2 = m ∨ (memPort memSize c m).2 = [] ∨
      ∃ a w v, a + w.bytes ≤ memSize ∧ (memPort memSize c m).2 = m.writeWidth a w v := by
  have store : ∀ a w v, (hostStore memSize m a w v).2 = m ∨ (hostStore memSize m a w v).2 = [] ∨
      ∃ b w' v', b + w'.bytes ≤ memSize ∧ (hostStore memSize m a w v).2 = m.writeWidth b w' v' := by
    intro a w v
    rcases hostStore_cases memSize m a w v with ⟨hr, _, h⟩ | ⟨_, e, h⟩
    · rw [hostInRange_iff] at hr
      exact .inr (.inr ⟨a.toNat, w, _, by omega, by rw [h]⟩)
    · exact .inl (by rw [h])
  cases c with
  | fetchWord a => exact .inl (hostLoad_snd _ _ _ _ _)
  | loadHalf a => exact .inl (hostLoad_snd _ _ _ _ _)
  | loadHalfU a => exact .inl (hostLoad_snd _ _ _ _ _)
  | loadByte a => exact .inl (hostLoad_snd _ _ _ _ _)
  | loadByteU a => exact .inl (hostLoad_snd _ _ _ _ _)
  | storeWord a v => exact store a .word v
  | storeHalf a v => exact store a .half v
  | storeByte a v => exact store a .byte v
  | resetMemory => exact .inr (.inl rfl)

/-! ## What a step reports (48_cpu_driver.md R304) -/

/-- A raised condition is what the step reports. -/
theorem stepResult_raise (s : State) (c : Condition) :
    (s.raise c).stepResult = .halt c ∨ (s.raise c).stepResult = .fault c := by
  cases c <;> simp [State.stepResult, State.raise, Condition.runState]

theorem raise_not_running (s : State) (c : Condition) : (s.raise c).runState ≠ .running := by
  cases c <;> simp [State.raise, Condition.runState]

/-- A step reports Normal and leaves Running, or it reports the condition that it leaves in the report. -/
theorem stepResult_of_step {s t : State} (h : step s = .next t) :
    (t.stepResult = .normal ∧ t.runState = .running) ∨
    ∃ c, t.report = some c ∧ t.runState = c.runState ∧ t.runState ≠ .running ∧
      (t.stepResult = .halt c ∨ t.stepResult = .fault c) := by
  have raised : ∀ (u : State) (d : Condition), ∃ c, (u.raise d).report = some c ∧ (u.raise d).runState = c.runState ∧
      (u.raise d).runState ≠ .running ∧ ((u.raise d).stepResult = .halt c ∨ (u.raise d).stepResult = .fault c) :=
    fun u d => ⟨d, rfl, rfl, raise_not_running u d, stepResult_raise u d⟩
  cases step_inv h with
  | fetchFault => exact .inr (raised _ _)
  | illegal => exact .inr (raised _ _)
  | executed w i t hf hd he hs =>
    cases exec_end_inv he with
    | completes _ h1 =>
      have hr : t.runState = .running := h1
      exact .inl ⟨by simp [State.stepResult, hr], hr⟩
    | ecall => exact .inr (raised _ _)
    | ebreak => exact .inr (raised _ _)
    | range => exact .inr (raised _ _)

/-! ## Images -/

/-- Byte b after an image is placed from address a. -/
theorem Memory.readByte_placeBytes (image : List Byte) (m : Memory) (a b : Nat) :
    (m.placeBytes a image).readByte b =
      if a ≤ b ∧ b < a + image.length then image.getD (b - a) 0#8 else m.readByte b := by
  induction image generalizing m a with
  | nil => simp [Memory.placeBytes]
  | cons x rest ih =>
    rw [Memory.placeBytes, ih, Memory.readByte_writeByte, List.length_cons]
    by_cases hb : b = a
    · subst hb
      simp
    · by_cases hin : a + 1 ≤ b ∧ b < a + 1 + rest.length
      · rw [if_pos hin, if_pos (by omega)]
        obtain ⟨k, hk⟩ : ∃ k, b - a = k + 1 := ⟨b - a - 1, by omega⟩
        rw [show b - (a + 1) = k by omega, hk]
        simp
      · rw [if_neg hin, if_neg hb, if_neg (by omega)]

theorem Memory.placeBytes_wf (image : List Byte) {m : Memory} (a : Nat) (h : Memory.wf m = true) :
    Memory.wf (m.placeBytes a image) = true := by
  induction image generalizing m a with
  | nil => exact h
  | cons x rest ih => exact ih (a + 1) (Memory.writeByte_wf a x h)

theorem Memory.mem_placeBytes (image : List Byte) {m : Memory} {a : Nat} {c : Host.Cell}
    (h : c ∈ m.placeBytes a image) : (a ≤ c.1 ∧ c.1 < a + image.length) ∨ c ∈ m := by
  induction image generalizing m a with
  | nil => exact .inr h
  | cons x rest ih =>
    rw [List.length_cons]
    rcases ih h with h | h
    · omega
    · rcases Cells.mem_write h with h | h
      · omega
      · exact .inr h

/-! ## The invariant through the host's commands -/

theorem State.Inv.coreReset {s : State} (h : s.Inv) : s.coreReset.Inv := by
  refine ⟨h.memSize_le, by simp [State.coreReset, State.resetRegisters], ?_, ?_, rfl, ?_,
    State.reportAgrees_of_running rfl⟩
  · show Memory.wf (if s.cfg.resetClearsMemory then [] else s.mem) = true
    split
    · rfl
    · exact h.mem_wf
  · show ∀ c ∈ (if s.cfg.resetClearsMemory then [] else s.mem), c.1 < s.cfg.memSize
    split
    · simp
    · exact h.mem_bound
  · simp [State.coreReset, State.resetRegisters]

theorem State.Inv.resetRegisters {s : State} (h : s.Inv) : s.resetRegisters.Inv :=
  ⟨h.memSize_le, by simp [State.resetRegisters], h.mem_wf, h.mem_bound, rfl, by simp [State.resetRegisters],
    h.report_agrees⟩

theorem State.Inv.regPort {s : State} (h : s.Inv) (c : RegCommand) : (regPort c s).2.Inv := by
  cases c with
  | getGpr i => unfold Machine.regPort; dsimp only; split <;> exact h
  | setGpr i v =>
    unfold Machine.regPort
    dsimp only
    split
    · exact h.setReg _ _
    · exact h
  | getPc => exact h
  | setPc v => exact h.jump v
  | incrementPc => exact h.advance
  | getCsr i => unfold Machine.regPort; dsimp only; split <;> exact h
  | setCsr i v =>
    unfold Machine.regPort
    dsimp only
    split
    · exact h.setCsr _ _
    · exact h
  | resetRegisters => exact h.resetRegisters

theorem State.Inv.hostCommand {s : State} (h : s.Inv) (c : HostCommand) : (hostCommand c s).2.Inv := by
  cases c with
  | mem m =>
    show State.Inv { s with mem := (memPort s.cfg.memSize m s.mem).2 }
    rcases memPort_snd s.cfg.memSize m s.mem with e | e | ⟨a, w, v, hb, e⟩ <;> rw [e]
    · exact h
    · exact h.withMem rfl (by simp)
    · exact h.writeWidth hb
  | reg r => exact h.regPort r
  | reset => exact h.coreReset

theorem State.Inv.loadImage {s : State} (h : s.Inv) (image : List Byte) : (loadImage image s).2.Inv := by
  unfold Machine.loadImage
  split
  · rename_i hl
    refine h.withMem (Memory.placeBytes_wf image 0 h.mem_wf) fun c hc => ?_
    rcases Memory.mem_placeBytes image hc with ⟨_, h2⟩ | hc
    · omega
    · exact h.mem_bound c hc
  · exact h

end Sys2Proof.Machine
end

