-- ==== Sys2Proof/Laws/OpcodeTable.lean ====
section
/-! SUPPORT. Words against masks, fields and formats: matching an opcode-table row is having its fields, and a word with
given fields is its format's word. -/

namespace Sys2Proof

/-! ## Rows of the opcode table -/

/-- Equality under a mask, bit by bit. -/
theorem and_eq_iff_bits {w m v : Word} (hv : v &&& m = v) :
    w &&& m = v ↔ ∀ i, m.getLsbD i = true → w.getLsbD i = v.getLsbD i := by
  constructor
  · intro h i hm
    rw [← h, BitVec.getLsbD_and, hm, Bool.and_true]
  · intro h
    rw [← hv]
    apply BitVec.eq_of_getLsbD_eq
    intro i _
    rw [BitVec.getLsbD_and, BitVec.getLsbD_and]
    cases hm : m.getLsbD i with
    | false => simp
    | true => rw [h i hm]

/-- Equality of a field, bit by bit. -/
theorem field_eq_iff_bits {w v : Word} (a n : Nat) :
    w.extractLsb' a n = v.extractLsb' a n ↔ ∀ i, i < n → w.getLsbD (a + i) = v.getLsbD (a + i) := by
  constructor
  · intro h i hi
    have := congrArg (fun x => x.getLsbD i) h
    simpa [BitVec.getLsbD_extractLsb', hi] using this
  · intro h
    apply BitVec.eq_of_getLsbD_eq
    intro i hi
    simp [hi, h i hi]

theorem mask_opcode_bit (i : Nat) : (0x0000007F#32).getLsbD i = decide (i < 7) := by
  by_cases h : i < 32
  · interval_cases i <;> rfl
  · rw [BitVec.getLsbD_of_ge _ _ (by omega)]; simp; omega

theorem mask_funct3_bit (i : Nat) : (0x0000707F#32).getLsbD i = (decide (i < 7) || decide (12 ≤ i ∧ i < 15)) := by
  by_cases h : i < 32
  · interval_cases i <;> rfl
  · rw [BitVec.getLsbD_of_ge _ _ (by omega)]; simp; omega

theorem mask_funct7_bit (i : Nat) : (0xFE00707F#32).getLsbD i = (decide (i < 7) || decide (12 ≤ i ∧ i < 15) || decide (25 ≤ i ∧ i < 32)) := by
  by_cases h : i < 32
  · interval_cases i <;> rfl
  · rw [BitVec.getLsbD_of_ge _ _ (by omega)]; simp; omega

/-- Matching a row that fixes the opcode is having its opcode. -/
theorem and_opcode_iff {w v : Word} (hv : v &&& 0x0000007F#32 = v) :
    w &&& 0x0000007F#32 = v ↔ opcodeOf w = opcodeOf v := by
  rw [and_eq_iff_bits hv]
  unfold opcodeOf
  rw [field_eq_iff_bits]
  constructor
  · intro h i hi
    exact h _ (by rw [mask_opcode_bit]; simp; omega)
  · intro h i hi
    rw [mask_opcode_bit] at hi
    have := h i (by simpa using hi)
    simpa using this

/-- Matching a row that fixes opcode and funct3 is having both. -/
theorem and_funct3_iff {w v : Word} (hv : v &&& 0x0000707F#32 = v) :
    w &&& 0x0000707F#32 = v ↔ opcodeOf w = opcodeOf v ∧ funct3Of w = funct3Of v := by
  rw [and_eq_iff_bits hv]
  unfold opcodeOf funct3Of
  rw [field_eq_iff_bits, field_eq_iff_bits]
  constructor
  · intro h
    exact ⟨fun i hi => h _ (by rw [mask_funct3_bit]; simp; omega),
      fun i hi => h _ (by rw [mask_funct3_bit]; simp; omega)⟩
  · intro ⟨h1, h2⟩ i hi
    rw [mask_funct3_bit] at hi
    simp at hi
    rcases hi with hi | hi
    · simpa using h1 i hi
    · have := h2 (i - 12) (by omega)
      rwa [show 12 + (i - 12) = i by omega] at this

/-- Matching a row that fixes opcode, funct3 and inst[31:25] is having all three. -/
theorem and_funct7_iff {w v : Word} (hv : v &&& 0xFE00707F#32 = v) :
    w &&& 0xFE00707F#32 = v ↔ opcodeOf w = opcodeOf v ∧ funct3Of w = funct3Of v ∧ funct7Of w = funct7Of v := by
  rw [and_eq_iff_bits hv]
  unfold opcodeOf funct3Of funct7Of
  rw [field_eq_iff_bits, field_eq_iff_bits, field_eq_iff_bits]
  constructor
  · intro h
    exact ⟨fun i hi => h _ (by rw [mask_funct7_bit]; simp; omega),
      fun i hi => h _ (by rw [mask_funct7_bit]; simp; omega), fun i hi => h _ (by rw [mask_funct7_bit]; simp; omega)⟩
  · intro ⟨h1, h2, h3⟩ i hi
    rw [mask_funct7_bit] at hi
    simp at hi
    rcases hi with (hi | hi) | hi
    · simpa using h1 i hi
    · have := h2 (i - 12) (by omega)
      rwa [show 12 + (i - 12) = i by omega] at this
    · have := h3 (i - 25) (by omega)
      rwa [show 25 + (i - 25) = i by omega] at this

/-! ## A word with given fields, rebuilt -/

theorem encI_of_fields {w : Word} {f3 : BitVec 3} {op : BitVec 7} (ho : opcodeOf w = op) (h3 : funct3Of w = f3) :
    encI f3 op (rdOf w) (rs1Of w) (low12 (immI w)) = w := by
  subst ho
  subst h3
  rw [low12_immI]
  exact encI_fields w

theorem encI_csr_of_fields {w : Word} {f3 : BitVec 3} {op : BitVec 7} (ho : opcodeOf w = op) (h3 : funct3Of w = f3) :
    encI f3 op (rdOf w) (rs1Of w) (csrOf w) = w := by
  subst ho
  subst h3
  exact encI_fields w

theorem encI_zimm_of_fields {w : Word} {f3 : BitVec 3} {op : BitVec 7} (ho : opcodeOf w = op) (h3 : funct3Of w = f3) :
    encI f3 op (rdOf w) (zimmOf w) (csrOf w) = w := encI_csr_of_fields ho h3

theorem encR_of_fields {w : Word} {f7 : BitVec 7} {f3 : BitVec 3} {op : BitVec 7} (ho : opcodeOf w = op)
    (h3 : funct3Of w = f3) (h7 : funct7Of w = f7) :
    encR f7 f3 op (rdOf w) (rs1Of w) (rs2Of w) = w := by
  subst ho
  subst h3
  subst h7
  exact encR_fields w

theorem encR_shamt_of_fields {w : Word} {f7 : BitVec 7} {f3 : BitVec 3} {op : BitVec 7} (ho : opcodeOf w = op)
    (h3 : funct3Of w = f3) (h7 : funct7Of w = f7) :
    encR f7 f3 op (rdOf w) (rs1Of w) (shamtOf w) = w := encR_of_fields ho h3 h7

theorem encS_of_fields {w : Word} {f3 : BitVec 3} {op : BitVec 7} (ho : opcodeOf w = op) (h3 : funct3Of w = f3) :
    encS f3 op (rs2Of w) (rs1Of w) (immS w) = w := by
  subst ho
  subst h3
  exact encS_fields w

theorem encB_of_fields {w : Word} {f3 : BitVec 3} {op : BitVec 7} (ho : opcodeOf w = op) (h3 : funct3Of w = f3) :
    encB f3 op (rs1Of w) (rs2Of w) (immB w) = w := by
  subst ho
  subst h3
  exact encB_fields w

theorem encU_of_fields {w : Word} {op : BitVec 7} (ho : opcodeOf w = op) :
    encU op (rdOf w) (immU w) = w := by
  subst ho
  exact encU_fields w

theorem encJ_of_fields {w : Word} {op : BitVec 7} (ho : opcodeOf w = op) :
    encJ op (rdOf w) (immJ w) = w := by
  subst ho
  exact encJ_fields w

end Sys2Proof
end

