-- ==== Sys2Proof/Laws/PerInstr.lean ====
section
/-! SUPPORT. Laws made per instruction: one lemma for each constructor of Instr. -/

-- One theorem at a time: elaborated side by side, all of them would wait for the same unfolding lemmas, each on a thread.
set_option Elab.async false

namespace Sys2Proof.Laws

/-- The word of a well-formed instruction decodes to that instruction. -/
def DecodesBack.Statement (i : Instr) : Prop := i.wf = true → decode (encode i) = .instr i

theorem DecodesBack.lui (rd : Reg) (imm : Word) : DecodesBack.Statement (.lui rd imm) := by
  intro h
  simp [encode, decode, immU_encU _ _ h]

theorem DecodesBack.auipc (rd : Reg) (imm : Word) : DecodesBack.Statement (.auipc rd imm) := by
  intro h
  simp [encode, decode, immU_encU _ _ h]

theorem DecodesBack.jal (rd : Reg) (off : Word) : DecodesBack.Statement (.jal rd off) := by
  intro h
  simp [encode, decode, immJ_encJ _ _ h]

theorem DecodesBack.jalr (rd rs1 : Reg) (imm : Word) : DecodesBack.Statement (.jalr rd rs1 imm) := by
  intro h
  simp [encode, decode, decodeJalr, immI_encI_low12 _ _ _ _ h]

theorem DecodesBack.beq (rs1 rs2 : Reg) (off : Word) : DecodesBack.Statement (.beq rs1 rs2 off) := by
  intro h
  simp [encode, decode, decodeBranch, immB_encB _ _ _ _ h]

theorem DecodesBack.bne (rs1 rs2 : Reg) (off : Word) : DecodesBack.Statement (.bne rs1 rs2 off) := by
  intro h
  simp [encode, decode, decodeBranch, immB_encB _ _ _ _ h]

theorem DecodesBack.blt (rs1 rs2 : Reg) (off : Word) : DecodesBack.Statement (.blt rs1 rs2 off) := by
  intro h
  simp [encode, decode, decodeBranch, immB_encB _ _ _ _ h]

theorem DecodesBack.bge (rs1 rs2 : Reg) (off : Word) : DecodesBack.Statement (.bge rs1 rs2 off) := by
  intro h
  simp [encode, decode, decodeBranch, immB_encB _ _ _ _ h]

theorem DecodesBack.bltu (rs1 rs2 : Reg) (off : Word) : DecodesBack.Statement (.bltu rs1 rs2 off) := by
  intro h
  simp [encode, decode, decodeBranch, immB_encB _ _ _ _ h]

theorem DecodesBack.bgeu (rs1 rs2 : Reg) (off : Word) : DecodesBack.Statement (.bgeu rs1 rs2 off) := by
  intro h
  simp [encode, decode, decodeBranch, immB_encB _ _ _ _ h]

theorem DecodesBack.lb (rd rs1 : Reg) (imm : Word) : DecodesBack.Statement (.lb rd rs1 imm) := by
  intro h
  simp [encode, decode, decodeLoad, immI_encI_low12 _ _ _ _ h]

theorem DecodesBack.lh (rd rs1 : Reg) (imm : Word) : DecodesBack.Statement (.lh rd rs1 imm) := by
  intro h
  simp [encode, decode, decodeLoad, immI_encI_low12 _ _ _ _ h]

theorem DecodesBack.lw (rd rs1 : Reg) (imm : Word) : DecodesBack.Statement (.lw rd rs1 imm) := by
  intro h
  simp [encode, decode, decodeLoad, immI_encI_low12 _ _ _ _ h]

theorem DecodesBack.lbu (rd rs1 : Reg) (imm : Word) : DecodesBack.Statement (.lbu rd rs1 imm) := by
  intro h
  simp [encode, decode, decodeLoad, immI_encI_low12 _ _ _ _ h]

theorem DecodesBack.lhu (rd rs1 : Reg) (imm : Word) : DecodesBack.Statement (.lhu rd rs1 imm) := by
  intro h
  simp [encode, decode, decodeLoad, immI_encI_low12 _ _ _ _ h]

theorem DecodesBack.sb (rs2 rs1 : Reg) (imm : Word) : DecodesBack.Statement (.sb rs2 rs1 imm) := by
  intro h
  simp [encode, decode, decodeStore, immS_encS _ _ _ _ h]

theorem DecodesBack.sh (rs2 rs1 : Reg) (imm : Word) : DecodesBack.Statement (.sh rs2 rs1 imm) := by
  intro h
  simp [encode, decode, decodeStore, immS_encS _ _ _ _ h]

theorem DecodesBack.sw (rs2 rs1 : Reg) (imm : Word) : DecodesBack.Statement (.sw rs2 rs1 imm) := by
  intro h
  simp [encode, decode, decodeStore, immS_encS _ _ _ _ h]

theorem DecodesBack.addi (rd rs1 : Reg) (imm : Word) : DecodesBack.Statement (.addi rd rs1 imm) := by
  intro h
  simp [encode, decode, decodeOpImm, immI_encI_low12 _ _ _ _ h]

theorem DecodesBack.slti (rd rs1 : Reg) (imm : Word) : DecodesBack.Statement (.slti rd rs1 imm) := by
  intro h
  simp [encode, decode, decodeOpImm, immI_encI_low12 _ _ _ _ h]

theorem DecodesBack.sltiu (rd rs1 : Reg) (imm : Word) : DecodesBack.Statement (.sltiu rd rs1 imm) := by
  intro h
  simp [encode, decode, decodeOpImm, immI_encI_low12 _ _ _ _ h]

theorem DecodesBack.xori (rd rs1 : Reg) (imm : Word) : DecodesBack.Statement (.xori rd rs1 imm) := by
  intro h
  simp [encode, decode, decodeOpImm, immI_encI_low12 _ _ _ _ h]

theorem DecodesBack.ori (rd rs1 : Reg) (imm : Word) : DecodesBack.Statement (.ori rd rs1 imm) := by
  intro h
  simp [encode, decode, decodeOpImm, immI_encI_low12 _ _ _ _ h]

theorem DecodesBack.andi (rd rs1 : Reg) (imm : Word) : DecodesBack.Statement (.andi rd rs1 imm) := by
  intro h
  simp [encode, decode, decodeOpImm, immI_encI_low12 _ _ _ _ h]

theorem DecodesBack.slli (rd rs1 : Reg) (shamt : BitVec 5) : DecodesBack.Statement (.slli rd rs1 shamt) := by
  intro _
  simp [encode, decode, decodeOpImm]

theorem DecodesBack.srli (rd rs1 : Reg) (shamt : BitVec 5) : DecodesBack.Statement (.srli rd rs1 shamt) := by
  intro _
  simp [encode, decode, decodeOpImm]

theorem DecodesBack.srai (rd rs1 : Reg) (shamt : BitVec 5) : DecodesBack.Statement (.srai rd rs1 shamt) := by
  intro _
  simp [encode, decode, decodeOpImm]

theorem DecodesBack.add (rd rs1 rs2 : Reg) : DecodesBack.Statement (.add rd rs1 rs2) := by
  intro _
  simp [encode, decode, decodeOp]

theorem DecodesBack.sub (rd rs1 rs2 : Reg) : DecodesBack.Statement (.sub rd rs1 rs2) := by
  intro _
  simp [encode, decode, decodeOp]

theorem DecodesBack.sll (rd rs1 rs2 : Reg) : DecodesBack.Statement (.sll rd rs1 rs2) := by
  intro _
  simp [encode, decode, decodeOp]

theorem DecodesBack.slt (rd rs1 rs2 : Reg) : DecodesBack.Statement (.slt rd rs1 rs2) := by
  intro _
  simp [encode, decode, decodeOp]

theorem DecodesBack.sltu (rd rs1 rs2 : Reg) : DecodesBack.Statement (.sltu rd rs1 rs2) := by
  intro _
  simp [encode, decode, decodeOp]

theorem DecodesBack.xor (rd rs1 rs2 : Reg) : DecodesBack.Statement (.xor rd rs1 rs2) := by
  intro _
  simp [encode, decode, decodeOp]

theorem DecodesBack.srl (rd rs1 rs2 : Reg) : DecodesBack.Statement (.srl rd rs1 rs2) := by
  intro _
  simp [encode, decode, decodeOp]

theorem DecodesBack.sra (rd rs1 rs2 : Reg) : DecodesBack.Statement (.sra rd rs1 rs2) := by
  intro _
  simp [encode, decode, decodeOp]

theorem DecodesBack.or (rd rs1 rs2 : Reg) : DecodesBack.Statement (.or rd rs1 rs2) := by
  intro _
  simp [encode, decode, decodeOp]

theorem DecodesBack.and (rd rs1 rs2 : Reg) : DecodesBack.Statement (.and rd rs1 rs2) := by
  intro _
  simp [encode, decode, decodeOp]

theorem DecodesBack.fence (ordering : BitVec 12) (rs1 rd : Reg) : DecodesBack.Statement (.fence ordering rs1 rd) := by
  intro _
  simp [encode, decode, decodeMiscMem]

theorem DecodesBack.ecall : DecodesBack.Statement (.ecall) := by
  intro _
  decide

theorem DecodesBack.ebreak : DecodesBack.Statement (.ebreak) := by
  intro _
  decide

theorem DecodesBack.csrrw (rd : Reg) (csr : CsrAddr) (rs1 : Reg) : DecodesBack.Statement (.csrrw rd csr rs1) := by
  intro _
  simp [encode, decode, decodeSystem]

theorem DecodesBack.csrrs (rd : Reg) (csr : CsrAddr) (rs1 : Reg) : DecodesBack.Statement (.csrrs rd csr rs1) := by
  intro _
  simp [encode, decode, decodeSystem]

theorem DecodesBack.csrrc (rd : Reg) (csr : CsrAddr) (rs1 : Reg) : DecodesBack.Statement (.csrrc rd csr rs1) := by
  intro _
  simp [encode, decode, decodeSystem]

theorem DecodesBack.csrrwi (rd : Reg) (csr : CsrAddr) (zimm : BitVec 5) : DecodesBack.Statement (.csrrwi rd csr zimm) := by
  intro _
  simp [encode, decode, decodeSystem]

theorem DecodesBack.csrrsi (rd : Reg) (csr : CsrAddr) (zimm : BitVec 5) : DecodesBack.Statement (.csrrsi rd csr zimm) := by
  intro _
  simp [encode, decode, decodeSystem]

theorem DecodesBack.csrrci (rd : Reg) (csr : CsrAddr) (zimm : BitVec 5) : DecodesBack.Statement (.csrrci rd csr zimm) := by
  intro _
  simp [encode, decode, decodeSystem]

end Sys2Proof.Laws
end

