-- ==== Sys2Proof/Tests/Slice0.lean ====
section
/-! SUPPORT. Tests, each of one step on a small state: the WellFormed smoke, decoding of words written out from
30_encoding.md, vectors of 95_test_vectors.md (named by their id V<n>), and a witness for the hypotheses of every
obligation that has some. -/

-- One theorem at a time, as in Laws/PerInstr.lean.
set_option Elab.async false

namespace Sys2Proof.Machine.Tests

/-! ## Helpers -/

/-- A state with some registers, CSR cells, bytes and the PC set. -/
def put (s : State) (pc : Word) (regs : List (Reg × Word)) (csrs : List (CsrAddr × Word)) (bytes : List (Nat × Byte)) :
    State :=
  let s1 := regs.foldl (fun s r => s.setReg r.1 r.2) s
  let s2 := csrs.foldl (fun s c => s.setCsr c.1 c.2) s1
  { s2 with mem := bytes.foldl (fun m b => m.writeByte b.1 b.2) s2.mem, pc := pc }

/-- The start of a vector: after reset with MEM_SIZE = 0x2000, the listed values set and the word at the PC. -/
def start (pc w : Word) (regs : List (Reg × Word)) (csrs : List (CsrAddr × Word)) (bytes : List (Nat × Byte)) : State :=
  (put (State.afterReset ⟨0x2000, false⟩ []) pc regs csrs bytes).placeAtPc w

/-- The next state of a step, if there is one. -/
def after (s : State) : Option State :=
  match step s with
  | .next t => some t
  | .fault _ => none
  | .refused _ => none

/-- The step from s ends in s with the listed values written and nothing else. -/
abbrev Ends (s : State) (pc : Word) (regs : List (Reg × Word)) (csrs : List (CsrAddr × Word))
    (bytes : List (Nat × Byte)) : Prop :=
  after s = some (put s pc regs csrs bytes)

/-- The step from s ends in the condition c. -/
abbrev Raises (s : State) (c : Condition) : Prop := after s = some (s.raise c)

theorem step_of_after {s t : State} (h : after s = some t) : step s = .next t := by
  unfold after at h
  split at h
  · next hs => cases h; exact hs
  · cases h
  · cases h

/-! ## WellFormed smoke: for each check an ill-formed term, and the last well-formed ones on either side -/

theorem test_wf_imm12 :
    Instr.wf (.addi 1#5 2#5 2048#32) = false ∧ Instr.wf (.addi 1#5 2#5 (-2049#32)) = false ∧
    Instr.wf (.addi 1#5 2#5 2047#32) = true ∧ Instr.wf (.lw 1#5 2#5 (-2048#32)) = true ∧
    Instr.wf (.sw 1#5 2#5 2048#32) = false ∧ Instr.wf (.jalr 1#5 2#5 (-2049#32)) = false := by decide +kernel

theorem test_wf_branch :
    Instr.wf (.beq 1#5 2#5 4096#32) = false ∧ Instr.wf (.beq 1#5 2#5 (-4098#32)) = false ∧
    Instr.wf (.bne 1#5 2#5 3#32) = false ∧ Instr.wf (.blt 1#5 2#5 4094#32) = true ∧
    Instr.wf (.bgeu 1#5 2#5 (-4096#32)) = true := by decide +kernel

theorem test_wf_jump :
    Instr.wf (.jal 1#5 1048576#32) = false ∧ Instr.wf (.jal 1#5 (-1048578#32)) = false ∧
    Instr.wf (.jal 1#5 1#32) = false ∧ Instr.wf (.jal 1#5 1048574#32) = true ∧
    Instr.wf (.jal 1#5 (-1048576#32)) = true := by decide +kernel

theorem test_wf_upper :
    Instr.wf (.lui 1#5 0x12345001#32) = false ∧ Instr.wf (.auipc 1#5 0x800#32) = false ∧
    Instr.wf (.lui 1#5 0xFFFFF000#32) = true := by decide +kernel

/-! ## Decoding: every constructor, from the fields of R102 to R107 and the values of R115 to R117 -/

theorem test_decode_upper :
    decode 0b10000000000000000001_11101_0110111#32 = .instr (.lui 29#5 0x80001000#32) ∧
    decode 0b10101011110011011110_00011_0010111#32 = .instr (.auipc 3#5 0xABCDE000#32) := by decide +kernel

theorem test_decode_jumps :
    decode 0b1_0000000000_0_00000000_00001_1101111#32 = .instr (.jal 1#5 0xFFF00000#32) ∧
    decode 0b0_0000000001_1_01010100_10001_1101111#32 = .instr (.jal 17#5 0x00054802#32) ∧
    decode 0b0_1111111110_0_10101011_10001_1101111#32 = .instr (.jal 17#5 0x000AB7FC#32) ∧
    decode 0b100000000000_10101_000_01010_1100111#32 = .instr (.jalr 10#5 21#5 0xFFFFF800#32) := by decide +kernel

theorem test_decode_branches :
    decode 0b1_000000_10110_01001_000_0000_0_1100011#32 = .instr (.beq 9#5 22#5 0xFFFFF000#32) ∧
    decode 0b0_111111_10110_01001_001_1111_1_1100011#32 = .instr (.bne 9#5 22#5 0x00000FFE#32) ∧
    decode 0b0_101010_10110_01001_100_1010_0_1100011#32 = .instr (.blt 9#5 22#5 0x00000554#32) ∧
    decode 0b0_010101_10110_01001_101_0101_1_1100011#32 = .instr (.bge 9#5 22#5 0x00000AAA#32) ∧
    decode 0b1_111111_10110_01001_110_1111_1_1100011#32 = .instr (.bltu 9#5 22#5 0xFFFFFFFE#32) ∧
    decode 0b0_000000_10110_01001_111_0000_1_1100011#32 = .instr (.bgeu 9#5 22#5 0x00000800#32) := by decide +kernel

theorem test_decode_loads :
    decode 0b011111111111_11001_000_00110_0000011#32 = .instr (.lb 6#5 25#5 0x000007FF#32) ∧
    decode 0b100000000000_11001_001_00110_0000011#32 = .instr (.lh 6#5 25#5 0xFFFFF800#32) ∧
    decode 0b111111111111_11001_010_00110_0000011#32 = .instr (.lw 6#5 25#5 0xFFFFFFFF#32) ∧
    decode 0b010101010101_11001_100_00110_0000011#32 = .instr (.lbu 6#5 25#5 0x00000555#32) ∧
    decode 0b101010101010_11001_101_00110_0000011#32 = .instr (.lhu 6#5 25#5 0xFFFFFAAA#32) := by decide +kernel

theorem test_decode_stores :
    decode 0b0111111_01110_10011_000_11111_0100011#32 = .instr (.sb 14#5 19#5 0x000007FF#32) ∧
    decode 0b1000000_01110_10011_001_00000_0100011#32 = .instr (.sh 14#5 19#5 0xFFFFF800#32) ∧
    decode 0b0010101_01110_10011_010_10101_0100011#32 = .instr (.sw 14#5 19#5 0x000002B5#32) := by decide +kernel

theorem test_decode_op_imm :
    decode 0b100000000000_00111_000_01100_0010011#32 = .instr (.addi 12#5 7#5 0xFFFFF800#32) ∧
    decode 0b011111111111_00111_010_01100_0010011#32 = .instr (.slti 12#5 7#5 0x000007FF#32) ∧
    decode 0b111111111111_00111_011_01100_0010011#32 = .instr (.sltiu 12#5 7#5 0xFFFFFFFF#32) ∧
    decode 0b010101010101_00111_100_01100_0010011#32 = .instr (.xori 12#5 7#5 0x00000555#32) ∧
    decode 0b000000000001_00111_110_01100_0010011#32 = .instr (.ori 12#5 7#5 0x00000001#32) ∧
    decode 0b101010101010_00111_111_01100_0010011#32 = .instr (.andi 12#5 7#5 0xFFFFFAAA#32) ∧
    decode 0b0000000_11111_00111_001_01100_0010011#32 = .instr (.slli 12#5 7#5 31#5) ∧
    decode 0b0000000_10101_00111_101_01100_0010011#32 = .instr (.srli 12#5 7#5 21#5) ∧
    decode 0b0100000_01010_00111_101_01100_0010011#32 = .instr (.srai 12#5 7#5 10#5) := by decide +kernel

theorem test_decode_op :
    decode 0b0000000_10010_01101_000_11110_0110011#32 = .instr (.add 30#5 13#5 18#5) ∧
    decode 0b0100000_10010_01101_000_11110_0110011#32 = .instr (.sub 30#5 13#5 18#5) ∧
    decode 0b0000000_10010_01101_001_11110_0110011#32 = .instr (.sll 30#5 13#5 18#5) ∧
    decode 0b0000000_10010_01101_010_11110_0110011#32 = .instr (.slt 30#5 13#5 18#5) ∧
    decode 0b0000000_10010_01101_011_11110_0110011#32 = .instr (.sltu 30#5 13#5 18#5) ∧
    decode 0b0000000_10010_01101_100_11110_0110011#32 = .instr (.xor 30#5 13#5 18#5) ∧
    decode 0b0000000_10010_01101_101_11110_0110011#32 = .instr (.srl 30#5 13#5 18#5) ∧
    decode 0b0100000_10010_01101_101_11110_0110011#32 = .instr (.sra 30#5 13#5 18#5) ∧
    decode 0b0000000_10010_01101_110_11110_0110011#32 = .instr (.or 30#5 13#5 18#5) ∧
    decode 0b0000000_10010_01101_111_11110_0110011#32 = .instr (.and 30#5 13#5 18#5) := by decide +kernel

theorem test_decode_system :
    decode 0b100000110011_01011_000_00001_0001111#32 = .instr (.fence 0x833#12 11#5 1#5) ∧
    decode 0b000000000000_00000_000_00000_1110011#32 = .instr (.ecall) ∧
    decode 0b000000000001_00000_000_00000_1110011#32 = .instr (.ebreak) := by decide +kernel

theorem test_decode_zicsr :
    decode 0b110000000101_00101_001_11000_1110011#32 = .instr (.csrrw 24#5 0xC05#12 5#5) ∧
    decode 0b110000000101_00101_010_11000_1110011#32 = .instr (.csrrs 24#5 0xC05#12 5#5) ∧
    decode 0b110000000101_00101_011_11000_1110011#32 = .instr (.csrrc 24#5 0xC05#12 5#5) ∧
    decode 0b110000000101_00101_101_11000_1110011#32 = .instr (.csrrwi 24#5 0xC05#12 5#5) ∧
    decode 0b110000000101_00101_110_11000_1110011#32 = .instr (.csrrsi 24#5 0xC05#12 5#5) ∧
    decode 0b110000000101_00101_111_11000_1110011#32 = .instr (.csrrci 24#5 0xC05#12 5#5) := by decide +kernel

/-- V153 to V171: words the decoder refuses (R117 to R120). -/
theorem test_decode_undecoded :
    [0x00000000#32, 0xFFFFFFFF#32, 0x0000001B#32, 0x02208133#32, 0x40409193#32, 0x0240D193#32, 0x40001033#32,
      0x00001067#32, 0x00002063#32, 0x00003003#32, 0x00003023#32, 0x0000100F#32, 0x30200073#32, 0x10500073#32,
      0x000000F3#32, 0x00108073#32, 0x00004073#32, 0x00000001#32, 0x0000202F#32].all
      (fun w => (decode w).toOption.isNone) = true := by decide +kernel

/-- The table's word numbering: bit 0 is the least significant bit of the byte at the lowest address. -/
theorem test_decodeTableWord :
    decodeTableWord 32 0x00108193 = some (.addi 3#5 1#5 1#32) ∧ decodeTableWord 32 0 = none := by decide +kernel

/-! ## One step: the vectors of 95_test_vectors.md -/

/-- V2 and V4. -/
theorem test_lui :
    Ends (start 0x00000040#32 0x800000B7#32 [] [] [])
      0x00000044#32 [(1#5, 0x80000000#32)] [] [] ∧
    Ends (start 0x00000040#32 0x12345037#32 [] [] [])
      0x00000044#32 [] [] [] := by decide +kernel

/-- V5 and V7. -/
theorem test_auipc :
    Ends (start 0x00000100#32 0x12345097#32 [] [] [])
      0x00000104#32 [(1#5, 0x12345100#32)] [] [] ∧
    Ends (start 0x00000040#32 0xFFFFF097#32 [] [] [])
      0x00000044#32 [(1#5, 0xFFFFF040#32)] [] [] := by decide +kernel

/-- V10 and V14. -/
theorem test_addi :
    Ends (start 0x00000040#32 0x00108193#32 [(1#5, 0x7FFFFFFF#32)] [] [])
      0x00000044#32 [(3#5, 0x80000000#32)] [] [] ∧
    Ends (start 0x00000040#32 0x00108013#32 [(1#5, 0x00000005#32)] [] [])
      0x00000044#32 [] [] [] := by decide +kernel

/-- V16 and V17. -/
theorem test_slti :
    Ends (start 0x00000040#32 0xFFF0A193#32 [(1#5, 0x80000000#32)] [] [])
      0x00000044#32 [(3#5, 0x00000001#32)] [] [] ∧
    Ends (start 0x00000040#32 0xFFF0A193#32 [] [] [])
      0x00000044#32 [(3#5, 0x00000000#32)] [] [] := by decide +kernel

/-- V39 and V20. -/
theorem test_sltiu :
    Ends (start 0x00000040#32 0x8000B193#32 [(1#5, 0xFFFFF7FF#32)] [] [])
      0x00000044#32 [(3#5, 0x00000001#32)] [] [] ∧
    Ends (start 0x00000040#32 0xFFF0B193#32 [(1#5, 0xFFFFFFFF#32)] [] [])
      0x00000044#32 [(3#5, 0x00000000#32)] [] [] := by decide +kernel

/-- V24 and V25. -/
theorem test_xori :
    Ends (start 0x00000040#32 0xFFF0C193#32 [(1#5, 0x0F0F0F0F#32)] [] [])
      0x00000044#32 [(3#5, 0xF0F0F0F0#32)] [] [] ∧
    Ends (start 0x00000040#32 0x7FF0C193#32 [(1#5, 0x000007FF#32)] [] [])
      0x00000044#32 [(3#5, 0x00000000#32)] [] [] := by decide +kernel

/-- V26 and V27. -/
theorem test_ori :
    Ends (start 0x00000040#32 0x0F00E193#32 [(1#5, 0x0000000F#32)] [] [])
      0x00000044#32 [(3#5, 0x000000FF#32)] [] [] ∧
    Ends (start 0x00000040#32 0x8000E193#32 [] [] [])
      0x00000044#32 [(3#5, 0xFFFFF800#32)] [] [] := by decide +kernel

/-- V28 and V29. -/
theorem test_andi :
    Ends (start 0x00000040#32 0x0FF0F193#32 [(1#5, 0x12345678#32)] [] [])
      0x00000044#32 [(3#5, 0x00000078#32)] [] [] ∧
    Ends (start 0x00000040#32 0xFF00F193#32 [(1#5, 0x12345678#32)] [] [])
      0x00000044#32 [(3#5, 0x12345670#32)] [] [] := by decide +kernel

/-- V30 and V31. -/
theorem test_slli :
    Ends (start 0x00000040#32 0x00409193#32 [(1#5, 0x80000001#32)] [] [])
      0x00000044#32 [(3#5, 0x00000010#32)] [] [] ∧
    Ends (start 0x00000040#32 0x01F09193#32 [(1#5, 0x00000001#32)] [] [])
      0x00000044#32 [(3#5, 0x80000000#32)] [] [] := by decide +kernel

/-- V33 and V34. -/
theorem test_srli :
    Ends (start 0x00000040#32 0x0040D193#32 [(1#5, 0x80000000#32)] [] [])
      0x00000044#32 [(3#5, 0x08000000#32)] [] [] ∧
    Ends (start 0x00000040#32 0x01F0D193#32 [(1#5, 0x80000000#32)] [] [])
      0x00000044#32 [(3#5, 0x00000001#32)] [] [] := by decide +kernel

/-- V35 and V36. -/
theorem test_srai :
    Ends (start 0x00000040#32 0x4040D193#32 [(1#5, 0x80000000#32)] [] [])
      0x00000044#32 [(3#5, 0xF8000000#32)] [] [] ∧
    Ends (start 0x00000040#32 0x41F0D193#32 [(1#5, 0x80000000#32)] [] [])
      0x00000044#32 [(3#5, 0xFFFFFFFF#32)] [] [] := by decide +kernel

/-- V42 and V67. -/
theorem test_add :
    Ends (start 0x00000040#32 0x002081B3#32 [(1#5, 0x7FFFFFFF#32), (2#5, 0x00000001#32)] [] [])
      0x00000044#32 [(3#5, 0x80000000#32)] [] [] ∧
    Ends (start 0x00000040#32 0x00208033#32 [(1#5, 0x00000001#32), (2#5, 0x00000002#32)] [] [])
      0x00000044#32 [] [] [] := by decide +kernel

/-- V45 and V46. -/
theorem test_sub :
    Ends (start 0x00000040#32 0x402081B3#32 [(2#5, 0x00000001#32)] [] [])
      0x00000044#32 [(3#5, 0xFFFFFFFF#32)] [] [] ∧
    Ends (start 0x00000040#32 0x402081B3#32 [(1#5, 0x80000000#32), (2#5, 0x00000001#32)] [] [])
      0x00000044#32 [(3#5, 0x7FFFFFFF#32)] [] [] := by decide +kernel

/-- V50 and V51. -/
theorem test_sll :
    Ends (start 0x00000040#32 0x002091B3#32 [(1#5, 0x00000001#32), (2#5, 0x00000020#32)] [] [])
      0x00000044#32 [(3#5, 0x00000001#32)] [] [] ∧
    Ends (start 0x00000040#32 0x002091B3#32 [(1#5, 0x00000001#32), (2#5, 0xFFFFFFE1#32)] [] [])
      0x00000044#32 [(3#5, 0x00000002#32)] [] [] := by decide +kernel

/-- V53 and V54. -/
theorem test_slt :
    Ends (start 0x00000040#32 0x0020A1B3#32 [(1#5, 0x80000000#32), (2#5, 0x7FFFFFFF#32)] [] [])
      0x00000044#32 [(3#5, 0x00000001#32)] [] [] ∧
    Ends (start 0x00000040#32 0x0020A1B3#32 [(1#5, 0x00000005#32), (2#5, 0x00000005#32)] [] [])
      0x00000044#32 [(3#5, 0x00000000#32)] [] [] := by decide +kernel

/-- V55 and V56. -/
theorem test_sltu :
    Ends (start 0x00000040#32 0x0020B233#32 [(1#5, 0xFFFFFFFF#32), (2#5, 0x00000005#32)] [] [])
      0x00000044#32 [(4#5, 0x00000000#32)] [] [] ∧
    Ends (start 0x00000040#32 0x0020B233#32 [(1#5, 0x80000000#32), (2#5, 0x7FFFFFFF#32)] [] [])
      0x00000044#32 [(4#5, 0x00000000#32)] [] [] := by decide +kernel

/-- V58 and V59. -/
theorem test_xor :
    Ends (start 0x00000040#32 0x0020C1B3#32 [(1#5, 0xFF00FF00#32), (2#5, 0x0F0F0F0F#32)] [] [])
      0x00000044#32 [(3#5, 0xF00FF00F#32)] [] [] ∧
    Ends (start 0x00000040#32 0x0010C1B3#32 [(1#5, 0xDEADBEEF#32)] [] [])
      0x00000044#32 [(3#5, 0x00000000#32)] [] [] := by decide +kernel

/-- V60 and V61. -/
theorem test_srl :
    Ends (start 0x00000040#32 0x0020D1B3#32 [(1#5, 0x80000000#32), (2#5, 0x0000001F#32)] [] [])
      0x00000044#32 [(3#5, 0x00000001#32)] [] [] ∧
    Ends (start 0x00000040#32 0x0020D1B3#32 [(1#5, 0x80000000#32), (2#5, 0x00000021#32)] [] [])
      0x00000044#32 [(3#5, 0x40000000#32)] [] [] := by decide +kernel

/-- V63 and V64. -/
theorem test_sra :
    Ends (start 0x00000040#32 0x4020D1B3#32 [(1#5, 0x80000000#32), (2#5, 0x00000024#32)] [] [])
      0x00000044#32 [(3#5, 0xF8000000#32)] [] [] ∧
    Ends (start 0x00000040#32 0x4020D1B3#32 [(1#5, 0x7FFFFFFF#32), (2#5, 0x0000001E#32)] [] [])
      0x00000044#32 [(3#5, 0x00000001#32)] [] [] := by decide +kernel

/-- V65. -/
theorem test_or :
    Ends (start 0x00000040#32 0x0020E1B3#32 [(1#5, 0xF0F0F0F0#32), (2#5, 0x0F0F0F0F#32)] [] [])
      0x00000044#32 [(3#5, 0xFFFFFFFF#32)] [] [] := by decide +kernel

/-- V66. -/
theorem test_and :
    Ends (start 0x00000040#32 0x0020F1B3#32 [(1#5, 0xF0F0F0F0#32), (2#5, 0x3C3C3C3C#32)] [] [])
      0x00000044#32 [(3#5, 0x30303030#32)] [] [] := by decide +kernel

/-- V80 and V85. -/
theorem test_lb :
    Ends (start 0x00000040#32 0x00008103#32 [(1#5, 0x00001FFF#32)] [] [(0x1FFF, 0xC3#8)])
      0x00000044#32 [(2#5, 0xFFFFFFC3#32)] [] [] ∧
    Raises (start 0x00000040#32 0x00008103#32 [(1#5, 0xFFFFFFFF#32)] [] [])
      (.memoryRangeViolation 0x00000040#32 (some 0x00008103#32) 0xFFFFFFFF#32 .byte) := by decide +kernel

/-- V73 and V81. -/
theorem test_lh :
    Ends (start 0x00000040#32 0x00109103#32 [(1#5, 0x00000100#32)] [] [(0x100, 0x80#8), (0x101, 0x90#8), (0x102, 0xA0#8), (0x103, 0x7F#8)])
      0x00000044#32 [(2#5, 0xFFFFA090#32)] [] [] ∧
    Raises (start 0x00000040#32 0x00009103#32 [(1#5, 0x00001FFF#32)] [] [])
      (.memoryRangeViolation 0x00000040#32 (some 0x00009103#32) 0x00001FFF#32 .half) := by decide +kernel

/-- V82 and V89. -/
theorem test_lw :
    Ends (start 0x00000040#32 0xFFC0A103#32 [(1#5, 0x00002000#32)] [] [(0x1FFC, 0x11#8), (0x1FFD, 0x22#8), (0x1FFE, 0x33#8), (0x1FFF, 0x44#8)])
      0x00000044#32 [(2#5, 0x44332211#32)] [] [] ∧
    Raises (start 0x00000040#32 0x0000A003#32 [(1#5, 0x00002000#32)] [] [])
      (.memoryRangeViolation 0x00000040#32 (some 0x0000A003#32) 0x00002000#32 .word) := by decide +kernel

/-- V76 and V87. -/
theorem test_lbu :
    Ends (start 0x00000040#32 0x0000C103#32 [(1#5, 0x00000100#32)] [] [(0x100, 0x80#8), (0x101, 0x90#8), (0x102, 0xA0#8), (0x103, 0x7F#8)])
      0x00000044#32 [(2#5, 0x00000080#32)] [] [] ∧
    Raises (start 0x00000040#32 0x0010C103#32 [(1#5, 0x7FFFFFFF#32)] [] [])
      (.memoryRangeViolation 0x00000040#32 (some 0x0010C103#32) 0x80000000#32 .byte) := by decide +kernel

/-- V77 and V78. -/
theorem test_lhu :
    Ends (start 0x00000040#32 0x0000D103#32 [(1#5, 0x00000100#32)] [] [(0x100, 0x80#8), (0x101, 0x90#8), (0x102, 0xA0#8), (0x103, 0x7F#8)])
      0x00000044#32 [(2#5, 0x00009080#32)] [] [] ∧
    Ends (start 0x00000040#32 0x0010D103#32 [(1#5, 0x00000100#32)] [] [(0x100, 0x80#8), (0x101, 0x90#8), (0x102, 0xA0#8), (0x103, 0x7F#8)])
      0x00000044#32 [(2#5, 0x0000A090#32)] [] [] := by decide +kernel

/-- V103 and V102. -/
theorem test_sb :
    Ends (start 0x00000040#32 0x80208023#32 [(1#5, 0x00000900#32), (2#5, 0x00000077#32)] [] [])
      0x00000044#32 [] [] [(0x100, 0x77#8)] ∧
    Raises (start 0x00000040#32 0x00208023#32 [(1#5, 0x80000000#32), (2#5, 0x00000001#32)] [] [])
      (.memoryRangeViolation 0x00000040#32 (some 0x00208023#32) 0x80000000#32 .byte) := by decide +kernel

/-- V93 and V101. -/
theorem test_sh :
    Ends (start 0x00000040#32 0x002090A3#32 [(1#5, 0x00000100#32), (2#5, 0x12345678#32)] [] [])
      0x00000044#32 [] [] [(0x101, 0x78#8), (0x102, 0x56#8)] ∧
    Raises (start 0x00000040#32 0xFE209FA3#32 [(1#5, 0x00002000#32), (2#5, 0x0000FFFF#32)] [] [])
      (.memoryRangeViolation 0x00000040#32 (some 0xFE209FA3#32) 0x00001FFF#32 .half) := by decide +kernel

/-- V96 and V100. -/
theorem test_sw :
    Ends (start 0x00000040#32 0x0020A1A3#32 [(1#5, 0x00000100#32), (2#5, 0xA1B2C3D4#32)] [] [])
      0x00000044#32 [] [] [(0x103, 0xD4#8), (0x104, 0xC3#8), (0x105, 0xB2#8), (0x106, 0xA1#8)] ∧
    Raises (start 0x00000040#32 0xFE20AF23#32 [(1#5, 0x00002000#32), (2#5, 0x01020304#32)] [] [])
      (.memoryRangeViolation 0x00000040#32 (some 0xFE20AF23#32) 0x00001FFE#32 .word) := by decide +kernel

/-- V106 and V108. -/
theorem test_beq :
    Ends (start 0x00000040#32 0x00000063#32 [] [] [])
      0x00000040#32 [] [] [] ∧
    Ends (start 0x00000000#32 0xFE000CE3#32 [] [] [])
      0xFFFFFFF8#32 [] [] [] := by decide +kernel

/-- V110 and V111. -/
theorem test_bne :
    Ends (start 0x00000040#32 0x00209463#32 [(1#5, 0x00000002#32), (2#5, 0x00000002#32)] [] [])
      0x00000044#32 [] [] [] ∧
    Ends (start 0x00000040#32 0x00209363#32 [(1#5, 0x00000001#32)] [] [])
      0x00000046#32 [] [] [] := by decide +kernel

/-- V112 and V113. -/
theorem test_blt :
    Ends (start 0x00000040#32 0xFE20CEE3#32 [(1#5, 0xFFFFFFFF#32), (2#5, 0x00000001#32)] [] [])
      0x0000003C#32 [] [] [] ∧
    Ends (start 0x00000040#32 0xFE20CEE3#32 [(1#5, 0x00000001#32), (2#5, 0xFFFFFFFF#32)] [] [])
      0x00000044#32 [] [] [] := by decide +kernel

/-- V115 and V116. -/
theorem test_bge :
    Ends (start 0x00000040#32 0x0020D463#32 [(1#5, 0x00000003#32), (2#5, 0x00000003#32)] [] [])
      0x00000048#32 [] [] [] ∧
    Ends (start 0x00000040#32 0x0020D463#32 [(1#5, 0x80000000#32)] [] [])
      0x00000044#32 [] [] [] := by decide +kernel

/-- V117 and V118. -/
theorem test_bltu :
    Ends (start 0x00000040#32 0x0020E463#32 [(1#5, 0xFFFFFFFF#32), (2#5, 0x00000001#32)] [] [])
      0x00000044#32 [] [] [] ∧
    Ends (start 0x00000040#32 0x0020E463#32 [(2#5, 0xFFFFFFFF#32)] [] [])
      0x00000048#32 [] [] [] := by decide +kernel

/-- V119 and V120. -/
theorem test_bgeu :
    Ends (start 0x00000040#32 0x0020F463#32 [(1#5, 0x80000000#32)] [] [])
      0x00000048#32 [] [] [] ∧
    Ends (start 0x00000040#32 0x7E007FE3#32 [] [] [])
      0x0000103E#32 [] [] [] := by decide +kernel

/-- V121 and V122. -/
theorem test_jal :
    Ends (start 0x00000080#32 0x008000EF#32 [] [] [])
      0x00000088#32 [(1#5, 0x00000084#32)] [] [] ∧
    Ends (start 0x00000040#32 0xFC1FF06F#32 [] [] [])
      0x00000000#32 [] [] [] := by decide +kernel

/-- V125 and V127. -/
theorem test_jalr :
    Ends (start 0x00000040#32 0x004080E7#32 [(1#5, 0x00000100#32)] [] [])
      0x00000104#32 [(1#5, 0x00000044#32)] [] [] ∧
    Ends (start 0x00000040#32 0x00308167#32 [(1#5, 0x00000100#32)] [] [])
      0x00000102#32 [(2#5, 0x00000044#32)] [] [] := by decide +kernel

/-- V129. -/
theorem test_ecall :
    Raises (start 0x00000040#32 0x00000073#32 [] [] [])
      (.environmentCall 0x00000040#32 0x00000073#32) := by decide +kernel

/-- V130. -/
theorem test_ebreak :
    Raises (start 0x00000024#32 0x00100073#32 [] [] [])
      (.breakpoint 0x00000024#32 0x00100073#32) := by decide +kernel

/-- V132 and V133. -/
theorem test_fence :
    Ends (start 0x00000040#32 0x8330000F#32 [] [] [])
      0x00000044#32 [] [] [] ∧
    Ends (start 0x00000040#32 0x0005808F#32 [] [] [])
      0x00000044#32 [] [] [] := by decide +kernel

/-- V136 and V137. -/
theorem test_csrrw :
    Ends (start 0x00000040#32 0x340090F3#32 [(1#5, 0x00000022#32)] [(0x340#12, 0x00000011#32)] [])
      0x00000044#32 [(1#5, 0x00000011#32)] [(0x340#12, 0x00000022#32)] [] ∧
    Ends (start 0x00000040#32 0x30509073#32 [(1#5, 0x000000AA#32)] [(0x305#12, 0x00000055#32)] [])
      0x00000044#32 [] [(0x305#12, 0x000000AA#32)] [] := by decide +kernel

/-- V139 and V140. -/
theorem test_csrrs :
    Ends (start 0x00000040#32 0x3050A173#32 [(1#5, 0x000000AA#32)] [(0x305#12, 0x00000055#32)] [])
      0x00000044#32 [(2#5, 0x00000055#32)] [(0x305#12, 0x000000FF#32)] [] ∧
    Ends (start 0x00000040#32 0x30502173#32 [] [(0x305#12, 0x00000055#32)] [])
      0x00000044#32 [(2#5, 0x00000055#32)] [] [] := by decide +kernel

/-- V144 and V145. -/
theorem test_csrrc :
    Ends (start 0x00000040#32 0x30503173#32 [] [(0x305#12, 0x000000FF#32)] [])
      0x00000044#32 [(2#5, 0x000000FF#32)] [] [] ∧
    Ends (start 0x00000040#32 0x3050B0F3#32 [(1#5, 0x000000F0#32)] [(0x305#12, 0x000000FF#32)] [])
      0x00000044#32 [(1#5, 0x000000FF#32)] [(0x305#12, 0x0000000F#32)] [] := by decide +kernel

/-- V146 and V147. -/
theorem test_csrrwi :
    Ends (start 0x00000040#32 0x3052D173#32 [] [(0x305#12, 0x00000055#32)] [])
      0x00000044#32 [(2#5, 0x00000055#32)] [(0x305#12, 0x00000005#32)] [] ∧
    Ends (start 0x00000040#32 0x30505173#32 [] [(0x305#12, 0x00000055#32)] [])
      0x00000044#32 [(2#5, 0x00000055#32)] [(0x305#12, 0x00000000#32)] [] := by decide +kernel

/-- V148 and V149. -/
theorem test_csrrsi :
    Ends (start 0x00000040#32 0x3052E173#32 [] [(0x305#12, 0x00000050#32)] [])
      0x00000044#32 [(2#5, 0x00000050#32)] [(0x305#12, 0x00000055#32)] [] ∧
    Ends (start 0x00000040#32 0x30506173#32 [] [(0x305#12, 0x00000050#32)] [])
      0x00000044#32 [(2#5, 0x00000050#32)] [] [] := by decide +kernel

/-- V151 and V152. -/
theorem test_csrrci :
    Ends (start 0x00000040#32 0x305FF173#32 [] [(0x305#12, 0xFFFFFFFF#32)] [])
      0x00000044#32 [(2#5, 0xFFFFFFFF#32)] [(0x305#12, 0xFFFFFFE0#32)] [] ∧
    Ends (start 0x00000040#32 0x30507173#32 [] [(0x305#12, 0xFFFFFFFF#32)] [])
      0x00000044#32 [(2#5, 0xFFFFFFFF#32)] [] [] := by decide +kernel

/-- V153: the zero word, from its own state, raises IllegalInstruction. -/
theorem test_illegal_instruction :
    Raises (start 0x40#32 0x00000000#32 [(1#5, 0x80000000#32)] [] []) (.illegalInstruction 0x40#32 0x00000000#32) := by
  decide +kernel

/-- V175 and V179: the last word of memory, and a PC that is 2 modulo 4. -/
theorem test_fetch :
    Ends (start 0x1FFC#32 0x00000013#32 [] [] []) 0x2000#32 [] [] [] ∧
    Ends (start 0x42#32 0x00100093#32 [] [] []) 0x46#32 [(1#5, 1#32)] [] [] := by decide +kernel

/-- V176 to V178: fetches out of range. -/
theorem test_fetch_fault :
    Raises (put (State.afterReset ⟨0x2000, false⟩ []) 0x2000#32 [] [] [])
      (.memoryRangeViolation 0x2000#32 none 0x2000#32 .word) ∧
    Raises (put (State.afterReset ⟨0x2000, false⟩ []) 0x1FFE#32 [] [] [])
      (.memoryRangeViolation 0x1FFE#32 none 0x1FFE#32 .word) ∧
    Raises (put (State.afterReset ⟨0x2000, false⟩ []) 0xFFFFFFF8#32 [] [] [])
      (.memoryRangeViolation 0xFFFFFFF8#32 none 0xFFFFFFF8#32 .word) := by decide +kernel

/-- V180 and V181: a step from Halted and from Faulted. -/
theorem test_step_after_condition :
    Raises ((start 0x40#32 0x00000073#32 [] [] []).raise (.environmentCall 0x40#32 0x00000073#32))
      (.environmentCall 0x40#32 0x00000073#32) ∧
    (after ((start 0x40#32 0x00500093#32 [] [] []).raise (.illegalInstruction 0x40#32 0#32))).map
      (fun t => (t.getReg 1#5, t.pc, t.runState)) = some (5#32, 0x44#32, .running) := by decide +kernel

/-! ## Reset and the host -/

/-- The state before the reset of V182 and V183. -/
def used (clears : Bool) : State :=
  put (State.afterReset ⟨0x2000, clears⟩ []) 0x100#32 [(5#5, 7#32)] [(0x305#12, 1#32)] [(0x100, 0xAA#8)]

/-- V182 and V183. -/
theorem test_reset :
    ((used false).raise (.illegalInstruction 0x100#32 0xAA#32)).coreReset =
      put (State.afterReset ⟨0x2000, false⟩ []) 0#32 [] [] [(0x100, 0xAA#8)] ∧
    ((used true).raise (.illegalInstruction 0x100#32 0xAA#32)).coreReset = State.afterReset ⟨0x2000, true⟩ [] := by
  decide +kernel

/-- S7: storeByte(0x100, -128), then LB gives -128 and LBU 128; a value of 128 is refused. -/
theorem test_host_store :
    hostCommand (.mem (.storeByte 0x100 (-128))) (State.afterReset ⟨0x2000, false⟩ []) =
      (.done, put (State.afterReset ⟨0x2000, false⟩ []) 0#32 [] [] [(0x100, 0x80#8)]) ∧
    hostCommand (.mem (.storeByte 0x100 128)) (State.afterReset ⟨0x2000, false⟩ []) =
      (.error .valueRange, State.afterReset ⟨0x2000, false⟩ []) := by decide +kernel

/-- R302 and R361: incrementPC wraps; the register file's reset leaves memory, and the memory's reset leaves registers. -/
theorem test_host_pc_and_resets :
    hostCommand (.reg .incrementPc) (put (State.afterReset ⟨0x2000, false⟩ []) 0xFFFFFFFC#32 [] [] []) =
      (.done, State.afterReset ⟨0x2000, false⟩ []) ∧
    hostCommand (.reg .resetRegisters) (used false) =
      (.done, put (State.afterReset ⟨0x2000, false⟩ []) 0#32 [] [] [(0x100, 0xAA#8)]) ∧
    hostCommand (.mem .resetMemory) (used false) =
      (.done, put (State.afterReset ⟨0x2000, false⟩ []) 0x100#32 [(5#5, 7#32)] [(0x305#12, 1#32)] []) := by
  decide +kernel

/-- R364: the memory port of a core that was never reset works. -/
theorem test_constructed_memory_port :
    (Instance.constructed ⟨0x2000, false⟩ []).command (.mem (.storeByte 0x1FFF (-128))) =
      .next (.done, .constructed ⟨0x2000, false⟩ [(0x1FFF, 0x80#8)]) :=
  congrArg (fun answer : HostReply × Memory => Host.Outcome.next (answer.1, Instance.constructed ⟨0x2000, false⟩ answer.2))
    (show memPort 0x2000 (.storeByte 0x1FFF (-128)) [] = (.done, [(0x1FFF, 0x80#8)]) by decide +kernel)

/-- withFetchWord stores the word where the first step after reset fetches it. -/
theorem test_withFetchWord :
    (after (State.reset.withFetchWord 32 0x00500093)).map (fun t => (t.getReg 1#5, t.pc)) = some (5#32, 4#32) := by
  decide +kernel

/-- R127, R128, R129: `li` of a constant whose low 12 bits are negative, and the ABI names of x8. -/
theorem test_assembler :
    expandLi 1#5 0x12345FFF#32 = [.lui 1#5 0x12346000#32, .addi 1#5 1#5 0xFFFFFFFF#32] ∧
    abiReg "fp" = some 8#5 ∧ abiName 8#5 = "s0" ∧ abiReg "t6" = some 31#5 ∧
    asmText (.csrrs 2#5 0x305#12 1#5) = "CSRRS x2, 773, x1" ∧ asmText (.sw 2#5 1#5 8#32) = "SW x2, 8(x1)" := by
  decide +kernel

/-! ## Witnesses: for each statement with hypotheses, a concrete case that meets them, each clause at its bounds -/

/-- DecodeEncodeRoundTrip: well-formed instructions at both ends of each immediate's range. -/
theorem witness_DecodeEncodeRoundTrip :
    [.addi 0#5 31#5 (-2048#32), .lw 31#5 0#5 2047#32, .sw 1#5 2#5 (-2048#32), .beq 1#5 2#5 (-4096#32),
      .bgeu 31#5 31#5 4094#32, .jal 0#5 (-1048576#32), .jal 31#5 1048574#32, .lui 1#5 0xFFFFF000#32, .auipc 1#5 0#32,
      .srai 1#5 2#5 31#5, .add 1#5 2#5 3#5, .fence 0xFFF#12 31#5 31#5, .ecall, .ebreak,
      .csrrwi 1#5 0xFFF#12 31#5].all Instr.wf = true := by decide +kernel

/-- DecodedWordIsItsEncoding, DecoderAgreesWithOpcodeTable: a word that decodes, and one that does not. -/
theorem witness_DecodedWordIsItsEncoding :
    decode 0xFFF08193#32 = .instr (.addi 3#5 1#5 0xFFFFFFFF#32) ∧ IsUndecoded 0x0000001B#32 :=
  ⟨by decide +kernel, _, rfl⟩

/-- OpcodeRowsNeverOverlap: a word two (equal) rows admit, and another order of the rows. -/
theorem witness_OpcodeRowsNeverOverlap :
    (⟨"LUI", 0x0000007F#32, 0x00000037#32⟩ : OpcodeRow) ∈ opcodeTable ∧
    OpcodeRow.admits ⟨"LUI", 0x0000007F#32, 0x00000037#32⟩ 0x800000B7#32 = true ∧
    opcodeTable.reverse.Perm opcodeTable :=
  ⟨by decide +kernel, by decide +kernel, List.reverse_perm _⟩

/-- UndecodedWordsRaiseIllegalInstruction: a word for each clause, at the ends of its ranges. -/
theorem witness_UndecodedWordsRaiseIllegalInstruction :
    (∀ r ∈ opcodeTable, r.admits 0x00000000#32 = false) ∧
    (start 0x40#32 0x0000001B#32 [] [] []).fetch = some 0x0000001B#32 ∧
    BitVec.extractLsb' 0 2 0xFFFFFFFE#32 ≠ 0b11#2 ∧
    opcodeOf 0x0000001B#32 = 0x1B#7 ∧ opcodeOf 0x0000003B#32 = 0x3B#7 ∧
    (opcodeOf 0x02000033#32 = 0x33#7 ∧ funct7Of 0x02000033#32 = 0b0000001#7) ∧
    (opcodeOf 0xFE000033#32 = 0x33#7 ∧ funct7Of 0xFE000033#32 = 0b1111111#7) ∧
    (opcodeOf 0x40001033#32 = 0x33#7 ∧ funct7Of 0x40001033#32 = 0b0100000#7 ∧ funct3Of 0x40001033#32 = 0b001#3) ∧
    (opcodeOf 0x00001067#32 = 0x67#7 ∧ funct3Of 0x00001067#32 = 0b001#3) ∧
    (opcodeOf 0x00002063#32 = 0x63#7 ∧ funct3Of 0x00002063#32 = 0b010#3 ∧ funct3Of 0x00003063#32 = 0b011#3) ∧
    (opcodeOf 0x00003003#32 = 0x03#7 ∧ funct3Of 0x00003003#32 = 0b011#3 ∧ funct3Of 0x00006003#32 = 0b110#3 ∧
      funct3Of 0x00007003#32 = 0b111#3) ∧
    (opcodeOf 0x00003023#32 = 0x23#7 ∧ (funct3Of 0x00003023#32).toNat = 3 ∧ (funct3Of 0x00007023#32).toNat = 7) ∧
    (opcodeOf 0x00004073#32 = 0x73#7 ∧ funct3Of 0x00004073#32 = 0b100#3) ∧
    (opcodeOf 0x00200073#32 = 0x73#7 ∧ funct3Of 0x00200073#32 = 0b000#3) ∧
    (opcodeOf 0x12000073#32 = 0x73#7 ∧ funct3Of 0x12000073#32 = 0b000#3 ∧ funct7Of 0x12000073#32 = 0b0001001#7) ∧
    opcodeOf 0x0000202F#32 = 0x2F#7 ∧ opcodeOf 0x0000007B#32 = 0x7B#7 := by decide +kernel

/-- ShiftImmediatesDecodeStrictly: a word for each clause. -/
theorem witness_ShiftImmediatesDecodeStrictly :
    (funct3Of 0x01F09193#32 = 0b001#3 ∧ funct7Of 0x01F09193#32 = 0b0000000#7 ∧ opcodeOf 0x01F09193#32 = 0x13#7) ∧
    (funct3Of 0x40409193#32 = 0b001#3 ∧ funct7Of 0x40409193#32 = 0b0100000#7 ∧ opcodeOf 0x40409193#32 = 0x13#7) ∧
    (funct3Of 0x01F0D193#32 = 0b101#3 ∧ funct7Of 0x01F0D193#32 = 0b0000000#7 ∧ opcodeOf 0x01F0D193#32 = 0x13#7) ∧
    (funct3Of 0x41F0D193#32 = 0b101#3 ∧ funct7Of 0x41F0D193#32 = 0b0100000#7 ∧ opcodeOf 0x41F0D193#32 = 0x13#7) ∧
    (funct3Of 0x0240D193#32 = 0b101#3 ∧ funct7Of 0x0240D193#32 = 0b0000001#7 ∧ opcodeOf 0x0240D193#32 = 0x13#7) := by
  decide +kernel

/-- CoreResetValues and InvariantHoldsAtReset: both values of RESET_CLEARS_MEMORY, MEM_SIZE at both ends of R13. -/
theorem witness_parameters :
    (used true).cfg.resetClearsMemory = true ∧ (used false).cfg.resetClearsMemory = false ∧
    Config.wf ⟨2 ^ 31, true⟩ ∧ Config.wf ⟨0, false⟩ := by decide +kernel

/-- A state that meets the invariant, with a register, a CSR cell and memory in use. -/
theorem witness_inv : (start 0x40#32 0x0020A023#32 [(1#5, 0x1FFC#32), (2#5, 7#32)] [(0xFFF#12, 1#32)] []).Inv where
  memSize_le := by decide +kernel
  x0_zero := by decide +kernel
  mem_wf := by decide +kernel
  mem_bound := by decide +kernel
  csrs_wf := by decide +kernel
  csrs_bound := by decide +kernel
  report_agrees := State.reportAgrees_of_running (by decide +kernel)

/-- InvariantKeptByEveryStep, ParametersNeverChange, ConditionsArePrecise and the other statements about a step that
answers next: a step that stores, from a state that meets the invariant. -/
theorem witness_step :
    step (start 0x40#32 0x0020A023#32 [(1#5, 0x1FFC#32), (2#5, 7#32)] [(0xFFF#12, 1#32)] []) =
      .next (put (start 0x40#32 0x0020A023#32 [(1#5, 0x1FFC#32), (2#5, 7#32)] [(0xFFF#12, 1#32)] []) 0x44#32 [] []
        [(0x1FFC, 7#8)]) :=
  step_of_after (by decide +kernel)

/-- InvariantHoldsOfEveryReachableState: a reachable state, through reset, an image, a host write and a step. -/
theorem witness_Reachable :
    Reachable (State.afterReset ⟨2 ^ 31, false⟩ []) ∧
    ∃ t, Reachable t ∧ t.pc = 4#32 ∧ t.getReg 1#5 = 5#32 := by
  refine ⟨.reset _ (by decide), ?_⟩
  have h : after (loadImage [0x93#8, 0x00#8, 0x50#8, 0x00#8] (State.afterReset ⟨0x2000, false⟩ [])).2 =
      some (put (loadImage [0x93#8, 0x00#8, 0x50#8, 0x00#8] (State.afterReset ⟨0x2000, false⟩ [])).2 4#32
        [(1#5, 5#32)] [] []) := by decide +kernel
  exact ⟨_, .step (.load _ (.reset _ (by decide))) (step_of_after h), by decide +kernel, by decide +kernel⟩

/-- StepRunsTheDecodedInstruction and FetchReadsFourBytesOrRaises: the last PC a fetch can read, the first it cannot,
and a negative one. -/
theorem witness_fetch_bounds :
    InBounds (start 0x1FFC#32 0x00000013#32 [] [] []) 0x1FFC#32 .word ∧
    (let s := start 0x1FFC#32 0x00000013#32 [] [] [];
      decodeBytes [s.mem.readByte 0x1FFC, s.mem.readByte 0x1FFD, s.mem.readByte 0x1FFE, s.mem.readByte 0x1FFF]) =
      .instr (.addi 0#5 0#5 0#32) ∧
    ¬InBounds (start 0x1FFC#32 0x00000013#32 [] [] []) 0x1FFD#32 .word ∧
    ¬InBounds (start 0x1FFC#32 0x00000013#32 [] [] []) 0xFFFFFFFC#32 .word := by
  unfold InBounds
  decide +kernel

/-- StepIgnoresRunStateAndRepeatsConditions, ConditionsArePrecise, RunStateFollowsTheStep, ConditionsFollowTheirCauses,
PcMovesInExactlyThreeWays: a step that ends in each of the conditions (the range violation of a fetch and of a load
apart), and steps that complete with and without a transfer. -/
theorem witness_conditions :
    ((after (start 0x40#32 0x00000073#32 [] [] [])).map (fun t => (t.runState, t.report)) =
      some (.halted, some (.environmentCall 0x40#32 0x00000073#32))) ∧
    ((after (start 0x40#32 0x00100073#32 [] [] [])).map (fun t => (t.runState, t.report)) =
      some (.halted, some (.breakpoint 0x40#32 0x00100073#32))) ∧
    ((after (start 0x40#32 0x00000000#32 [] [] [])).map (fun t => (t.runState, t.report)) =
      some (.faulted, some (.illegalInstruction 0x40#32 0x00000000#32))) ∧
    ((after (start 0x40#32 0x00008103#32 [(1#5, 0x2000#32)] [] [])).map (fun t => (t.runState, t.report)) =
      some (.faulted, some (.memoryRangeViolation 0x40#32 (some 0x00008103#32) 0x2000#32 .byte))) ∧
    ((after (start 0x1FFD#32 0x00000000#32 [] [] [])).map (fun t => (t.runState, t.report)) =
      some (.faulted, some (.memoryRangeViolation 0x1FFD#32 none 0x1FFD#32 .word))) ∧
    ((after (start 0x40#32 0x00000013#32 [] [] [])).map (fun t => (t.runState, t.pc)) = some (.running, 0x44#32)) ∧
    ((after (start 0x40#32 0x00000063#32 [] [] [])).map (fun t => (t.runState, t.pc)) = some (.running, 0x40#32)) := by
  decide +kernel

/-- OnlyZicsrChangesACsr, OnlyStoresChangeMemory, StepChangesAtMostOneOfEach: steps that change a CSR cell and a GPR, and
the last byte a store of each width writes. -/
theorem witness_changes :
    ((after (start 0x40#32 0xFFF09173#32 [(1#5, 9#32)] [(0xFFF#12, 3#32)] [])).map
      (fun t => (t.getCsr 0xFFF#12, t.getReg 2#5)) = some (9#32, 3#32)) ∧
    ((after (start 0x40#32 0x00208023#32 [(1#5, 0x1FFF#32), (2#5, 0x11#32)] [] [])).map
      (fun t => t.mem.readByte 0x1FFF) = some 0x11#8) ∧
    ((after (start 0x40#32 0x00209023#32 [(1#5, 0x1FFE#32), (2#5, 0x2211#32)] [] [])).map
      (fun t => t.mem.readByte 0x1FFF) = some 0x22#8) ∧
    ((after (start 0x40#32 0x0020A023#32 [(1#5, 0x1FFC#32), (2#5, 0x44332211#32)] [] [])).map
      (fun t => t.mem.readByte 0x1FFF) = some 0x44#8) := by decide +kernel

/-- LoadResults, StoreResults and StoreThenLoadRoundTrip: the first and last address of each width, and the first past
the end. -/
theorem witness_access_bounds :
    (let s := start 0x40#32 0x00000013#32 [] [] [];
      (InBounds s 0#32 .byte ∧ InBounds s 0x1FFF#32 .byte ∧ ¬InBounds s 0x2000#32 .byte) ∧
      (InBounds s 0#32 .half ∧ InBounds s 0x1FFE#32 .half ∧ ¬InBounds s 0x1FFF#32 .half) ∧
      (InBounds s 0#32 .word ∧ InBounds s 0x1FFC#32 .word ∧ ¬InBounds s 0x1FFD#32 .word) ∧
      ¬InBounds s 0xFFFFFFFF#32 .byte) := by
  unfold InBounds
  decide +kernel

/-- NarrowReadsSeeWideWrites: a word written at the last address that holds one. -/
theorem witness_NarrowReadsSeeWideWrites :
    Config.wf (start 0x40#32 0x00000013#32 [] [] []).cfg ∧
    ((start 0x40#32 0x00000013#32 [] [] []).memWrite 0x1FFC#32 .word 0x44332211#32).isSome = true := by decide +kernel

/-- StoreToNextInstructionIsFetched: a store of the ECALL word over the next instruction. -/
theorem witness_StoreToNextInstructionIsFetched :
    let s := start 0x40#32 0x0020A023#32 [(1#5, 0x44#32), (2#5, 0x73#32)] [] []
    s.executes (.sw 2#5 1#5 0#32) ∧ s.getReg 1#5 + 0#32 = s.pc + 4#32 ∧ InBounds s (s.pc + 4#32) .word ∧
    decode (s.getReg 2#5) = .instr .ecall ∧
    ∃ t u, step s = .next t ∧ exec .ecall t = .next u := by
  refine ⟨⟨0x0020A023#32, by decide +kernel, by decide +kernel⟩, by decide +kernel, ?_, by decide +kernel,
    put (start 0x40#32 0x0020A023#32 [(1#5, 0x44#32), (2#5, 0x73#32)] [] []) 0x44#32 [] [] [(0x44, 0x73#8)], _,
    step_of_after (by decide +kernel), rfl⟩
  unfold InBounds
  decide +kernel

/-- HostRegisterPort: the numbers on both sides of each range. -/
theorem witness_HostRegisterPort :
    hostReg (-1) = none ∧ hostReg 0 = some 0#5 ∧ hostReg 31 = some 31#5 ∧ hostReg 32 = none ∧
    hostCsr (-1) = none ∧ hostCsr 0 = some 0#12 ∧ hostCsr 4095 = some 0xFFF#12 ∧ hostCsr 4096 = none := by
  decide +kernel

/-- HostErrorsChangeNothing, HostStoresCheckAddressAndValue, HostLoadsReadAndWiden and HostMemoryResetZeroesEveryByte: a command of each width at the last
address and value that fit, and at the first that do not. -/
theorem witness_host_bounds :
    (let s := State.afterReset ⟨0x2000, false⟩ [];
      (hostCommand (.mem (.storeByte 0x1FFF (-128))) s).1 = .done ∧
      (hostCommand (.mem (.storeByte 0x1FFF (-129))) s).1 = .error .valueRange ∧
      (hostCommand (.mem (.storeByte 0x2000 127)) s).1 = .error .memoryRange ∧
      (hostCommand (.mem (.storeHalf 0x1FFE 32767)) s).1 = .done ∧
      (hostCommand (.mem (.storeHalf 0x1FFE 32768)) s).1 = .error .valueRange ∧
      (hostCommand (.mem (.storeHalf 0x1FFF 0)) s).1 = .error .memoryRange ∧
      (hostCommand (.mem (.storeWord 0x1FFC (-2147483648))) s).1 = .done ∧
      (hostCommand (.mem (.storeWord 0 2147483648)) s).1 = .error .valueRange ∧
      (hostCommand (.mem (.storeWord 0x1FFD 0)) s).1 = .error .memoryRange ∧
      (hostCommand (.mem (.loadByte 0x1FFF)) s).1 = .value 0#32 ∧
      (hostCommand (.mem (.loadHalfU 0x1FFE)) s).1 = .value 0#32 ∧
      (hostCommand (.mem (.fetchWord 0x1FFC)) s).1 = .value 0#32 ∧
      (hostCommand (.mem (.loadByteU (-1))) s).1 = .error .memoryRange ∧
      (hostCommand (.mem (.loadHalf 0x1FFF)) s).1 = .error .memoryRange ∧
      (hostCommand (.mem (.fetchWord 0x1FFD)) s).1 = .error .memoryRange) := by decide +kernel

/-- RunEndsAtTheFirstCondition: a run whose second step, on the zero word, ends it. -/
theorem witness_RunEndsAtTheFirstCondition :
    runFuel 2 (start 0x40#32 0x00000013#32 [] [] []) =
      .ended (.illegalInstruction 0x44#32 0#32)
        ((put (start 0x40#32 0x00000013#32 [] [] []) 0x44#32 [] [] []).raise (.illegalInstruction 0x44#32 0#32)) := by
  decide +kernel

/-- BranchToItselfNeverEnds: BEQ x0, x0, 0 (V106). -/
theorem witness_BranchToItselfNeverEnds :
    (start 0x40#32 0x00000063#32 [] [] []).executes (.beq 0#5 0#5 0#32) :=
  ⟨0x00000063#32, by decide +kernel, by decide +kernel⟩

/-- BootLoadsTheImageAtZero: an image that fills the memory, and the empty one. -/
theorem witness_BootLoadsTheImageAtZero :
    [0x73#8, 0x00#8].length ≤ (⟨2, true⟩ : Config).memSize ∧ ([] : List Byte).length ≤ (⟨0, false⟩ : Config).memSize := by
  decide

/-- LoadImmediateBuildsTheConstant: the first and last register it holds for. -/
theorem witness_LoadImmediateBuildsTheConstant : (1#5 : Reg) ≠ 0#5 ∧ (31#5 : Reg) ≠ 0#5 := by decide

end Sys2Proof.Machine.Tests
end

/-! The statements about 10_state.md: x0 is hardwired (R31), and the three ways the PC moves (R36). -/

namespace Sys2Proof.Machine

/-! ## x0 (R31) -/

/-- A write to x0 is discarded. -/
@[simp] theorem State.setReg_zero (s : State) (v : Word) : s.setReg 0#5 v = s := by simp [State.setReg]

/-- The port's GPR number 0 is x0. -/
theorem hostReg_zero : hostReg 0 = some 0#5 := rfl

/-- The port's write of x0 is done and discarded. -/
theorem regPort_setGpr_zero (s : State) (v : Word) : regPort (.setGpr 0 v) s = (.done, s) := by
  simp [regPort, hostReg_zero]

/-- No shape an instruction leaves writes x0's own cell. -/
theorem ExecShape.regs_zero {i : Instr} {s t : State} (h : ExecShape i s t) : t.regs[0] = s.regs[0] := by
  cases h with
  | reg rd v _ => exact s.setReg_regs_zero rd v
  | csr rd csr v _ _ => exact (s.setCsr csr v).setReg_regs_zero rd (s.getCsr csr)
  | link rd target _ => exact s.setReg_regs_zero rd (s.pc + 4#32)
  | quiet _ => rfl
  | mem _ _ _ _ _ _ _ => rfl
  | jump _ _ => rfl
  | raised _ _ _ => rfl

/-- Settles O12: getReg and setReg except x0, the port goes through setReg, and every shape of the state after an
instruction leaves x0's cell. -/
theorem zeroRegisterIsHardwired : Obligations.ZeroRegisterIsHardwired :=
  ⟨State.getReg_zero, regPort_setGpr_zero, State.setReg_zero, fun _ _ _ h => (exec_inv h).regs_zero⟩

/-! ## The PC (R36) -/

/-- An instruction completes, with the run state kept and the PC its rule gives, or it ends in a condition, with the PC
kept. -/
theorem ExecEnd.runState_pc {i : Instr} {s t : State} (h : ExecEnd i s t) :
    (t.runState = s.runState ∧ t.pc = nextPc i s) ∨ (t.runState ≠ .running ∧ t.pc = s.pc) := by
  cases h with
  | completes _ hrun _ hpc => exact .inl ⟨hrun, hpc⟩
  | ecall _ => exact .inr ⟨raise_not_running _ _, rfl⟩
  | ebreak _ => exact .inr ⟨raise_not_running _ _, rfl⟩
  | range _ _ _ _ => exact .inr ⟨raise_not_running _ _, rfl⟩

/-- A step completes the instruction it executes, with the run state Running and the PC that instruction's rule gives, or
it ends in a condition, with the PC kept. -/
theorem step_runState_pc {s t : State} (h : step s = .next t) :
    (t.runState = .running ∧ ∃ i, s.executes i ∧ t.pc = nextPc i s) ∨ (t.runState ≠ .running ∧ t.pc = s.pc) := by
  cases step_inv h with
  | fetchFault _ => exact .inr ⟨raise_not_running _ _, rfl⟩
  | illegal _ _ _ _ => exact .inr ⟨raise_not_running _ _, rfl⟩
  | executed w i _ hf hd he _ =>
    rcases (exec_end_inv he).runState_pc with ⟨hrun, hpc⟩ | hends
    · exact .inl ⟨hrun, i, ⟨w, hf, hd⟩, hpc.trans (nextPc_begun i s)⟩
    · exact .inr hends

/-- Settles O23: a step that completes moves the PC as its instruction's rule says, which is pc + 4 unless the instruction
is a control transfer; one that ends in a condition keeps it. -/
theorem pcMovesInExactlyThreeWays : Obligations.PcMovesInExactlyThreeWays := by
  intro s t h
  rcases step_runState_pc h with ⟨hrun, i, hi, hpc⟩ | hends
  · cases ht : isControlTransfer i with
    | false => exact .inl ⟨hrun, i, hi, ht, hpc.trans (nextPc_of_not_transfer ht)⟩
    | true => exact .inr (.inl ⟨hrun, i, hi, ht, hpc⟩)
  · exact .inr (.inr hends)

end Sys2Proof.Machine

/-! The statement about the immediates of 30_encoding.md: the bits each is made of, and its range (R108 to R112). -/

namespace Sys2Proof

/-! ## Which bit of the word each bit of an immediate is (R108 to R112)

Bit by bit an immediate is its fields one after another, then its sign bit repeated; each lemma splits on the field that
bit k lies in. -/

/-- A Word sign-extended from n bits: its own bits below n, its top bit from there on. -/
theorem getLsbD_signExtend_word {n k : Nat} (x : BitVec n) (hk : k < 32) :
    (x.signExtend 32).getLsbD k = x.getLsbD (if k < n then k else n - 1) := by
  rw [BitVec.getLsbD_signExtend, BitVec.msb_eq_getLsbD_last, apply_ite x.getLsbD]
  simp [hk]

theorem getLsbD_immI (w : Word) {k : Nat} (hk : k < 32) :
    (immI w).getLsbD k = w.getLsbD (if k < 12 then 20 + k else 31) := by
  rw [immI, getLsbD_signExtend_word _ hk, BitVec.getLsbD_extractLsb']
  split
  next field => simp [field]
  next => rfl

theorem getLsbD_immS (w : Word) {k : Nat} (hk : k < 32) :
    (immS w).getLsbD k = w.getLsbD (if k < 5 then 7 + k else if k < 12 then 20 + k else 31) := by
  simp only [immS, getLsbD_signExtend_word _ hk, BitVec.getLsbD_append, BitVec.getLsbD_extractLsb']
  obtain rdField | funct7Field | sign : k < 5 ∨ (5 ≤ k ∧ k < 12) ∨ 12 ≤ k := by omega
  · grind
  · grind
  · grind

theorem getLsbD_immB (w : Word) {k : Nat} (hk : k < 32) :
    (immB w).getLsbD k = (k != 0 &&
      w.getLsbD (if k < 5 then 7 + k else if k < 11 then 20 + k else if k = 11 then 7 else 31)) := by
  simp only [immB, getLsbD_signExtend_word _ hk, BitVec.getLsbD_append, BitVec.getLsbD_extractLsb']
  obtain rfl | bits4_1 | bits10_5 | rfl | sign :
    k = 0 ∨ (1 ≤ k ∧ k < 5) ∨ (5 ≤ k ∧ k < 11) ∨ k = 11 ∨ 12 ≤ k := by omega
  · rfl
  · grind
  · grind
  · rfl
  · grind

theorem getLsbD_immU (w : Word) (k : Nat) : (immU w).getLsbD k = (12 ≤ k && w.getLsbD k) := by
  simp only [immU, BitVec.getLsbD_append, BitVec.getLsbD_extractLsb']
  obtain low | field | above : k < 12 ∨ (12 ≤ k ∧ k < 32) ∨ 32 ≤ k := by omega
  · grind
  · grind
  · grind

theorem getLsbD_immJ (w : Word) {k : Nat} (hk : k < 32) :
    (immJ w).getLsbD k = (k != 0 &&
      w.getLsbD (if k < 11 then 20 + k else if k = 11 then 20 else if k < 20 then k else 31)) := by
  simp only [immJ, getLsbD_signExtend_word _ hk, BitVec.getLsbD_append, BitVec.getLsbD_extractLsb']
  obtain rfl | bits10_1 | rfl | bits19_12 | sign :
    k = 0 ∨ (1 ≤ k ∧ k < 11) ∨ k = 11 ∨ (12 ≤ k ∧ k < 20) ∨ 20 ≤ k := by omega
  · rfl
  · grind
  · rfl
  · grind
  · grind

/-- Settles O9: the bits, one immediate at a time; the ranges and evenness are that a decoded immediate fits its format. -/
theorem immediateBitsAndRanges : Obligations.ImmediateBitsAndRanges := fun w =>
  ⟨fun k hk => ⟨getLsbD_immI w hk, getLsbD_immS w hk, getLsbD_immB w hk, getLsbD_immU w k, getLsbD_immJ w hk⟩,
    (fitsImm12_iff _).mp (fitsImm12_immI w),
    (fitsImm12_iff _).mp (fitsImm12_immS w),
    (fitsBranch_iff _).mp (fitsBranch_immB w),
    (fitsUpper_iff _).mp (fitsUpper_immU w),
    (fitsJump_iff _).mp (fitsJump_immJ w)⟩

end Sys2Proof

/-! The statement about 40_upper_immediate.md: the results of LUI (R150) and AUIPC (R151). -/

namespace Sys2Proof.Machine

/-- LUI retires its immediate (R150). -/
theorem exec_lui (s : State) (rd : Reg) (imm : Word) : exec (.lui rd imm) s = retire s rd imm := rfl

/-- AUIPC retires the sum of its own address and its immediate (R151). -/
theorem exec_auipc (s : State) (rd : Reg) (imm : Word) : exec (.auipc rd imm) s = retire s rd (s.pc + imm) := rfl

/-- Settles O28: both instructions only retire a value, and AUIPC's word sum is the integer sum modulo 2^32. -/
theorem upperImmediateResults : Obligations.UpperImmediateResults := by
  intro s rd imm
  constructor
  case left => exact retire_completes (exec_lui s rd imm)
  case right =>
    rw [← add_eq_ofNat]
    exact retire_completes (exec_auipc s rd imm)

end Sys2Proof.Machine

/-! The statements about the integer instructions of 41_integer_immediate.md and 42_integer_register.md: sums and
differences, comparisons, bitwise operations and shifts. Every one of these instructions only retires a value; what each
statement adds is which number, or which bits, that value is. -/

namespace Sys2Proof.Machine

/-- An instruction that retires w completes with any v that w equals. -/
theorem retire_completes_of_eq {s : State} {i : Instr} {rd : Reg} {v w : Word} (h : exec i s = retire s rd w)
    (hw : w = v) : CompletesWithReg s i rd v :=
  hw ▸ retire_completes h

/-! ## Comparisons (R161, R162, R183, R184) -/

/-- The signed comparison's word is decided by the s() values. -/
theorem boolWord_ltSigned (a b : Word) : boolWord (ltSigned a b) = if a.toInt < b.toInt then 1#32 else 0#32 := by
  simp [boolWord, ltSigned, BitVec.slt]

/-- The unsigned comparison's word is decided by the u() values. -/
theorem boolWord_ltUnsigned (a b : Word) :
    boolWord (ltUnsigned a b) = if a.toNat < b.toNat then 1#32 else 0#32 := by
  simp [boolWord, ltUnsigned, BitVec.ult]

/-- Settles O30: each comparison retires the word of its signed or unsigned test. -/
theorem compareResults : Obligations.CompareResults := by
  intro s rd rs1 rs2 imm
  refine ⟨?slti, ?sltiu, ?slt, ?sltu⟩
  case slti => exact retire_completes_of_eq rfl (boolWord_ltSigned _ imm)
  case sltiu => exact retire_completes_of_eq rfl (boolWord_ltUnsigned _ imm)
  case slt => exact retire_completes_of_eq rfl (boolWord_ltSigned _ (s.getReg rs2))
  case sltu => exact retire_completes_of_eq rfl (boolWord_ltUnsigned _ (s.getReg rs2))

/-! ## Shifts (R166 to R168, R182, R186, R187) -/

/-- Settles O32: each shift by n retires the product with 2^n, the quotient of the u() value or that of the s() value,
rounded down; a register shift's n is the register's number modulo 32. -/
theorem shiftResults : Obligations.ShiftResults := by
  intro s rd rs1 rs2 shamt
  rw [← shiftAmount_eq]
  refine ⟨?slli, ?srli, ?srai, ?sll, ?srl, ?sra⟩
  case slli => exact retire_completes_of_eq rfl (shiftLeft_eq_ofNat _ shamt.toNat)
  case srli => exact retire_completes_of_eq rfl (ushiftRight_eq_ofNat _ shamt.toNat)
  case srai => exact retire_completes_of_eq rfl (sshiftRight_eq_ofInt _ shamt.toNat)
  case sll => exact retire_completes_of_eq rfl (shiftLeft_eq_ofNat _ (shiftAmount (s.getReg rs2)))
  case srl => exact retire_completes_of_eq rfl (ushiftRight_eq_ofNat _ (shiftAmount (s.getReg rs2)))
  case sra => exact retire_completes_of_eq rfl (sshiftRight_eq_ofInt _ (shiftAmount (s.getReg rs2)))

/-! ## Sums and differences (R160, R180, R181) -/

/-- The difference of two words is the integer difference modulo 2^32. -/
theorem sub_eq_ofInt (a b : Word) : a - b = BitVec.ofInt 32 (a.toInt - b.toInt) := by
  apply BitVec.eq_of_toInt_eq
  simp [BitVec.toInt_sub]

/-- Settles O29: the word sum and difference retired are the integer ones modulo 2^32. -/
theorem addSubtractResults : Obligations.AddSubtractResults := by
  intro s rd rs1 rs2 imm
  refine ⟨?addi, ?add, ?sub⟩
  case addi => exact retire_completes_of_eq rfl (add_eq_ofInt _ imm)
  case add => exact retire_completes_of_eq rfl (add_eq_ofInt _ (s.getReg rs2))
  case sub => exact retire_completes_of_eq rfl (sub_eq_ofInt _ (s.getReg rs2))

/-! ## Bitwise operations (R163 to R165, R185, R188, R189) -/

/-- Settles O31: each instruction retires the word operation of its name, which works on every bit alone. -/
theorem bitwiseResults : Obligations.BitwiseResults := by
  intro s rd rs1 rs2 imm
  refine ⟨?xori, ?ori, ?andi, ?xor, ?or, ?and⟩
  case xori => exact ⟨s.getReg rs1 ^^^ imm, fun _ _ => BitVec.getLsbD_xor, retire_completes rfl⟩
  case ori => exact ⟨s.getReg rs1 ||| imm, fun _ _ => BitVec.getLsbD_or, retire_completes rfl⟩
  case andi => exact ⟨s.getReg rs1 &&& imm, fun _ _ => BitVec.getLsbD_and, retire_completes rfl⟩
  case xor => exact ⟨s.getReg rs1 ^^^ s.getReg rs2, fun _ _ => BitVec.getLsbD_xor, retire_completes rfl⟩
  case or => exact ⟨s.getReg rs1 ||| s.getReg rs2, fun _ _ => BitVec.getLsbD_or, retire_completes rfl⟩
  case and => exact ⟨s.getReg rs1 &&& s.getReg rs2, fun _ _ => BitVec.getLsbD_and, retire_completes rfl⟩

end Sys2Proof.Machine

/-! The statements about 45_control_transfer.md: the branches (R240 to R245) and the jumps that link (R246, R247). -/

namespace Sys2Proof.Machine

/-! ## Branches (R240 to R245) -/

/-- A branch taken exactly when c holds goes to the integer sum of pc and its offset, or of pc and 4, modulo 2^32. -/
theorem branch_completes_of_iff {s : State} {i : Instr} {taken : Bool} {off : Word} {c : Prop} [Decidable c]
    (h : exec i s = branch s taken off) (hc : taken = true ↔ c) :
    CompletesAtPc s i (BitVec.ofInt 32 (s.pc.toInt + if c then off.toInt else 4)) := by
  refine branch_completes h ?_
  simp only [hc]
  split
  · exact (add_eq_ofInt s.pc off).symm
  · exact (add_eq_ofInt s.pc 4#32).symm

/-- The signed test holds when the s() values are in that order. -/
theorem ltSigned_iff (a b : Word) : ltSigned a b = true ↔ a.toInt < b.toInt := BitVec.slt_iff_toInt_lt

/-- The unsigned test holds when the u() values are in that order. -/
theorem ltUnsigned_iff (a b : Word) : ltUnsigned a b = true ↔ a.toNat < b.toNat := BitVec.ult_iff_lt

/-- The signed test fails when the s() values are in the other order or equal. -/
theorem not_ltSigned_iff (a b : Word) : (!ltSigned a b) = true ↔ a.toInt ≥ b.toInt :=
  Bool.not_iff_not.trans ((ltSigned_iff a b).not.trans not_lt)

/-- The unsigned test fails when the u() values are in the other order or equal. -/
theorem not_ltUnsigned_iff (a b : Word) : (!ltUnsigned a b) = true ↔ a.toNat ≥ b.toNat :=
  Bool.not_iff_not.trans ((ltUnsigned_iff a b).not.trans not_lt)

/-- Settles O35: each instruction branches on the test of its comparison. -/
theorem branchResults : Obligations.BranchResults := by
  intro s rs1 rs2 off
  refine ⟨?beq, ?bne, ?blt, ?bge, ?bltu, ?bgeu⟩
  case beq => exact branch_completes_of_iff rfl (decide_eq_true_iff.trans BitVec.toNat_inj.symm)
  case bne => exact branch_completes_of_iff rfl (decide_eq_true_iff.trans BitVec.toNat_inj.symm.not)
  case blt => exact branch_completes_of_iff rfl (ltSigned_iff _ _)
  case bge => exact branch_completes_of_iff rfl (not_ltSigned_iff _ _)
  case bltu => exact branch_completes_of_iff rfl (ltUnsigned_iff _ _)
  case bgeu => exact branch_completes_of_iff rfl (not_ltUnsigned_iff _ _)

/-! ## Jumps (R246, R247) -/

/-- JAL links and jumps to pc + off (R246). -/
theorem exec_jal (s : State) (rd : Reg) (off : Word) : exec (.jal rd off) s = link s rd (s.pc + off) := rfl

/-- JALR links and jumps to the target the state before it gives, so rd = rs1 makes no difference to it (R247). -/
theorem exec_jalr (s : State) (rd rs1 : Reg) (imm : Word) :
    exec (.jalr rd rs1 imm) s = link s rd (s.jalrTarget rs1 imm) := rfl

/-- Settles O36: both instructions only link and jump; JAL's word sum is the integer sum modulo 2^32, and clearing bit 0
of JALR's sum rounds it down to an even number. -/
theorem jumpResults : Obligations.JumpResults := by
  intro s rd rs1 off imm
  rw [← add_eq_ofInt, ← jalrTarget_eq_ofNat]
  exact ⟨link_completes (exec_jal s rd off), link_completes (exec_jalr s rd rs1 imm)⟩

end Sys2Proof.Machine

/-! The statement about FENCE in 46_system_sync.md (R262). -/

namespace Sys2Proof.Machine

/-- FENCE only advances the PC, whatever its fields hold (R262). -/
theorem exec_fence (s : State) (ordering : BitVec 12) (rs1 rd : Reg) :
    exec (.fence ordering rs1 rd) s = .next s.advance := rfl

/-- An instruction that only advances the PC completes at pc + 4 and changes nothing else. -/
theorem advance_completes {s : State} {i : Instr} (h : exec i s = .next s.advance) :
    CompletesAtPc s i (s.pc + 4#32) :=
  ⟨s.advance, h, s.advance_pc, s.getReg_advance, s.getCsr_advance, fun a => by simp, by simp [SameControl]⟩

/-- Settles O38: FENCE only advances the PC, and the word sum pc + 4 is the sum of the numbers modulo 2^32. -/
theorem fenceOnlyAdvancesThePc : Obligations.FenceOnlyAdvancesThePc := by
  intro s ordering rs1 rd
  have hpc : s.pc + 4#32 = BitVec.ofNat 32 (s.pc.toNat + 4) := add_eq_ofNat s.pc 4#32
  rw [← hpc]
  exact advance_completes (exec_fence s ordering rs1 rd)

end Sys2Proof.Machine

/-! The statement about 47_zicsr.md (R271 to R276). Every Zicsr instruction is one access to its cell; three of the six
make no write when their source field is 0. -/

namespace Sys2Proof.Machine

/-- An access whose write is skipped when its source field is 0 leaves the old value in the cell then. -/
theorem csrAccess_completes_unless_zero {s : State} {i : Instr} {rd : Reg} {csr : CsrAddr} {field : BitVec 5} {v : Word}
    (h : exec i s = csrAccess s rd csr (if field = 0#5 then none else some v)) :
    CompletesWithCsr s i rd (s.getCsr csr) csr (if field = 0#5 then s.getCsr csr else v) := by
  have hcell : (if field = 0#5 then none else some v).getD (s.getCsr csr) =
      if field = 0#5 then s.getCsr csr else v := by
    split
    · rfl
    · rfl
  exact hcell ▸ csrAccess_completes h

/-- Settles O39: each instruction is one access to its cell, with the value its rule writes taken from the state before;
the immediate forms use the number of their field. -/
theorem zicsrResults : Obligations.ZicsrResults := by
  intro s rd rs1 csr zimm
  have hzimm : BitVec.ofNat 32 zimm.toNat = zext5 zimm := BitVec.ofNat_toNat 32 zimm
  rw [hzimm]
  refine ⟨?csrrw, ?csrrs, ?csrrc, ?csrrwi, ?csrrsi, ?csrrci⟩
  case csrrw => exact csrAccess_completes (new := some (s.getReg rs1)) rfl
  case csrrs => exact csrAccess_completes_unless_zero rfl
  case csrrc => exact csrAccess_completes_unless_zero rfl
  case csrrwi => exact csrAccess_completes (new := some (zext5 zimm)) rfl
  case csrrsi => exact csrAccess_completes_unless_zero rfl
  case csrrci => exact csrAccess_completes_unless_zero rfl

end Sys2Proof.Machine

/-! The statement about the core reset in 70_reset_and_hazards.md (R360). -/

namespace Sys2Proof.Machine

/-! ## What each reset leaves (R302, R360, R361) -/

@[simp] theorem State.getReg_resetRegisters (s : State) (r : Reg) : s.resetRegisters.getReg r = 0#32 := by
  unfold State.getReg
  split
  next => rfl
  next => exact Vector.getElem_replicate r.isLt

@[simp] theorem State.getCsr_resetRegisters (s : State) (c : CsrAddr) : s.resetRegisters.getCsr c = 0#32 :=
  Cells.read_nil c.toNat

/-- The core reset's registers are those the register file's reset leaves. -/
@[simp] theorem State.getReg_coreReset (s : State) (r : Reg) : s.coreReset.getReg r = 0#32 :=
  s.getReg_resetRegisters r

/-- The core reset's CSRs are those the register file's reset leaves. -/
@[simp] theorem State.getCsr_coreReset (s : State) (c : CsrAddr) : s.coreReset.getCsr c = 0#32 :=
  s.getCsr_resetRegisters c

theorem State.coreReset_mem_of_clears {s : State} (h : s.cfg.resetClearsMemory = true) : s.coreReset.mem = [] :=
  if_pos h

theorem State.coreReset_mem_of_keeps {s : State} (h : s.cfg.resetClearsMemory = false) : s.coreReset.mem = s.mem :=
  if_neg (Bool.eq_false_iff.mp h)

/-- Settles O10: the registers and CSRs are those the register file's reset leaves, and the memory is empty or the old one
as RESET_CLEARS_MEMORY says. -/
theorem coreResetValues : Obligations.CoreResetValues := by
  intro s
  refine ⟨s.getReg_coreReset, rfl, s.getCsr_coreReset, rfl, rfl, rfl, ?clears, ?keeps⟩
  case clears =>
    intro h a
    rw [State.coreReset_mem_of_clears h]
    exact Cells.read_nil a
  case keeps =>
    intro h a
    rw [State.coreReset_mem_of_keeps h]

end Sys2Proof.Machine

/-! The statements about the decoder, the encoder and the opcode table of 30_encoding.md (R100 to R122). -/

namespace Sys2Proof

/-! ## The dispatch on the opcode (R115) -/

section Dispatch

variable {w : Word}

theorem decode_lui (h : opcodeOf w = 0x37#7) : decode w = .instr (.lui (rdOf w) (immU w)) := by simp [decode, h]

theorem decode_auipc (h : opcodeOf w = 0x17#7) : decode w = .instr (.auipc (rdOf w) (immU w)) := by simp [decode, h]

theorem decode_jal (h : opcodeOf w = 0x6F#7) : decode w = .instr (.jal (rdOf w) (immJ w)) := by simp [decode, h]

theorem decode_eq_decodeJalr (h : opcodeOf w = 0x67#7) : decode w = decodeJalr w := by simp [decode, h]

theorem decode_eq_decodeBranch (h : opcodeOf w = 0x63#7) : decode w = decodeBranch w := by simp [decode, h]

theorem decode_eq_decodeLoad (h : opcodeOf w = 0x03#7) : decode w = decodeLoad w := by simp [decode, h]

theorem decode_eq_decodeStore (h : opcodeOf w = 0x23#7) : decode w = decodeStore w := by simp [decode, h]

theorem decode_eq_decodeOpImm (h : opcodeOf w = 0x13#7) : decode w = decodeOpImm w := by simp [decode, h]

theorem decode_eq_decodeOp (h : opcodeOf w = 0x33#7) : decode w = decodeOp w := by simp [decode, h]

theorem decode_eq_decodeSystem (h : opcodeOf w = 0x73#7) : decode w = decodeSystem w := by simp [decode, h]

theorem decode_eq_decodeMiscMem (h : opcodeOf w = 0x0F#7) : decode w = decodeMiscMem w := by simp [decode, h]

end Dispatch

/-! ## Encode after decode (R101 to R120)

Under each opcode the decoder's arms make instructions of one format or two, whose word is rebuilt from the fields that
selected the arm. -/

/-- i is well-formed and w is its word. -/
def SpelledBy (w : Word) (i : Instr) : Prop := i.wf = true ∧ encode i = w

section SpelledBy

variable {w : Word} {i : Instr}

theorem decodeJalr_spelledBy (ho : opcodeOf w = 0x67#7) (h : decodeJalr w = .instr i) : SpelledBy w i := by
  unfold decodeJalr at h
  split at h
  next h3 => cases h; exact ⟨fitsImm12_immI w, encI_of_fields ho h3⟩
  next => cases h

theorem decodeBranch_spelledBy (ho : opcodeOf w = 0x63#7) (h : decodeBranch w = .instr i) : SpelledBy w i := by
  unfold decodeBranch at h
  split at h
  iterate 6 next h3 => cases h; exact ⟨fitsBranch_immB w, encB_of_fields ho h3⟩
  next => cases h

theorem decodeLoad_spelledBy (ho : opcodeOf w = 0x03#7) (h : decodeLoad w = .instr i) : SpelledBy w i := by
  unfold decodeLoad at h
  split at h
  iterate 5 next h3 => cases h; exact ⟨fitsImm12_immI w, encI_of_fields ho h3⟩
  next => cases h

theorem decodeStore_spelledBy (ho : opcodeOf w = 0x23#7) (h : decodeStore w = .instr i) : SpelledBy w i := by
  unfold decodeStore at h
  split at h
  iterate 3 next h3 => cases h; exact ⟨fitsImm12_immS w, encS_of_fields ho h3⟩
  next => cases h

theorem decodeOpImm_spelledBy (ho : opcodeOf w = 0x13#7) (h : decodeOpImm w = .instr i) : SpelledBy w i := by
  unfold decodeOpImm at h
  split at h
  iterate 6 next h3 => cases h; exact ⟨fitsImm12_immI w, encI_of_fields ho h3⟩
  iterate 2
    next h3 =>
      split at h <;> cases h
      all_goals exact ⟨rfl, encR_shamt_of_fields ho h3 ‹_›⟩
  next => cases h

theorem decodeOp_spelledBy (ho : opcodeOf w = 0x33#7) (h : decodeOp w = .instr i) : SpelledBy w i := by
  unfold decodeOp at h
  split at h
  iterate 2
    next h7 =>
      split at h <;> cases h
      all_goals exact ⟨rfl, encR_of_fields ho ‹_› h7⟩
  next => cases h

theorem decodeSystem_spelledBy (ho : opcodeOf w = 0x73#7) (h : decodeSystem w = .instr i) : SpelledBy w i := by
  unfold decodeSystem at h
  split at h
  next h3 =>
    split at h
    next hw => cases h; exact ⟨rfl, hw.symm⟩
    next =>
      split at h
      next hw => cases h; exact ⟨rfl, hw.symm⟩
      next => cases h
  iterate 3 next h3 => cases h; exact ⟨rfl, encI_csr_of_fields ho h3⟩
  iterate 3 next h3 => cases h; exact ⟨rfl, encI_zimm_of_fields ho h3⟩
  next => cases h

theorem decodeMiscMem_spelledBy (ho : opcodeOf w = 0x0F#7) (h : decodeMiscMem w = .instr i) : SpelledBy w i := by
  unfold decodeMiscMem at h
  split at h
  next h3 => cases h; exact ⟨rfl, encI_csr_of_fields ho h3⟩
  next => cases h

theorem decode_spelledBy (h : decode w = .instr i) : SpelledBy w i := by
  unfold decode at h
  split at h
  next ho => cases h; exact ⟨fitsUpper_immU w, encU_of_fields ho⟩
  next ho => cases h; exact ⟨fitsUpper_immU w, encU_of_fields ho⟩
  next ho => cases h; exact ⟨fitsJump_immJ w, encJ_of_fields ho⟩
  next ho => exact decodeJalr_spelledBy ho h
  next ho => exact decodeBranch_spelledBy ho h
  next ho => exact decodeLoad_spelledBy ho h
  next ho => exact decodeStore_spelledBy ho h
  next ho => exact decodeOpImm_spelledBy ho h
  next ho => exact decodeOp_spelledBy ho h
  next ho => exact decodeSystem_spelledBy ho h
  next ho => exact decodeMiscMem_spelledBy ho h
  next => cases h

end SpelledBy

/-- Settles O3: under each opcode an arm of the decoder fixes the fields from which its format rebuilds the word. -/
theorem decodedWordIsItsEncoding : Obligations.DecodedWordIsItsEncoding := fun _ _ h => decode_spelledBy h

/-- Settles O2: the law of each constructor (Laws/PerInstr.lean). -/
theorem decodeEncodeRoundTrip : Obligations.DecodeEncodeRoundTrip := by
  intro i
  cases i with
  | lui rd imm => exact Laws.DecodesBack.lui rd imm
  | auipc rd imm => exact Laws.DecodesBack.auipc rd imm
  | jal rd off => exact Laws.DecodesBack.jal rd off
  | jalr rd rs1 imm => exact Laws.DecodesBack.jalr rd rs1 imm
  | beq rs1 rs2 off => exact Laws.DecodesBack.beq rs1 rs2 off
  | bne rs1 rs2 off => exact Laws.DecodesBack.bne rs1 rs2 off
  | blt rs1 rs2 off => exact Laws.DecodesBack.blt rs1 rs2 off
  | bge rs1 rs2 off => exact Laws.DecodesBack.bge rs1 rs2 off
  | bltu rs1 rs2 off => exact Laws.DecodesBack.bltu rs1 rs2 off
  | bgeu rs1 rs2 off => exact Laws.DecodesBack.bgeu rs1 rs2 off
  | lb rd rs1 imm => exact Laws.DecodesBack.lb rd rs1 imm
  | lh rd rs1 imm => exact Laws.DecodesBack.lh rd rs1 imm
  | lw rd rs1 imm => exact Laws.DecodesBack.lw rd rs1 imm
  | lbu rd rs1 imm => exact Laws.DecodesBack.lbu rd rs1 imm
  | lhu rd rs1 imm => exact Laws.DecodesBack.lhu rd rs1 imm
  | sb rs2 rs1 imm => exact Laws.DecodesBack.sb rs2 rs1 imm
  | sh rs2 rs1 imm => exact Laws.DecodesBack.sh rs2 rs1 imm
  | sw rs2 rs1 imm => exact Laws.DecodesBack.sw rs2 rs1 imm
  | addi rd rs1 imm => exact Laws.DecodesBack.addi rd rs1 imm
  | slti rd rs1 imm => exact Laws.DecodesBack.slti rd rs1 imm
  | sltiu rd rs1 imm => exact Laws.DecodesBack.sltiu rd rs1 imm
  | xori rd rs1 imm => exact Laws.DecodesBack.xori rd rs1 imm
  | ori rd rs1 imm => exact Laws.DecodesBack.ori rd rs1 imm
  | andi rd rs1 imm => exact Laws.DecodesBack.andi rd rs1 imm
  | slli rd rs1 shamt => exact Laws.DecodesBack.slli rd rs1 shamt
  | srli rd rs1 shamt => exact Laws.DecodesBack.srli rd rs1 shamt
  | srai rd rs1 shamt => exact Laws.DecodesBack.srai rd rs1 shamt
  | add rd rs1 rs2 => exact Laws.DecodesBack.add rd rs1 rs2
  | sub rd rs1 rs2 => exact Laws.DecodesBack.sub rd rs1 rs2
  | sll rd rs1 rs2 => exact Laws.DecodesBack.sll rd rs1 rs2
  | slt rd rs1 rs2 => exact Laws.DecodesBack.slt rd rs1 rs2
  | sltu rd rs1 rs2 => exact Laws.DecodesBack.sltu rd rs1 rs2
  | xor rd rs1 rs2 => exact Laws.DecodesBack.xor rd rs1 rs2
  | srl rd rs1 rs2 => exact Laws.DecodesBack.srl rd rs1 rs2
  | sra rd rs1 rs2 => exact Laws.DecodesBack.sra rd rs1 rs2
  | or rd rs1 rs2 => exact Laws.DecodesBack.or rd rs1 rs2
  | and rd rs1 rs2 => exact Laws.DecodesBack.and rd rs1 rs2
  | fence ordering rs1 rd => exact Laws.DecodesBack.fence ordering rs1 rd
  | ecall => exact Laws.DecodesBack.ecall
  | ebreak => exact Laws.DecodesBack.ebreak
  | csrrw rd csr rs1 => exact Laws.DecodesBack.csrrw rd csr rs1
  | csrrs rd csr rs1 => exact Laws.DecodesBack.csrrs rd csr rs1
  | csrrc rd csr rs1 => exact Laws.DecodesBack.csrrc rd csr rs1
  | csrrwi rd csr zimm => exact Laws.DecodesBack.csrrwi rd csr zimm
  | csrrsi rd csr zimm => exact Laws.DecodesBack.csrrsi rd csr zimm
  | csrrci rd csr zimm => exact Laws.DecodesBack.csrrci rd csr zimm

/-- Settles O1: the decoder, run on each of the nine words. -/
theorem writtenOutWordsDecode : Obligations.WrittenOutWordsDecode := by
  unfold Obligations.WrittenOutWordsDecode
  decide

end Sys2Proof

/-! The statements about the opcode table (R115 to R122): its rows decode, do not overlap, and are all the decoder
admits. -/

namespace Sys2Proof

open Machine

/-! ## The rows decode -/

/-- A row that fixes the opcode decodes when its opcode's dispatch does. -/
theorem encodes_of_opcode {v : Word} {f : Word → Instr} (op : BitVec 7)
    (hv : v &&& 0x0000007F#32 = v ∧ opcodeOf v = op) (h : ∀ {w}, opcodeOf w = op → decode w = .instr (f w)) :
    Encodes 0x0000007F#32 v f := by
  obtain ⟨hmask, rfl⟩ := hv
  exact fun w hw => h ((and_opcode_iff hmask).mp hw)

/-- A row that fixes opcode and funct3 decodes when the arm of its funct3 does, in the decoder d of its opcode. -/
theorem encodes_of_funct3 {v : Word} {f : Word → Instr} {op : BitVec 7} {d : Word → Decoded} (f3 : BitVec 3)
    (hv : v &&& 0x0000707F#32 = v ∧ opcodeOf v = op ∧ funct3Of v = f3)
    (hd : ∀ {w}, opcodeOf w = op → decode w = d w) (h : ∀ w, funct3Of w = f3 → d w = .instr (f w)) :
    Encodes 0x0000707F#32 v f := by
  obtain ⟨hmask, rfl, rfl⟩ := hv
  intro w hw
  obtain ⟨ho, h3⟩ := (and_funct3_iff hmask).mp hw
  exact (hd ho).trans (h w h3)

/-- A row that fixes opcode, funct3 and inst[31:25] decodes when the arm of both does, in its opcode's decoder d. -/
theorem encodes_of_funct7 {v : Word} {f : Word → Instr} {op : BitVec 7} {d : Word → Decoded} (f3 : BitVec 3)
    (f7 : BitVec 7) (hv : v &&& 0xFE00707F#32 = v ∧ opcodeOf v = op ∧ funct3Of v = f3 ∧ funct7Of v = f7)
    (hd : ∀ {w}, opcodeOf w = op → decode w = d w)
    (h : ∀ w, funct3Of w = f3 → funct7Of w = f7 → d w = .instr (f w)) : Encodes 0xFE00707F#32 v f := by
  obtain ⟨hmask, rfl, rfl, rfl⟩ := hv
  intro w hw
  obtain ⟨ho, h3, h7⟩ := (and_funct7_iff hmask).mp hw
  exact (hd ho).trans (h w h3 h7)

/-- A row that fixes the whole word decodes when its word does. -/
theorem encodes_of_word {v : Word} {i : Instr} (h : decode v = .instr i) : Encodes 0xFFFFFFFF#32 v (fun _ => i) := by
  intro w hw
  have hall : w &&& 0xFFFFFFFF#32 = w := BitVec.and_allOnes
  rw [← hall, hw]
  exact h

/-- Settles O5: a row fixes the fields that select one arm of the decoder, which makes the row's instruction. -/
theorem everyRowDecodesWithItsOperands : Obligations.EveryRowDecodesWithItsOperands := by
  refine ⟨?lui, ?auipc, ?jal, ?jalr, ?beq, ?bne, ?blt, ?bge, ?bltu, ?bgeu, ?lb, ?lh, ?lw, ?lbu, ?lhu, ?sb, ?sh, ?sw,
    ?addi, ?slti, ?sltiu, ?xori, ?ori, ?andi, ?slli, ?srli, ?srai, ?add, ?sub, ?sll, ?slt, ?sltu, ?xor, ?srl, ?sra,
    ?or, ?and, ?fence, ?ecall, ?ebreak, ?csrrw, ?csrrs, ?csrrc, ?csrrwi, ?csrrsi, ?csrrci⟩
  case lui => exact encodes_of_opcode 0x37#7 (by decide) decode_lui
  case auipc => exact encodes_of_opcode 0x17#7 (by decide) decode_auipc
  case jal => exact encodes_of_opcode 0x6F#7 (by decide) decode_jal
  case jalr => exact encodes_of_funct3 0b000#3 (by decide) decode_eq_decodeJalr fun w h3 => by simp [decodeJalr, h3]
  case beq => exact encodes_of_funct3 0b000#3 (by decide) decode_eq_decodeBranch fun w h3 => by simp [decodeBranch, h3]
  case bne => exact encodes_of_funct3 0b001#3 (by decide) decode_eq_decodeBranch fun w h3 => by simp [decodeBranch, h3]
  case blt => exact encodes_of_funct3 0b100#3 (by decide) decode_eq_decodeBranch fun w h3 => by simp [decodeBranch, h3]
  case bge => exact encodes_of_funct3 0b101#3 (by decide) decode_eq_decodeBranch fun w h3 => by simp [decodeBranch, h3]
  case bltu => exact encodes_of_funct3 0b110#3 (by decide) decode_eq_decodeBranch fun w h3 => by simp [decodeBranch, h3]
  case bgeu => exact encodes_of_funct3 0b111#3 (by decide) decode_eq_decodeBranch fun w h3 => by simp [decodeBranch, h3]
  case lb => exact encodes_of_funct3 0b000#3 (by decide) decode_eq_decodeLoad fun w h3 => by simp [decodeLoad, h3]
  case lh => exact encodes_of_funct3 0b001#3 (by decide) decode_eq_decodeLoad fun w h3 => by simp [decodeLoad, h3]
  case lw => exact encodes_of_funct3 0b010#3 (by decide) decode_eq_decodeLoad fun w h3 => by simp [decodeLoad, h3]
  case lbu => exact encodes_of_funct3 0b100#3 (by decide) decode_eq_decodeLoad fun w h3 => by simp [decodeLoad, h3]
  case lhu => exact encodes_of_funct3 0b101#3 (by decide) decode_eq_decodeLoad fun w h3 => by simp [decodeLoad, h3]
  case sb => exact encodes_of_funct3 0b000#3 (by decide) decode_eq_decodeStore fun w h3 => by simp [decodeStore, h3]
  case sh => exact encodes_of_funct3 0b001#3 (by decide) decode_eq_decodeStore fun w h3 => by simp [decodeStore, h3]
  case sw => exact encodes_of_funct3 0b010#3 (by decide) decode_eq_decodeStore fun w h3 => by simp [decodeStore, h3]
  case addi => exact encodes_of_funct3 0b000#3 (by decide) decode_eq_decodeOpImm fun w h3 => by simp [decodeOpImm, h3]
  case slti => exact encodes_of_funct3 0b010#3 (by decide) decode_eq_decodeOpImm fun w h3 => by simp [decodeOpImm, h3]
  case sltiu => exact encodes_of_funct3 0b011#3 (by decide) decode_eq_decodeOpImm fun w h3 => by simp [decodeOpImm, h3]
  case xori => exact encodes_of_funct3 0b100#3 (by decide) decode_eq_decodeOpImm fun w h3 => by simp [decodeOpImm, h3]
  case ori => exact encodes_of_funct3 0b110#3 (by decide) decode_eq_decodeOpImm fun w h3 => by simp [decodeOpImm, h3]
  case andi => exact encodes_of_funct3 0b111#3 (by decide) decode_eq_decodeOpImm fun w h3 => by simp [decodeOpImm, h3]
  case slli =>
    exact encodes_of_funct7 0b001#3 0b0000000#7 (by decide) decode_eq_decodeOpImm fun w h3 h7 =>
      by simp [decodeOpImm, h3, h7]
  case srli =>
    exact encodes_of_funct7 0b101#3 0b0000000#7 (by decide) decode_eq_decodeOpImm fun w h3 h7 =>
      by simp [decodeOpImm, h3, h7]
  case srai =>
    exact encodes_of_funct7 0b101#3 0b0100000#7 (by decide) decode_eq_decodeOpImm fun w h3 h7 =>
      by simp [decodeOpImm, h3, h7]
  case add =>
    exact encodes_of_funct7 0b000#3 0b0000000#7 (by decide) decode_eq_decodeOp fun w h3 h7 => by simp [decodeOp, h3, h7]
  case sub =>
    exact encodes_of_funct7 0b000#3 0b0100000#7 (by decide) decode_eq_decodeOp fun w h3 h7 => by simp [decodeOp, h3, h7]
  case sll =>
    exact encodes_of_funct7 0b001#3 0b0000000#7 (by decide) decode_eq_decodeOp fun w h3 h7 => by simp [decodeOp, h3, h7]
  case slt =>
    exact encodes_of_funct7 0b010#3 0b0000000#7 (by decide) decode_eq_decodeOp fun w h3 h7 => by simp [decodeOp, h3, h7]
  case sltu =>
    exact encodes_of_funct7 0b011#3 0b0000000#7 (by decide) decode_eq_decodeOp fun w h3 h7 => by simp [decodeOp, h3, h7]
  case xor =>
    exact encodes_of_funct7 0b100#3 0b0000000#7 (by decide) decode_eq_decodeOp fun w h3 h7 => by simp [decodeOp, h3, h7]
  case srl =>
    exact encodes_of_funct7 0b101#3 0b0000000#7 (by decide) decode_eq_decodeOp fun w h3 h7 => by simp [decodeOp, h3, h7]
  case sra =>
    exact encodes_of_funct7 0b101#3 0b0100000#7 (by decide) decode_eq_decodeOp fun w h3 h7 => by simp [decodeOp, h3, h7]
  case or =>
    exact encodes_of_funct7 0b110#3 0b0000000#7 (by decide) decode_eq_decodeOp fun w h3 h7 => by simp [decodeOp, h3, h7]
  case and =>
    exact encodes_of_funct7 0b111#3 0b0000000#7 (by decide) decode_eq_decodeOp fun w h3 h7 => by simp [decodeOp, h3, h7]
  case fence =>
    exact encodes_of_funct3 0b000#3 (by decide) decode_eq_decodeMiscMem fun w h3 => by simp [decodeMiscMem, h3]
  case ecall => exact encodes_of_word (by decide)
  case ebreak => exact encodes_of_word (by decide)
  case csrrw =>
    exact encodes_of_funct3 0b001#3 (by decide) decode_eq_decodeSystem fun w h3 => by simp [decodeSystem, h3]
  case csrrs =>
    exact encodes_of_funct3 0b010#3 (by decide) decode_eq_decodeSystem fun w h3 => by simp [decodeSystem, h3]
  case csrrc =>
    exact encodes_of_funct3 0b011#3 (by decide) decode_eq_decodeSystem fun w h3 => by simp [decodeSystem, h3]
  case csrrwi =>
    exact encodes_of_funct3 0b101#3 (by decide) decode_eq_decodeSystem fun w h3 => by simp [decodeSystem, h3]
  case csrrsi =>
    exact encodes_of_funct3 0b110#3 (by decide) decode_eq_decodeSystem fun w h3 => by simp [decodeSystem, h3]
  case csrrci =>
    exact encodes_of_funct3 0b111#3 (by decide) decode_eq_decodeSystem fun w h3 => by simp [decodeSystem, h3]

/-! ## The rows are the decoder (R121) -/

/-- Every word the row admits decodes to an instruction of the row's mnemonic. -/
def RowDecodes (r : OpcodeRow) : Prop := ∃ f : Word → Instr, Encodes r.mask r.value f ∧ ∀ w, (f w).mnemonic = r.mnemonic

theorem opcodeTable_rowDecodes : ∀ r ∈ opcodeTable, RowDecodes r := by
  obtain ⟨lui, auipc, jal, jalr, beq, bne, blt, bge, bltu, bgeu, lb, lh, lw, lbu, lhu, sb, sh, sw, addi, slti, sltiu,
    xori, ori, andi, slli, srli, srai, add, sub, sll, slt, sltu, xor, srl, sra, or, and, fence, ecall, ebreak, csrrw,
    csrrs, csrrc, csrrwi, csrrsi, csrrci⟩ := everyRowDecodesWithItsOperands
  simp only [opcodeTable, tableOpcodeOnly, tableTransfersAndMemory, tableOpImm, tableOp, tableSystem,
    List.forall_mem_append, List.forall_mem_cons, List.not_mem_nil, false_implies, implies_true, and_true]
  refine ⟨⟨⟨⟨?opcodeOnly, ?transfersAndMemory⟩, ?opImm⟩, ?op⟩, ?system⟩
  case opcodeOnly =>
    exact ⟨⟨_, lui, fun _ => rfl⟩, ⟨_, auipc, fun _ => rfl⟩, ⟨_, jal, fun _ => rfl⟩⟩
  case transfersAndMemory =>
    exact ⟨⟨_, jalr, fun _ => rfl⟩, ⟨_, beq, fun _ => rfl⟩, ⟨_, bne, fun _ => rfl⟩, ⟨_, blt, fun _ => rfl⟩,
      ⟨_, bge, fun _ => rfl⟩, ⟨_, bltu, fun _ => rfl⟩, ⟨_, bgeu, fun _ => rfl⟩, ⟨_, lb, fun _ => rfl⟩,
      ⟨_, lh, fun _ => rfl⟩, ⟨_, lw, fun _ => rfl⟩, ⟨_, lbu, fun _ => rfl⟩, ⟨_, lhu, fun _ => rfl⟩,
      ⟨_, sb, fun _ => rfl⟩, ⟨_, sh, fun _ => rfl⟩, ⟨_, sw, fun _ => rfl⟩⟩
  case opImm =>
    exact ⟨⟨_, addi, fun _ => rfl⟩, ⟨_, slti, fun _ => rfl⟩, ⟨_, sltiu, fun _ => rfl⟩, ⟨_, xori, fun _ => rfl⟩,
      ⟨_, ori, fun _ => rfl⟩, ⟨_, andi, fun _ => rfl⟩, ⟨_, slli, fun _ => rfl⟩, ⟨_, srli, fun _ => rfl⟩,
      ⟨_, srai, fun _ => rfl⟩⟩
  case op =>
    exact ⟨⟨_, add, fun _ => rfl⟩, ⟨_, sub, fun _ => rfl⟩, ⟨_, sll, fun _ => rfl⟩, ⟨_, slt, fun _ => rfl⟩,
      ⟨_, sltu, fun _ => rfl⟩, ⟨_, xor, fun _ => rfl⟩, ⟨_, srl, fun _ => rfl⟩, ⟨_, sra, fun _ => rfl⟩,
      ⟨_, or, fun _ => rfl⟩, ⟨_, and, fun _ => rfl⟩⟩
  case system =>
    exact ⟨⟨_, fence, fun _ => rfl⟩, ⟨_, ecall, fun _ => rfl⟩, ⟨_, ebreak, fun _ => rfl⟩, ⟨_, csrrw, fun _ => rfl⟩,
      ⟨_, csrrs, fun _ => rfl⟩, ⟨_, csrrc, fun _ => rfl⟩, ⟨_, csrrwi, fun _ => rfl⟩, ⟨_, csrrsi, fun _ => rfl⟩,
      ⟨_, csrrci, fun _ => rfl⟩⟩

section Admits

variable {m : String} {v : Word} {op : BitVec 7} {f3 : BitVec 3} {f7 : BitVec 7}

theorem admits_encU {rd : Reg} {imm : Word} (hv : v &&& 0x0000007F#32 = v ∧ opcodeOf v = op) :
    OpcodeRow.admits ⟨m, 0x0000007F#32, v⟩ (encU op rd imm) = true :=
  beq_iff_eq.mpr ((and_opcode_iff hv.1).mpr ((opcodeOf_encU ..).trans hv.2.symm))

theorem admits_encJ {rd : Reg} {off : Word} (hv : v &&& 0x0000007F#32 = v ∧ opcodeOf v = op) :
    OpcodeRow.admits ⟨m, 0x0000007F#32, v⟩ (encJ op rd off) = true :=
  beq_iff_eq.mpr ((and_opcode_iff hv.1).mpr ((opcodeOf_encJ ..).trans hv.2.symm))

theorem admits_of_funct3 {w : Word} (hv : v &&& 0x0000707F#32 = v ∧ opcodeOf v = op ∧ funct3Of v = f3)
    (ho : opcodeOf w = op) (h3 : funct3Of w = f3) : OpcodeRow.admits ⟨m, 0x0000707F#32, v⟩ w = true := by
  obtain ⟨hmask, rfl, rfl⟩ := hv
  exact beq_iff_eq.mpr ((and_funct3_iff hmask).mpr ⟨ho, h3⟩)

theorem admits_encI {rd rs1 : Reg} {imm : BitVec 12}
    (hv : v &&& 0x0000707F#32 = v ∧ opcodeOf v = op ∧ funct3Of v = f3) :
    OpcodeRow.admits ⟨m, 0x0000707F#32, v⟩ (encI f3 op rd rs1 imm) = true :=
  admits_of_funct3 hv (opcodeOf_encI ..) (funct3Of_encI ..)

theorem admits_encS {rs2 rs1 : Reg} {imm : Word}
    (hv : v &&& 0x0000707F#32 = v ∧ opcodeOf v = op ∧ funct3Of v = f3) :
    OpcodeRow.admits ⟨m, 0x0000707F#32, v⟩ (encS f3 op rs2 rs1 imm) = true :=
  admits_of_funct3 hv (opcodeOf_encS ..) (funct3Of_encS ..)

theorem admits_encB {rs1 rs2 : Reg} {off : Word}
    (hv : v &&& 0x0000707F#32 = v ∧ opcodeOf v = op ∧ funct3Of v = f3) :
    OpcodeRow.admits ⟨m, 0x0000707F#32, v⟩ (encB f3 op rs1 rs2 off) = true :=
  admits_of_funct3 hv (opcodeOf_encB ..) (funct3Of_encB ..)

theorem admits_encR {rd rs1 rs2 : Reg}
    (hv : v &&& 0xFE00707F#32 = v ∧ opcodeOf v = op ∧ funct3Of v = f3 ∧ funct7Of v = f7) :
    OpcodeRow.admits ⟨m, 0xFE00707F#32, v⟩ (encR f7 f3 op rd rs1 rs2) = true := by
  obtain ⟨hmask, rfl, rfl, rfl⟩ := hv
  exact beq_iff_eq.mpr ((and_funct7_iff hmask).mpr ⟨opcodeOf_encR .., funct3Of_encR .., funct7Of_encR ..⟩)

end Admits

/-- Some row of i's mnemonic admits i's word. -/
theorem encode_admitted (i : Instr) : ∃ r ∈ opcodeTable, r.mnemonic = i.mnemonic ∧ r.admits (encode i) = true := by
  cases i with
  | lui rd imm => exact ⟨⟨"LUI", 0x0000007F#32, 0x00000037#32⟩, by decide, rfl, admits_encU (by decide)⟩
  | auipc rd imm => exact ⟨⟨"AUIPC", 0x0000007F#32, 0x00000017#32⟩, by decide, rfl, admits_encU (by decide)⟩
  | jal rd off => exact ⟨⟨"JAL", 0x0000007F#32, 0x0000006F#32⟩, by decide, rfl, admits_encJ (by decide)⟩
  | jalr rd rs1 imm => exact ⟨⟨"JALR", 0x0000707F#32, 0x00000067#32⟩, by decide, rfl, admits_encI (by decide)⟩
  | beq rs1 rs2 off => exact ⟨⟨"BEQ", 0x0000707F#32, 0x00000063#32⟩, by decide, rfl, admits_encB (by decide)⟩
  | bne rs1 rs2 off => exact ⟨⟨"BNE", 0x0000707F#32, 0x00001063#32⟩, by decide, rfl, admits_encB (by decide)⟩
  | blt rs1 rs2 off => exact ⟨⟨"BLT", 0x0000707F#32, 0x00004063#32⟩, by decide, rfl, admits_encB (by decide)⟩
  | bge rs1 rs2 off => exact ⟨⟨"BGE", 0x0000707F#32, 0x00005063#32⟩, by decide, rfl, admits_encB (by decide)⟩
  | bltu rs1 rs2 off => exact ⟨⟨"BLTU", 0x0000707F#32, 0x00006063#32⟩, by decide, rfl, admits_encB (by decide)⟩
  | bgeu rs1 rs2 off => exact ⟨⟨"BGEU", 0x0000707F#32, 0x00007063#32⟩, by decide, rfl, admits_encB (by decide)⟩
  | lb rd rs1 imm => exact ⟨⟨"LB", 0x0000707F#32, 0x00000003#32⟩, by decide, rfl, admits_encI (by decide)⟩
  | lh rd rs1 imm => exact ⟨⟨"LH", 0x0000707F#32, 0x00001003#32⟩, by decide, rfl, admits_encI (by decide)⟩
  | lw rd rs1 imm => exact ⟨⟨"LW", 0x0000707F#32, 0x00002003#32⟩, by decide, rfl, admits_encI (by decide)⟩
  | lbu rd rs1 imm => exact ⟨⟨"LBU", 0x0000707F#32, 0x00004003#32⟩, by decide, rfl, admits_encI (by decide)⟩
  | lhu rd rs1 imm => exact ⟨⟨"LHU", 0x0000707F#32, 0x00005003#32⟩, by decide, rfl, admits_encI (by decide)⟩
  | sb rs2 rs1 imm => exact ⟨⟨"SB", 0x0000707F#32, 0x00000023#32⟩, by decide, rfl, admits_encS (by decide)⟩
  | sh rs2 rs1 imm => exact ⟨⟨"SH", 0x0000707F#32, 0x00001023#32⟩, by decide, rfl, admits_encS (by decide)⟩
  | sw rs2 rs1 imm => exact ⟨⟨"SW", 0x0000707F#32, 0x00002023#32⟩, by decide, rfl, admits_encS (by decide)⟩
  | addi rd rs1 imm => exact ⟨⟨"ADDI", 0x0000707F#32, 0x00000013#32⟩, by decide, rfl, admits_encI (by decide)⟩
  | slti rd rs1 imm => exact ⟨⟨"SLTI", 0x0000707F#32, 0x00002013#32⟩, by decide, rfl, admits_encI (by decide)⟩
  | sltiu rd rs1 imm => exact ⟨⟨"SLTIU", 0x0000707F#32, 0x00003013#32⟩, by decide, rfl, admits_encI (by decide)⟩
  | xori rd rs1 imm => exact ⟨⟨"XORI", 0x0000707F#32, 0x00004013#32⟩, by decide, rfl, admits_encI (by decide)⟩
  | ori rd rs1 imm => exact ⟨⟨"ORI", 0x0000707F#32, 0x00006013#32⟩, by decide, rfl, admits_encI (by decide)⟩
  | andi rd rs1 imm => exact ⟨⟨"ANDI", 0x0000707F#32, 0x00007013#32⟩, by decide, rfl, admits_encI (by decide)⟩
  | slli rd rs1 shamt => exact ⟨⟨"SLLI", 0xFE00707F#32, 0x00001013#32⟩, by decide, rfl, admits_encR (by decide)⟩
  | srli rd rs1 shamt => exact ⟨⟨"SRLI", 0xFE00707F#32, 0x00005013#32⟩, by decide, rfl, admits_encR (by decide)⟩
  | srai rd rs1 shamt => exact ⟨⟨"SRAI", 0xFE00707F#32, 0x40005013#32⟩, by decide, rfl, admits_encR (by decide)⟩
  | add rd rs1 rs2 => exact ⟨⟨"ADD", 0xFE00707F#32, 0x00000033#32⟩, by decide, rfl, admits_encR (by decide)⟩
  | sub rd rs1 rs2 => exact ⟨⟨"SUB", 0xFE00707F#32, 0x40000033#32⟩, by decide, rfl, admits_encR (by decide)⟩
  | sll rd rs1 rs2 => exact ⟨⟨"SLL", 0xFE00707F#32, 0x00001033#32⟩, by decide, rfl, admits_encR (by decide)⟩
  | slt rd rs1 rs2 => exact ⟨⟨"SLT", 0xFE00707F#32, 0x00002033#32⟩, by decide, rfl, admits_encR (by decide)⟩
  | sltu rd rs1 rs2 => exact ⟨⟨"SLTU", 0xFE00707F#32, 0x00003033#32⟩, by decide, rfl, admits_encR (by decide)⟩
  | xor rd rs1 rs2 => exact ⟨⟨"XOR", 0xFE00707F#32, 0x00004033#32⟩, by decide, rfl, admits_encR (by decide)⟩
  | srl rd rs1 rs2 => exact ⟨⟨"SRL", 0xFE00707F#32, 0x00005033#32⟩, by decide, rfl, admits_encR (by decide)⟩
  | sra rd rs1 rs2 => exact ⟨⟨"SRA", 0xFE00707F#32, 0x40005033#32⟩, by decide, rfl, admits_encR (by decide)⟩
  | or rd rs1 rs2 => exact ⟨⟨"OR", 0xFE00707F#32, 0x00006033#32⟩, by decide, rfl, admits_encR (by decide)⟩
  | and rd rs1 rs2 => exact ⟨⟨"AND", 0xFE00707F#32, 0x00007033#32⟩, by decide, rfl, admits_encR (by decide)⟩
  | fence ordering rs1 rd => exact ⟨⟨"FENCE", 0x0000707F#32, 0x0000000F#32⟩, by decide, rfl, admits_encI (by decide)⟩
  | ecall => exact ⟨⟨"ECALL", 0xFFFFFFFF#32, 0x00000073#32⟩, by decide, rfl, rfl⟩
  | ebreak => exact ⟨⟨"EBREAK", 0xFFFFFFFF#32, 0x00100073#32⟩, by decide, rfl, rfl⟩
  | csrrw rd csr rs1 => exact ⟨⟨"CSRRW", 0x0000707F#32, 0x00001073#32⟩, by decide, rfl, admits_encI (by decide)⟩
  | csrrs rd csr rs1 => exact ⟨⟨"CSRRS", 0x0000707F#32, 0x00002073#32⟩, by decide, rfl, admits_encI (by decide)⟩
  | csrrc rd csr rs1 => exact ⟨⟨"CSRRC", 0x0000707F#32, 0x00003073#32⟩, by decide, rfl, admits_encI (by decide)⟩
  | csrrwi rd csr zimm => exact ⟨⟨"CSRRWI", 0x0000707F#32, 0x00005073#32⟩, by decide, rfl, admits_encI (by decide)⟩
  | csrrsi rd csr zimm => exact ⟨⟨"CSRRSI", 0x0000707F#32, 0x00006073#32⟩, by decide, rfl, admits_encI (by decide)⟩
  | csrrci rd csr zimm => exact ⟨⟨"CSRRCI", 0x0000707F#32, 0x00007073#32⟩, by decide, rfl, admits_encI (by decide)⟩

/-- Settles O4: a word that decodes is the encoding of its instruction, which a row of its mnemonic admits; what a row
admits decodes to an instruction of the row's mnemonic. -/
theorem decoderAgreesWithOpcodeTable : Obligations.DecoderAgreesWithOpcodeTable := by
  intro w m
  constructor
  · rintro ⟨i, hd, rfl⟩
    obtain ⟨_, rfl⟩ := decode_spelledBy hd
    exact encode_admitted i
  · rintro ⟨r, hr, rfl, ha⟩
    obtain ⟨f, hf, hm⟩ := opcodeTable_rowDecodes r hr
    exact ⟨f w, hf w (beq_iff_eq.mp ha), hm w⟩

/-! ## The rows do not overlap (R122) -/

/-- A word does not match two rows that differ in a bit both fix. -/
theorem not_admits_of_differ {r q : OpcodeRow} {w : Word}
    (h : r.mask &&& q.mask &&& (r.value ^^^ q.value) ≠ 0#32) (hr : r.admits w = true) : q.admits w ≠ true := by
  intro hq
  have hrv : w &&& r.mask = r.value := beq_iff_eq.mp hr
  have hqv : w &&& q.mask = q.value := beq_iff_eq.mp hq
  refine h (BitVec.eq_of_getLsbD_eq fun k _ => ?_)
  rw [← hrv, ← hqv]
  cases hr : r.mask.getLsbD k <;> cases hq : q.mask.getLsbD k <;> simp [hr, hq]

/-- Any two rows fix a common bit to different values: all 1035 pairs, one by one. -/
theorem opcodeTable_pairwise_differ :
    opcodeTable.Pairwise (fun r q => r.mask &&& q.mask &&& (r.value ^^^ q.value) ≠ 0#32) := by
  decide +kernel

/-- A word matches at most one row. -/
theorem opcodeTable_admits_unique {r q : OpcodeRow} {w : Word} (hr : r ∈ opcodeTable) (hq : q ∈ opcodeTable)
    (har : r.admits w = true) (haq : q.admits w = true) : r = q := by
  have hdisjoint : opcodeTable.Pairwise (fun r q => ¬(r.admits w = true ∧ q.admits w = true)) :=
    opcodeTable_pairwise_differ.imp fun hd => not_and.mpr (not_admits_of_differ hd)
  have hsymm : Std.Symm fun r q : OpcodeRow => ¬(r.admits w = true ∧ q.admits w = true) :=
    ⟨fun _ _ h hboth => h hboth.symm⟩
  by_contra hne
  exact hdisjoint.forall hr hq hne ⟨har, haq⟩

/-- Settles O6: the pairs are checked; a word that matched two rows would hold both values of the bit in which they
differ; and with at most one row to find, the order does not matter. -/
theorem opcodeRowsNeverOverlap : Obligations.OpcodeRowsNeverOverlap := by
  refine ⟨opcodeTable_pairwise_differ, fun w r q hr hq har haq => opcodeTable_admits_unique hr hq har haq, ?order⟩
  case order =>
    intro w rows hperm
    refine List.find?_eq_find?_of_perm hperm fun r hr q hq => ?_
    exact opcodeTable_admits_unique (hperm.mem_iff.mp hr.1) (hperm.mem_iff.mp hq.1) hr.2 hq.2

/-! ## Undecoded words (R117, R119, R120) -/

/-- The opcodes with a row in the dispatch table of R115. -/
def dispatchedOpcodes : List (BitVec 7) :=
  [0x37#7, 0x17#7, 0x6F#7, 0x67#7, 0x63#7, 0x03#7, 0x23#7, 0x13#7, 0x33#7, 0x73#7, 0x0F#7]

theorem isUndecoded_of_opcode {w : Word} (h : opcodeOf w ∉ dispatchedOpcodes) : IsUndecoded w := by
  unfold IsUndecoded decode
  split
  iterate 11 next ho => exact absurd (by simp [dispatchedOpcodes, ho]) h
  next => exact ⟨_, rfl⟩

/-- A word no row admits is Undecoded. -/
theorem isUndecoded_of_no_row {w : Word} (h : ∀ r ∈ opcodeTable, r.admits w = false) : IsUndecoded w := by
  cases hd : decode w with
  | undecoded why => exact ⟨why, hd⟩
  | instr i =>
    obtain ⟨r, hr, _, ha⟩ := (decoderAgreesWithOpcodeTable w i.mnemonic).mp ⟨i, hd, rfl⟩
    exact absurd ha (by simp [h r hr])

/-- A word is Undecoded when the decoder d of its opcode says so. -/
theorem isUndecoded_of_eq {w : Word} {d : Decoded} (hd : decode w = d) (h : ∃ why, d = .undecoded why) :
    IsUndecoded w := by
  rwa [IsUndecoded, hd]

section Strict

variable {w : Word}

theorem decodeJalr_undecoded (h3 : funct3Of w ≠ 0b000#3) : ∃ why, decodeJalr w = .undecoded why :=
  ⟨.unknownFunct3 0x67#7 (funct3Of w), by simp [decodeJalr]⟩

/-- Under OP-IMM with funct3 001 only inst[31:25] = 0000000 decodes (R117). -/
theorem decodeOpImm_undecoded_left (h3 : funct3Of w = 0b001#3) (h7 : funct7Of w ≠ 0b0000000#7) :
    ∃ why, decodeOpImm w = .undecoded why :=
  ⟨.unknownFunct7 0x13#7 0b001#3 (funct7Of w), by simp [decodeOpImm, h3]⟩

/-- Under OP-IMM with funct3 101 only inst[31:25] = 0000000 and 0100000 decode (R117). -/
theorem decodeOpImm_undecoded_right (h3 : funct3Of w = 0b101#3) (h0 : funct7Of w ≠ 0b0000000#7)
    (h32 : funct7Of w ≠ 0b0100000#7) : ∃ why, decodeOpImm w = .undecoded why :=
  ⟨.unknownFunct7 0x13#7 0b101#3 (funct7Of w), by simp [decodeOpImm, h3]⟩

theorem decodeOp_undecoded_funct7 (h0 : funct7Of w ≠ 0b0000000#7) (h32 : funct7Of w ≠ 0b0100000#7) :
    ∃ why, decodeOp w = .undecoded why :=
  ⟨.unknownFunct7 0x33#7 (funct3Of w) (funct7Of w), by simp [decodeOp]⟩

theorem decodeOp_undecoded_funct3 (h7 : funct7Of w = 0b0100000#7) (h0 : funct3Of w ≠ 0b000#3)
    (h5 : funct3Of w ≠ 0b101#3) : ∃ why, decodeOp w = .undecoded why :=
  ⟨.unknownFunct7 0x33#7 (funct3Of w) 0b0100000#7, by simp [decodeOp, h7]⟩

theorem decodeBranch_undecoded (h3 : funct3Of w = 0b010#3 ∨ funct3Of w = 0b011#3) :
    ∃ why, decodeBranch w = .undecoded why := by
  refine ⟨.unknownFunct3 0x63#7 (funct3Of w), ?_⟩
  obtain h | h := h3 <;> simp [decodeBranch, h]

theorem decodeLoad_undecoded (h3 : funct3Of w = 0b011#3 ∨ funct3Of w = 0b110#3 ∨ funct3Of w = 0b111#3) :
    ∃ why, decodeLoad w = .undecoded why := by
  refine ⟨.unknownFunct3 0x03#7 (funct3Of w), ?_⟩
  obtain h | h | h := h3 <;> simp [decodeLoad, h]

theorem decodeStore_undecoded (h3 : 3 ≤ (funct3Of w).toNat) : ∃ why, decodeStore w = .undecoded why := by
  unfold decodeStore
  split
  iterate 3 next h => exact absurd h3 (by rw [h]; decide)
  next => exact ⟨_, rfl⟩

theorem decodeSystem_undecoded_funct3 (h3 : funct3Of w = 0b100#3) : ∃ why, decodeSystem w = .undecoded why :=
  ⟨.unknownFunct3 0x73#7 (funct3Of w), by simp [decodeSystem, h3]⟩

/-- Under SYSTEM with funct3 000 only the words of ECALL and EBREAK decode (R120). -/
theorem decodeSystem_undecoded_word (h3 : funct3Of w = 0b000#3) (hecall : w ≠ 0x00000073#32)
    (hebreak : w ≠ 0x00100073#32) : ∃ why, decodeSystem w = .undecoded why :=
  ⟨.unknownSystemWord w, by simp [decodeSystem, h3, hecall, hebreak]⟩

end Strict

/-- The low two bits of a word are those of its opcode. -/
theorem opcodeOf_low (w : Word) : (opcodeOf w).extractLsb' 0 2 = w.extractLsb' 0 2 := by
  apply BitVec.eq_of_getLsbD_eq
  intro k hk
  simp only [opcodeOf, BitVec.getLsbD_extractLsb']
  interval_cases k <;> simp

theorem isUndecoded_of_low {w : Word} (h : w.extractLsb' 0 2 ≠ 0b11#2) : IsUndecoded w := by
  refine isUndecoded_of_opcode fun hmem => h ?_
  have hlow : ∀ op ∈ dispatchedOpcodes, op.extractLsb' 0 2 = 0b11#2 := by decide
  rw [← opcodeOf_low, hlow _ hmem]

/-- Settles O8: the arms of funct3 001 and 101 in OP-IMM's decoder. -/
theorem shiftImmediatesDecodeStrictly : Obligations.ShiftImmediatesDecodeStrictly := by
  intro w ho
  rw [IsUndecoded, decode_eq_decodeOpImm ho]
  refine ⟨?slli, decodeOpImm_undecoded_left, ?srli, ?srai, decodeOpImm_undecoded_right⟩
  case slli => intro h3 h7; simp [decodeOpImm, h3, h7]
  case srli => intro h3 h7; simp [decodeOpImm, h3, h7]
  case srai => intro h3 h7; simp [decodeOpImm, h3, h7]

/-- An opcode outside the dispatch table is Undecoded. -/
theorem isUndecoded_of_opcode_mem {w : Word} {ops : List (BitVec 7)} (hops : ∀ op ∈ ops, op ∉ dispatchedOpcodes)
    (h : opcodeOf w ∈ ops) : IsUndecoded w :=
  isUndecoded_of_opcode (hops _ h)

/-- A step that fetches an Undecoded word ends in IllegalInstruction (R119). -/
theorem step_of_isUndecoded {s : State} {w : Word} (hf : s.fetch = some w) (hw : IsUndecoded w) :
    step s = .next (s.begun.raise (.illegalInstruction s.pc w)) := by
  obtain ⟨why, hd⟩ := hw
  exact step_of_undecoded hf hd

/-- Settles O7: a decoded word is admitted by its instruction's row; the step; and class by class the arm of the decoder
that the word reaches. -/
theorem undecodedWordsRaiseIllegalInstruction : Obligations.UndecodedWordsRaiseIllegalInstruction := by
  refine ⟨fun w => isUndecoded_of_no_row, ?step, ⟨_, rfl⟩, ⟨_, rfl⟩, fun w => isUndecoded_of_low, ?wide, ?opFunct7,
    ?opFunct3, ?jalr, ?branch, ?load, ?store, ?systemFunct3, ?systemWord, ⟨_, rfl⟩, ⟨_, rfl⟩, ⟨_, rfl⟩, ?sfence,
    ?otherOpcodes⟩
  case step => exact fun s w hf hw => ⟨_, step_of_isUndecoded hf hw, begun_raise_endsIn s _⟩
  case wide => exact fun w ho => isUndecoded_of_opcode_mem (ops := [0x1B#7, 0x3B#7]) (by decide) (by simpa using ho)
  case opFunct7 => exact fun w ho h0 h32 => isUndecoded_of_eq (decode_eq_decodeOp ho) (decodeOp_undecoded_funct7 h0 h32)
  case opFunct3 =>
    exact fun w ho h7 h0 h5 => isUndecoded_of_eq (decode_eq_decodeOp ho) (decodeOp_undecoded_funct3 h7 h0 h5)
  case jalr => exact fun w ho h3 => isUndecoded_of_eq (decode_eq_decodeJalr ho) (decodeJalr_undecoded h3)
  case branch => exact fun w ho h3 => isUndecoded_of_eq (decode_eq_decodeBranch ho) (decodeBranch_undecoded h3)
  case load => exact fun w ho h3 => isUndecoded_of_eq (decode_eq_decodeLoad ho) (decodeLoad_undecoded h3)
  case store => exact fun w ho h3 => isUndecoded_of_eq (decode_eq_decodeStore ho) (decodeStore_undecoded h3)
  case systemFunct3 =>
    exact fun w ho h3 => isUndecoded_of_eq (decode_eq_decodeSystem ho) (decodeSystem_undecoded_funct3 h3)
  case systemWord =>
    exact fun w ho h3 he hb => isUndecoded_of_eq (decode_eq_decodeSystem ho) (decodeSystem_undecoded_word h3 he hb)
  case sfence =>
    intro w ho h3 h7
    refine isUndecoded_of_eq (decode_eq_decodeSystem ho) (decodeSystem_undecoded_word h3 ?_ ?_)
    · rintro rfl; exact absurd h7 (by decide)
    · rintro rfl; exact absurd h7 (by decide)
  case otherOpcodes => exact fun w => isUndecoded_of_opcode_mem (by decide)

end Sys2Proof

/-! The statements about the invariant of the machine: at reset, through a step, and in every reachable state. -/

namespace Sys2Proof.Machine

/-- A state just constructed, with its registers and memory all zero, meets the invariant. -/
theorem State.inv_of_blank {cfg : Config} (h : cfg.wf) : State.Inv { State.reset with cfg := cfg, mem := [] } :=
  ⟨h, by simp [State.reset], rfl, by simp, rfl, by simp [State.reset], State.reportAgrees_of_running rfl⟩

theorem State.inv_afterReset {cfg : Config} (h : cfg.wf) : (State.afterReset cfg []).Inv :=
  (State.inv_of_blank h).coreReset

/-- Settles O13: both are reached from a state just constructed. -/
theorem invariantHoldsAtReset : Obligations.InvariantHoldsAtReset := by
  have hparams : Params.config.wf := le_refl (2 ^ 31)
  exact ⟨State.inv_of_blank hparams, fun _ h => State.inv_afterReset h⟩

theorem StepShape.inv {s t : State} (h : s.Inv) (hs : StepShape s t) : t.Inv := by
  cases hs with
  | fetchFault _ => exact h.begun.raise _
  | illegal _ _ _ _ => exact h.begun.raise _
  | executed _ _ _ _ _ _ hs => exact hs.inv h.begun

/-- Settles O14: every shape of the state after a step keeps the invariant. -/
theorem invariantKeptByEveryStep : Obligations.InvariantKeptByEveryStep :=
  fun _ _ h hstep => (step_inv hstep).inv h

/-- Settles O15: by induction on how the state is reached. -/
theorem invariantHoldsOfEveryReachableState : Obligations.InvariantHoldsOfEveryReachableState := by
  intro s h
  induction h with
  | reset cfg hcfg => exact State.inv_afterReset hcfg
  | step _ hstep ih => exact (step_inv hstep).inv ih
  | command c _ ih => exact ih.hostCommand c
  | load image _ ih => exact ih.loadImage image

end Sys2Proof.Machine

/-! The statements about the step in 48_cpu_driver.md and the conditions of 60_exceptions.md. -/

namespace Sys2Proof.Machine

/-! ## Fetch and execute (R290, R291, R293) -/

/-- Settles O18: the step's state has one of the shapes. -/
theorem everyStepAnswersNext : Obligations.EveryStepAnswersNext := by
  intro s
  obtain ⟨t, ht, _⟩ := step_shape s
  exact ⟨t, ht⟩

/-- Settles O16: the four bytes are the word the fetch reads. -/
theorem stepRunsTheDecodedInstruction : Obligations.StepRunsTheDecodedInstruction := by
  intro s i hb hd
  exact step_of_instr (fetch_of_inBounds hb) hd

/-- The word at an address is the little-endian number of its four bytes. -/
theorem readWidth_word_eq_ofNat (s : State) (a : Nat) : s.mem.readWidth a .word = BitVec.ofNat 32 (s.wordAt a) := by
  rw [← readWidth_word_toNat, BitVec.ofNat_toNat, BitVec.setWidth_eq]

/-- Settles O17: in range the fetch reads the word at the PC; out of range it reads none, which ends the step. -/
theorem fetchReadsFourBytesOrRaises : Obligations.FetchReadsFourBytesOrRaises := by
  intro s
  constructor
  · intro hb
    rw [fetch_of_inBounds hb, readWidth_word_eq_ofNat]
  · intro hb
    exact ⟨_, step_of_fetch_none (fetch_of_not_inBounds hb), begun_raise_endsIn s _⟩

/-! ## The cause of each condition (R320, R321) -/

theorem State.executes_unique {s : State} {i j : Instr} (hi : s.executes i) (hj : s.executes j) : i = j := by
  obtain ⟨w, hf, hd⟩ := hj
  exact (executes_iff hf hd).mp hi

theorem step_of_executes {s : State} {i : Instr} (h : s.executes i) : step s = exec i s.begun := by
  obtain ⟨w, hf, hd⟩ := h
  exact step_of_instr hf hd

/-- The word a step fetches is the encoding of the instruction it executes. -/
theorem fetch_of_executes {s : State} {i : Instr} (h : s.executes i) : s.fetch = some (encode i) := by
  obtain ⟨w, hf, hd⟩ := h
  obtain ⟨_, rfl⟩ := decode_spelledBy hd
  exact hf

/-- An access out of bounds ends the instruction in MemoryRangeViolation. -/
theorem exec_of_not_inBounds {i : Instr} {s : State} {ea : Word} {w : Width} (hacc : accessOf i s = some (ea, w))
    (hb : ¬InBounds s ea w) : exec i s = .next (s.raise (.memoryRangeViolation s.pc (some (encode i)) ea w)) := by
  obtain ⟨t, ht, hend⟩ := exec_end i s
  cases hend with
  | completes _ _ _ _ hin => exact absurd (hin ea w hacc) hb
  | ecall hi => subst hi; cases hacc
  | ebreak hi => subst hi; cases hacc
  | range ea' w' hacc' _ =>
    rw [hacc] at hacc'
    cases hacc'
    exact ht

/-- The causes of the conditions, with what each report records (R321). -/
inductive ConditionCause (s : State) : Condition → Prop where
  | ecall (hi : s.executes .ecall) : ConditionCause s (.environmentCall s.pc 0x00000073#32)
  | ebreak (hi : s.executes .ebreak) : ConditionCause s (.breakpoint s.pc 0x00100073#32)
  | illegal (w : Word) (hf : s.fetch = some w) (hw : IsUndecoded w) : ConditionCause s (.illegalInstruction s.pc w)
  | fetch (hb : ¬InBounds s s.pc .word) : ConditionCause s (.memoryRangeViolation s.pc none s.pc .word)
  | access (i : Instr) (ea : Word) (w : Width) (hi : s.executes i) (hacc : accessOf i s = some (ea, w))
      (hb : ¬InBounds s ea w) : ConditionCause s (.memoryRangeViolation s.pc (some (encode i)) ea w)

/-- A cause raises its condition. -/
theorem ConditionCause.step_eq {s : State} {c : Condition} (h : ConditionCause s c) :
    step s = .next (s.begun.raise c) := by
  cases h with
  | ecall hi => exact step_of_executes hi
  | ebreak hi => exact step_of_executes hi
  | illegal w hf hw => exact step_of_isUndecoded hf hw
  | fetch hb => exact step_of_fetch_none (fetch_of_not_inBounds hb)
  | access i ea w hi hacc hb =>
    rw [step_of_executes hi]
    exact exec_of_not_inBounds ((accessOf_begun i s).trans hacc) hb

/-- A report names the PC and the word the step fetched. -/
theorem ConditionCause.pc_inst {s : State} {c : Condition} (h : ConditionCause s c) :
    c.pc = s.pc ∧ c.inst = s.fetch := by
  cases h with
  | ecall hi => exact ⟨rfl, (fetch_of_executes hi).symm⟩
  | ebreak hi => exact ⟨rfl, (fetch_of_executes hi).symm⟩
  | illegal w hf _ => exact ⟨rfl, hf.symm⟩
  | fetch hb => exact ⟨rfl, (fetch_of_not_inBounds hb).symm⟩
  | access i ea w hi _ _ => exact ⟨rfl, (fetch_of_executes hi).symm⟩

/-- The causes lie in the PC, the registers, the memory and the parameters, which raising a condition keeps. -/
theorem ConditionCause.after_raise {s : State} {c : Condition} (h : ConditionCause s c) (d : Condition) :
    ConditionCause (s.begun.raise d) c := by
  cases h with
  | ecall hi => exact .ecall hi
  | ebreak hi => exact .ebreak hi
  | illegal w hf hw => exact .illegal w hf hw
  | fetch hb => exact .fetch hb
  | access i ea w hi hacc hb =>
    have hsame : accessOf i (s.begun.raise d) = accessOf i s := by cases i <;> rfl
    exact .access i ea w hi (hsame.trans hacc) hb

/-- A step completes, with the run state Running and the report as it was, or ends in a condition that has its cause. -/
theorem step_completes_or_raises {s t : State} (h : step s = .next t) :
    (t.runState = .running ∧ t.report = s.report) ∨ ∃ c, ConditionCause s c ∧ t = s.begun.raise c := by
  cases step_inv h with
  | fetchFault hf => exact .inr ⟨_, .fetch (not_inBounds_of_fetch_none hf), rfl⟩
  | illegal w why hf hd => exact .inr ⟨_, .illegal w hf ⟨why, hd⟩, rfl⟩
  | executed w i _ hf hd he _ =>
    have hi : s.executes i := ⟨w, hf, hd⟩
    cases exec_end_inv he with
    | completes _ hrun hrep => exact .inl ⟨hrun, hrep⟩
    | ecall hecall => subst hecall; exact .inr ⟨_, .ecall hi, rfl⟩
    | ebreak hebreak => subst hebreak; exact .inr ⟨_, .ebreak hi, rfl⟩
    | range ea w hacc hb => exact .inr ⟨_, .access i ea w hi ((accessOf_begun i s).symm.trans hacc) hb, rfl⟩

/-- A step that does not leave Running ends in a condition that has its cause. -/
theorem step_raises {s t : State} (h : step s = .next t) (hr : t.runState ≠ .running) :
    ∃ c, ConditionCause s c ∧ t = s.begun.raise c :=
  (step_completes_or_raises h).resolve_left fun hc => hr hc.1

/-- A step ends in a condition exactly when the condition has its cause. -/
theorem step_ends_iff {s t : State} (h : step s = .next t) (c : Condition) :
    (t.runState = c.runState ∧ t.report = some c) ↔ ConditionCause s c := by
  constructor
  · rintro ⟨hrun, hrep⟩
    obtain ⟨d, hd, rfl⟩ := step_raises h fun hr => raise_not_running s c (hrun.symm.trans hr)
    obtain rfl : d = c := Option.some.inj hrep
    exact hd
  · intro hc
    obtain rfl : s.begun.raise c = t := Host.Outcome.next.inj (hc.step_eq.symm.trans h)
    exact ⟨rfl, rfl⟩

/-- Settles O20: the condition a step ends in is raised on the state it began with. -/
theorem conditionsArePrecise : Obligations.ConditionsArePrecise := by
  intro s t h hr
  obtain ⟨c, hc, rfl⟩ := step_raises h hr
  exact ⟨c, begun_raise_endsIn s c, hc.pc_inst⟩

/-- Settles O21: a step completes, or it raises one of the four conditions. -/
theorem runStateFollowsTheStep : Obligations.RunStateFollowsTheStep := by
  refine ⟨fun s t h => ?step, fun _ => rfl⟩
  case step =>
    obtain hc | ⟨c, _, rfl⟩ := step_completes_or_raises h
    · exact .inl hc
    · cases c with
      | environmentCall pc inst => exact .inr (.inl ⟨rfl, pc, inst, .inl rfl⟩)
      | breakpoint pc inst => exact .inr (.inl ⟨rfl, pc, inst, .inr rfl⟩)
      | illegalInstruction pc inst => exact .inr (.inr ⟨rfl, .inl ⟨pc, inst, rfl⟩⟩)
      | memoryRangeViolation pc inst ea w => exact .inr (.inr ⟨rfl, .inr ⟨pc, inst, ea, w, rfl⟩⟩)

/-- Settles O22: a step ends in a condition exactly when that condition's cause holds. -/
theorem conditionsFollowTheirCauses : Obligations.ConditionsFollowTheirCauses := by
  intro s t h
  refine ⟨(step_ends_iff h (.environmentCall s.pc 0x00000073#32)).trans ?ecall,
    (step_ends_iff h (.breakpoint s.pc 0x00100073#32)).trans ?ebreak,
    fun w => (step_ends_iff h (.illegalInstruction s.pc w)).trans ?illegal,
    fun inst ea w => (step_ends_iff h (.memoryRangeViolation s.pc inst ea w)).trans ?range⟩
  case ecall => exact ⟨fun | .ecall hi => hi, .ecall⟩
  case ebreak => exact ⟨fun | .ebreak hi => hi, .ebreak⟩
  case illegal => exact ⟨fun | .illegal _ hf hw => ⟨hf, hw⟩, fun ⟨hf, hw⟩ => .illegal w hf hw⟩
  case range =>
    constructor
    · intro hc
      cases hc with
      | fetch hb => exact .inl ⟨rfl, rfl, rfl, hb⟩
      | access i _ _ hi hacc hb => exact .inr ⟨i, hi, rfl, hacc, hb⟩
    · rintro (⟨rfl, rfl, rfl, hb⟩ | ⟨i, hi, rfl, hacc, hb⟩)
      · exact .fetch hb
      · exact .access i ea w hi hacc hb

/-! ## What a step does not read (R297, R330) -/

/-- A step begins by setting the run state, so it does not read it. -/
theorem step_withRunState (s : State) (rs : RunState) : step { s with runState := rs } = step s := rfl

/-- No step reads the report. -/
theorem step_ignoresReport (s : State) (c : Option Condition) :
    SameButReport (step s) (step { s with report := c }) := by
  cases hf : s.fetch with
  | none =>
    exact ⟨_, _, step_of_fetch_none hf, step_of_fetch_none (s := { s with report := c }) hf, rfl⟩
  | some w =>
    cases hd : decode w with
    | undecoded why =>
      exact ⟨_, _, step_of_undecoded hf hd, step_of_undecoded (s := { s with report := c }) hf hd, rfl⟩
    | instr i =>
      rw [step_of_instr hf hd, step_of_instr (s := { s with report := c }) hf hd]
      exact exec_ignoresReport i s.begun c

/-- Settles O19: a step reads neither; and a condition's cause outlasts the condition. -/
theorem stepIgnoresRunStateAndRepeatsConditions : Obligations.StepIgnoresRunStateAndRepeatsConditions := by
  refine ⟨fun s t rs h => (step_withRunState s rs).trans h, ?report, ?again⟩
  case report =>
    intro s t c h
    obtain ⟨t', u, ht', hu, hsame⟩ := step_ignoresReport s c
    obtain rfl : t' = t := Host.Outcome.next.inj (ht'.symm.trans h)
    exact ⟨u, hu, hsame⟩
  case again =>
    intro s t h hr
    obtain ⟨c, hc, rfl⟩ := step_raises h hr
    exact (hc.after_raise c).step_eq

end Sys2Proof.Machine

/-! The statements about what a step may change: CSRs (R277), memory (R42), at most one of each (R295), and never the
parameters (R13, R47). -/

namespace Sys2Proof.Machine

/-! ## What an instruction may change -/

section ExecShape

variable {i : Instr} {s t : State}

/-- An instruction changes at most one register. -/
theorem ExecShape.reg_changed (h : ExecShape i s t) : ∃ rd, ∀ r, t.getReg r ≠ s.getReg r → r = rd := by
  have hset : ∀ (u : State) (rd : Reg) (v : Word) (r : Reg), (u.setReg rd v).getReg r ≠ u.getReg r → r = rd := by
    intro u rd v r hr
    by_contra hne
    exact hr (by simp [State.getReg_setReg, hne])
  cases h with
  | reg rd v _ => exact ⟨rd, hset s rd v⟩
  | csr rd csr v _ _ => exact ⟨rd, hset (s.setCsr csr v) rd (s.getCsr csr)⟩
  | link rd target _ => exact ⟨rd, hset s rd (s.pc + 4#32)⟩
  | quiet _ => exact ⟨0#5, fun _ hr => absurd rfl hr⟩
  | mem _ _ _ _ _ _ _ => exact ⟨0#5, fun _ hr => absurd rfl hr⟩
  | jump _ _ => exact ⟨0#5, fun _ hr => absurd rfl hr⟩
  | raised _ _ _ => exact ⟨0#5, fun _ hr => absurd rfl hr⟩

/-- An instruction changes no CSR but the one it names. -/
theorem ExecShape.csr_changed (h : ExecShape i s t) {c : CsrAddr} (hc : t.getCsr c ≠ s.getCsr c) :
    csrOperand i = some c := by
  cases h with
  | csr rd csr v _ hi =>
    have hsame : c = csr := by
      by_contra hne
      exact hc (by simp [State.getCsr_setCsr, hne])
    rw [hi, hsame]
  | reg rd v _ => exact absurd (by simp) hc
  | link rd target _ => exact absurd (by simp) hc
  | quiet _ => exact absurd rfl hc
  | mem _ _ _ _ _ _ _ => exact absurd rfl hc
  | jump _ _ => exact absurd rfl hc
  | raised _ _ _ => exact absurd rfl hc

/-- An instruction changes no byte but those of the store it is. -/
theorem ExecShape.mem_changed (h : ExecShape i s t) {a : Nat} (ha : t.mem.readByte a ≠ s.mem.readByte a) :
    ∃ w rs2 rs1 imm, storeOperands i = some (w, rs2, rs1, imm) ∧ (s.effAddr rs1 imm).toNat ≤ a ∧
      a < (s.effAddr rs1 imm).toNat + w.bytes := by
  cases h with
  | mem w rs2 rs1 imm _ hi _ =>
    refine ⟨w, rs2, rs1, imm, hi, ?_⟩
    by_contra hout
    exact ha ((Memory.readByte_writeWidth _ _ _ _ _).trans (if_neg hout))
  | reg rd v _ => exact absurd (by simp) ha
  | csr rd csr v _ _ => exact absurd (by simp) ha
  | link rd target _ => exact absurd (by simp) ha
  | quiet _ => exact absurd rfl ha
  | jump _ _ => exact absurd rfl ha
  | raised _ _ _ => exact absurd rfl ha

theorem ExecShape.cfg_eq (h : ExecShape i s t) : t.cfg = s.cfg := by
  cases h with
  | reg rd v _ => simp
  | csr rd csr v _ _ => simp
  | link rd target _ => simp
  | quiet _ => rfl
  | mem _ _ _ _ _ _ _ => rfl
  | jump _ _ => rfl
  | raised _ _ _ => rfl

end ExecShape

/-! ## What a step may change -/

section StepShape

variable {s t : State}

/-- A step raises a condition, or leaves what one instruction leaves. -/
theorem StepShape.raised_or_executed (h : StepShape s t) :
    (∃ c, t = s.begun.raise c) ∨ ∃ i, s.executes i ∧ ExecShape i s.begun t := by
  cases h with
  | fetchFault _ => exact .inl ⟨_, rfl⟩
  | illegal _ _ _ _ => exact .inl ⟨_, rfl⟩
  | executed w i _ hf hd _ hs => exact .inr ⟨i, ⟨w, hf, hd⟩, hs⟩

theorem step_reg_changed (h : step s = .next t) : ∃ rd, ∀ r, t.getReg r ≠ s.getReg r → r = rd := by
  obtain ⟨c, rfl⟩ | ⟨i, _, hs⟩ := (step_inv h).raised_or_executed
  · exact ⟨0#5, fun _ hr => absurd rfl hr⟩
  · exact hs.reg_changed

theorem step_csr_changed (h : step s = .next t) {c : CsrAddr} (hc : t.getCsr c ≠ s.getCsr c) :
    ∃ i, s.executes i ∧ csrOperand i = some c := by
  obtain ⟨d, rfl⟩ | ⟨i, hi, hs⟩ := (step_inv h).raised_or_executed
  · exact absurd rfl hc
  · exact ⟨i, hi, hs.csr_changed hc⟩

theorem step_mem_changed (h : step s = .next t) {a : Nat} (ha : t.mem.readByte a ≠ s.mem.readByte a) :
    ∃ i w rs2 rs1 imm, s.executes i ∧ storeOperands i = some (w, rs2, rs1, imm) ∧
      (s.getReg rs1 + imm).toNat ≤ a ∧ a < (s.getReg rs1 + imm).toNat + w.bytes := by
  obtain ⟨c, rfl⟩ | ⟨i, hi, hs⟩ := (step_inv h).raised_or_executed
  · exact absurd rfl ha
  · obtain ⟨w, rs2, rs1, imm, hops, hin⟩ := hs.mem_changed ha
    exact ⟨i, w, rs2, rs1, imm, hi, hops, hin⟩

theorem step_cfg_eq (h : step s = .next t) : t.cfg = s.cfg := by
  obtain ⟨c, rfl⟩ | ⟨i, _, hs⟩ := (step_inv h).raised_or_executed
  · rfl
  · exact hs.cfg_eq

end StepShape

/-- Settles O24: a step changes only the CSR that its instruction names. -/
theorem onlyZicsrChangesACsr : Obligations.OnlyZicsrChangesACsr := by
  intro s t c h hc
  obtain ⟨i, hi, hcsr⟩ := step_csr_changed h hc
  cases i with
  | csrrw rd csr rs1 => cases hcsr; exact .inl ⟨rd, rs1, .inl hi⟩
  | csrrs rd csr rs1 => cases hcsr; exact .inl ⟨rd, rs1, .inr (.inl hi)⟩
  | csrrc rd csr rs1 => cases hcsr; exact .inl ⟨rd, rs1, .inr (.inr hi)⟩
  | csrrwi rd csr zimm => cases hcsr; exact .inr ⟨rd, zimm, .inl hi⟩
  | csrrsi rd csr zimm => cases hcsr; exact .inr ⟨rd, zimm, .inr (.inl hi)⟩
  | csrrci rd csr zimm => cases hcsr; exact .inr ⟨rd, zimm, .inr (.inr hi)⟩
  | _ => cases hcsr

/-- Settles O25: a step changes only the bytes of the store it executes. -/
theorem onlyStoresChangeMemory : Obligations.OnlyStoresChangeMemory := by
  intro s t a h ha
  obtain ⟨i, w, rs2, rs1, imm, hi, hops, hlo, hhi⟩ := step_mem_changed h ha
  cases i with
  | sb _ _ _ => cases hops; exact ⟨rs2, rs1, imm, .inl ⟨hi, by simp only [Width.bytes] at hhi; omega⟩⟩
  | sh _ _ _ => cases hops; exact ⟨rs2, rs1, imm, .inr (.inl ⟨hi, hlo, hhi⟩)⟩
  | sw _ _ _ => cases hops; exact ⟨rs2, rs1, imm, .inr (.inr ⟨hi, hlo, hhi⟩)⟩
  | _ => cases hops

theorem bytes_le_four (w : Width) : w.bytes ≤ 4 := by cases w <;> decide

/-- Settles O26: the one instruction a step executes writes one GPR, names one CSR and stores at one address. -/
theorem stepChangesAtMostOneOfEach : Obligations.StepChangesAtMostOneOfEach := by
  intro s t h
  refine ⟨?reg, ?csr, ?mem⟩
  case reg =>
    intro r q hr hq
    obtain ⟨rd, hrd⟩ := step_reg_changed h
    exact (hrd r hr).trans (hrd q hq).symm
  case csr =>
    intro c d hc hd
    obtain ⟨i, hi, hic⟩ := step_csr_changed h hc
    obtain ⟨j, hj, hjd⟩ := step_csr_changed h hd
    obtain rfl := State.executes_unique hi hj
    exact Option.some.inj (hic.symm.trans hjd)
  case mem =>
    intro a b ha hb
    obtain ⟨i, w, rs2, rs1, imm, hi, hops, _, hahi⟩ := step_mem_changed h ha
    obtain ⟨j, w', rs2', rs1', imm', hj, hops', hblo, _⟩ := step_mem_changed h hb
    obtain rfl := State.executes_unique hi hj
    obtain ⟨rfl, rfl, rfl, rfl⟩ : w = w' ∧ rs2 = rs2' ∧ rs1 = rs1' ∧ imm = imm' := by
      simpa using hops.symm.trans hops'
    have := bytes_le_four w
    omega

theorem regPort_cfg (c : RegCommand) (s : State) : (regPort c s).2.cfg = s.cfg := by
  cases c with
  | getGpr i => simp only [regPort]; split <;> rfl
  | setGpr i v => simp only [regPort]; split <;> simp
  | getPc => rfl
  | setPc v => rfl
  | incrementPc => rfl
  | getCsr i => simp only [regPort]; split <;> rfl
  | setCsr i v => simp only [regPort]; split <;> rfl
  | resetRegisters => rfl

/-- Settles O27: no shape of the state after a step and no host command writes the parameters. -/
theorem parametersNeverChange : Obligations.ParametersNeverChange := by
  refine ⟨fun _ _ => step_cfg_eq, fun c s => ?command⟩
  case command =>
    cases c with
    | mem _ => rfl
    | reg r => exact regPort_cfg r s
    | reset => rfl

end Sys2Proof.Machine

/-! The statements about 43_loads.md, 44_stores.md and 46_system_sync.md: the loads (R200 to R205), the stores (R220 to
R224), ECALL and EBREAK (R260, R261); and about memory across instructions in 20_memory.md (R68, R77, R81). -/

namespace Sys2Proof.Machine

/-! ## The loads, by the numbers of their bytes (R200 to R204) -/

/-- A load that widens its bytes to v follows the rule of a load of v. -/
theorem load_rule_of_eq {s : State} {i : Instr} {w : Width} {extend : BitVec w.bits → Word} {rd : Reg} {ea v : Word}
    (h : exec i s = load s (encode i) w extend rd ea) (hv : extend (s.mem.readWidth ea.toNat w) = v) :
    LoadRule s i w rd ea v :=
  hv ▸ load_rule h

section Widened

variable (s : State) (a : Nat)

theorem sext8_readWidth : sext8 (s.mem.readWidth a .byte) = BitVec.ofInt 32 (signedOf 8 (s.byteAt a)) :=
  signExtend_eq_ofInt _ (by decide)

theorem zext8_readWidth : zext8 (s.mem.readWidth a .byte) = BitVec.ofNat 32 (s.byteAt a) :=
  zeroExtend_eq_ofNat _

theorem sext16_readWidth : sext16 (s.mem.readWidth a .half) = BitVec.ofInt 32 (signedOf 16 (s.halfAt a)) := by
  rw [← readWidth_half_toNat]
  exact signExtend_eq_ofInt _ (by decide)

theorem zext16_readWidth : zext16 (s.mem.readWidth a .half) = BitVec.ofNat 32 (s.halfAt a) := by
  rw [← readWidth_half_toNat]
  exact zeroExtend_eq_ofNat _

end Widened

/-- Settles O33: each load is one read at x[rs1] + imm, widened. -/
theorem loadResults : Obligations.LoadResults := by
  intro s rd rs1 imm
  refine ⟨?lb, ?lh, ?lw, ?lbu, ?lhu⟩
  case lb => exact load_rule_of_eq rfl (sext8_readWidth s _)
  case lh => exact load_rule_of_eq rfl (sext16_readWidth s _)
  case lw => exact load_rule_of_eq rfl (readWidth_word_eq_ofNat s _)
  case lbu => exact load_rule_of_eq rfl (zext8_readWidth s _)
  case lhu => exact load_rule_of_eq rfl (zext16_readWidth s _)

/-- Settles O34: each store is one write at x[rs1] + imm. -/
theorem storeResults : Obligations.StoreResults :=
  fun _ _ _ _ => ⟨store_rule rfl, store_rule rfl, store_rule rfl⟩

/-- ECALL raises EnvironmentCall (R260). -/
theorem exec_ecall (s : State) : exec .ecall s = .next (s.raise (.environmentCall s.pc 0x00000073#32)) := rfl

/-- EBREAK raises Breakpoint (R261). -/
theorem exec_ebreak (s : State) : exec .ebreak s = .next (s.raise (.breakpoint s.pc 0x00100073#32)) := rfl

/-- Settles O37: each only raises its condition, which leads to Halted. -/
theorem ecallAndEbreakHalt : Obligations.EcallAndEbreakHalt :=
  fun s => ⟨⟨_, exec_ecall s, raise_endsIn s _⟩, ⟨_, exec_ebreak s, raise_endsIn s _⟩, rfl, rfl⟩

/-! ## A load after a store (R81) -/

/-- The state after a store of width w of the low bytes of v at ea, in bounds. -/
def State.stored (s : State) (ea : Word) (w : Width) (v : Word) : State :=
  ({ s with mem := s.mem.writeWidth ea.toNat w v } : State).advance

theorem exec_eq_stored {s : State} {i : Instr} {inst ea ea' v : Word} {w : Width}
    (h : exec i s = store s inst w ea' v) (hea : ea = ea') (hb : InBounds s ea w) :
    exec i s = .next (s.stored ea w v) := by
  subst hea
  exact h.trans (store_of_inRange ((inBounds_iff s ea w).mp hb))

/-- A load of the width and address just stored gives the low bits stored, widened. -/
theorem load_after_store_completes {s : State} {i : Instr} {w : Width} {extend : BitVec w.bits → Word} {rd : Reg}
    {ea ea' v r : Word} (h : exec i (s.stored ea w v) = load (s.stored ea w v) (encode i) w extend rd ea')
    (hea : ea = ea') (hb : InBounds s ea w) (hr : extend (v.extractLsb' 0 w.bits) = r) :
    CompletesWithReg (s.stored ea w v) i rd r := by
  subst hea
  have hread : (s.stored ea w v).mem.readWidth ea.toNat w = v.extractLsb' 0 w.bits :=
    Memory.readWidth_writeWidth s.mem ea.toNat w v
  exact (load_rule_of_eq h ((congrArg extend hread).trans hr)).1 hb

/-- The sign extension of the low n bits, as a number. -/
theorem signExtend_low_eq_ofInt (v : Word) (n : Nat) :
    (v.extractLsb' 0 n).signExtend 32 = BitVec.ofInt 32 ((v.toNat : Int).bmod (2 ^ n)) := by
  rw [BitVec.signExtend, BitVec.toInt_eq_toNat_bmod, BitVec.extractLsb'_toNat, Nat.shiftRight_zero,
    Int.natCast_emod, Int.emod_bmod]

/-- The zero extension of the low n bits, as a number. -/
theorem zeroExtend_low_eq_ofNat (v : Word) (n : Nat) :
    (v.extractLsb' 0 n).zeroExtend 32 = BitVec.ofNat 32 (v.toNat % 2 ^ n) := by
  rw [zeroExtend_eq_ofNat, BitVec.extractLsb'_toNat, Nat.shiftRight_zero]

/-- Settles O40: the store leaves the base register, the bounds and, at its address, the low bits of v. -/
theorem storeThenLoadRoundTrip : Obligations.StoreThenLoadRoundTrip := by
  rintro s rs2 rs1 rd base imm off ea v hstore rfl hload
  refine ⟨fun hb => ⟨_, exec_eq_stored rfl hstore hb, ?lb, ?lbu⟩,
    fun hb => ⟨_, exec_eq_stored rfl hstore hb, ?lh, ?lhu⟩, fun hb => ⟨_, exec_eq_stored rfl hstore hb, ?lw⟩⟩
  case lb => exact load_after_store_completes rfl hload hb (signExtend_low_eq_ofInt _ 8)
  case lbu => exact load_after_store_completes rfl hload hb (zeroExtend_low_eq_ofNat _ 8)
  case lh => exact load_after_store_completes rfl hload hb (signExtend_low_eq_ofInt _ 16)
  case lhu => exact load_after_store_completes rfl hload hb (zeroExtend_low_eq_ofNat _ 16)
  case lw => exact load_after_store_completes rfl hload hb BitVec.extractLsb'_eq_self

/-! ## Narrow reads after a wide write (R68) -/

/-- Byte k of a word just written. -/
theorem readByte_writeWidth_word (m : Memory) (a : Nat) (v : Word) {k : Nat} (hk : k < 4) :
    (m.writeWidth a .word v).readByte (a + k) = v.extractLsb' (8 * k) 8 := by
  rw [Memory.readByte_writeWidth, if_pos ⟨by omega, Nat.add_lt_add_left hk a⟩, Nat.add_sub_cancel_left]
  rfl

/-- The bytes k and k + 1 of a word just written, as a halfword. -/
theorem readHalf_writeWidth_word (m : Memory) (a : Nat) (v : Word) {k : Nat} (hk : k + 1 < 4) :
    (m.writeWidth a .word v).readWidth (a + k) .half = v.extractLsb' (8 * k) 16 := by
  have hlo := readByte_writeWidth_word m a v (k := k) (by omega)
  have hhi := readByte_writeWidth_word m a v hk
  rw [Memory.readWidth, hlo, Nat.add_assoc, hhi]
  exact BitVec.extractLsb'_append_extractLsb'_eq_extractLsb' (Nat.mul_succ 8 k)

/-- A field of a word from byte k, as a number. -/
theorem extractLsb'_byte_eq_ofNat (v : Word) (k n : Nat) :
    v.extractLsb' (8 * k) n = BitVec.ofNat n (v.toNat / 256 ^ k) := by
  rw [BitVec.extractLsb', Nat.shiftRight_eq_div_pow, Nat.pow_mul]

/-- Within R13's bound the bytes of a word in range have the addresses from a on, so that a narrower access at one of
them is in range and reads there. -/
theorem memRead_inside_word {s : State} {a : Word} {w : Width} {k : Nat} (hcfg : s.cfg.wf)
    (ha : inRange s.cfg.memSize a .word = true) (hk : k + w.bytes ≤ 4) :
    s.memRead (a + BitVec.ofNat 32 k) w = some (s.mem.readWidth (a.toNat + k) w) := by
  obtain ⟨_, hend⟩ := (inRange_iff_toNat _ _ _).mp ha
  have hsize : s.cfg.memSize ≤ 2 ^ 31 := hcfg
  simp only [Width.bytes] at hend
  have hw : 0 < w.bytes := by cases w <;> decide
  have haddr : (a + BitVec.ofNat 32 k).toNat = a.toNat + k := by
    rw [BitVec.toNat_add, BitVec.toNat_ofNat]
    omega
  rw [State.memRead_of_inRange ((inRange_iff_toNat _ _ _).mpr (by omega)), haddr]

theorem memRead_byte_after_word {s t : State} {a v : Word} {k : Nat} (hcfg : s.cfg.wf)
    (hwrite : s.memWrite a .word v = some t) (hk : k < 4) :
    t.memRead (a + BitVec.ofNat 32 k) .byte = some (BitVec.ofNat 8 (v.toNat / 256 ^ k)) := by
  obtain ⟨ha, ht⟩ := State.memWrite_eq_some.mp hwrite
  have hc : t.cfg = s.cfg := ht ▸ rfl
  rw [memRead_inside_word (w := .byte) (hc ▸ hcfg) (hc ▸ ha) hk, ht, ← extractLsb'_byte_eq_ofNat]
  exact congrArg some (readByte_writeWidth_word s.mem a.toNat v hk)

theorem memRead_half_after_word {s t : State} {a v : Word} {k : Nat} (hcfg : s.cfg.wf)
    (hwrite : s.memWrite a .word v = some t) (hk : k + 1 < 4) :
    t.memRead (a + BitVec.ofNat 32 k) .half = some (BitVec.ofNat 16 (v.toNat / 256 ^ k)) := by
  obtain ⟨ha, ht⟩ := State.memWrite_eq_some.mp hwrite
  have hc : t.cfg = s.cfg := ht ▸ rfl
  rw [memRead_inside_word (w := .half) (hc ▸ hcfg) (hc ▸ ha) hk, ht, ← extractLsb'_byte_eq_ofNat]
  exact congrArg some (readHalf_writeWidth_word s.mem a.toNat v hk)

/-- Settles O41: each narrow read is a field of the word written. -/
theorem narrowReadsSeeWideWrites : Obligations.NarrowReadsSeeWideWrites := by
  intro s t a v hcfg hwrite
  have hbyte := fun k => memRead_byte_after_word (k := k) hcfg hwrite
  have hhalf := fun k => memRead_half_after_word (k := k) hcfg hwrite
  refine ⟨?byte0, ?byte1, hbyte 2 (by decide), hbyte 3 (by decide), ?half0, hhalf 2 (by decide)⟩
  case byte0 => simpa using hbyte 0 (by decide)
  case byte1 => simpa using hbyte 1 (by decide)
  case half0 => simpa using hhalf 0 (by decide)

/-! ## A store to the next instruction (R77) -/

/-- The word just stored at the next PC is the word fetched next. -/
theorem fetch_stored {s : State} {v : Word} (hb : InBounds s (s.pc + 4#32) .word) :
    (s.stored (s.pc + 4#32) .word v).fetch = some v := by
  have hread : (s.stored (s.pc + 4#32) .word v).mem.readWidth (s.pc + 4#32).toNat .word = v :=
    (Memory.readWidth_writeWidth _ _ .word v).trans BitVec.extractLsb'_eq_self
  exact (fetch_of_inBounds (s := s.stored (s.pc + 4#32) .word v) hb).trans (congrArg some hread)

/-- Settles O42: the step leaves the stored word at its new PC, and the run state Running as the next step sets it. -/
theorem storeToNextInstructionIsFetched : Obligations.StoreToNextInstructionIsFetched := by
  intro s t u rs2 rs1 imm i hsw hea hb hd hstep hexec
  have hstored : step s = .next (s.begun.stored (s.pc + 4#32) .word (s.getReg rs2)) := by
    rw [step_of_executes hsw]
    exact exec_eq_stored rfl hea.symm hb
  obtain rfl := Host.Outcome.next.inj (hstored.symm.trans hstep)
  exact ⟨rfl, (step_of_instr (fetch_stored (s := s.begun) hb) hd).trans hexec⟩

end Sys2Proof.Machine

/-! The statements about the host's side: the register port (R302, R303), the memory port (R61, R78, R79), resets (R361,
R362, R364), boot (R365) and run() (R298, R299). -/

namespace Sys2Proof.Machine

/-! ## Resets (R302, R361, R362) -/

/-- Settles O11: the second reset finds the registers reset, and clears the memory if the first one did. -/
theorem coreResetIdempotent : Obligations.CoreResetIdempotent := by
  intro s
  have hmem : s.coreReset.coreReset.mem = s.coreReset.mem := by
    cases hc : s.cfg.resetClearsMemory with
    | true => rw [State.coreReset_mem_of_clears hc, State.coreReset_mem_of_clears (s := s.coreReset) hc]
    | false => exact State.coreReset_mem_of_keeps (s := s.coreReset) hc
  calc s.coreReset.coreReset = { s.coreReset with mem := s.coreReset.coreReset.mem } := rfl
    _ = s.coreReset := by rw [hmem]

/-- Settles O53: setPC is a jump, incrementPC the driver's advance. -/
theorem hostPcPortAndRegisterFileReset : Obligations.HostPcPortAndRegisterFileReset := by
  intro s v
  have hnext : s.advance.pc = BitVec.ofNat 32 (s.pc.toNat + 4) := add_eq_ofNat s.pc 4#32
  refine ⟨rfl, ⟨s.jump v, rfl, rfl, s.getReg_jump v, s.getCsr_jump v, fun _ => rfl, rfl, rfl, rfl⟩,
    ⟨s.advance, rfl, hnext, s.getReg_advance, s.getCsr_advance, fun _ => rfl, rfl, rfl, rfl⟩, ?_⟩
  exact ⟨s.resetRegisters, rfl, s.getReg_resetRegisters, rfl, s.getCsr_resetRegisters, fun _ => rfl, rfl, rfl, rfl⟩

/-! ## The register port (R302, R303) -/

/-- Settles O43: a number in range is its register's; one out of range is none. -/
theorem hostRegisterPort : Obligations.HostRegisterPort := by
  intro s i v
  refine ⟨?gprOutside, ?gprInside, ?csrOutside, ?csrInside⟩
  case gprOutside => intro h; simp [regPort, hostReg_of_outside h]
  case csrOutside => intro h; simp [regPort, hostCsr_of_outside h]
  case gprInside =>
    intro h0 h1
    refine ⟨BitVec.ofInt 5 i, toNat_ofInt_of_lt h0 h1, by simp [regPort, hostReg_of_inside h0 h1],
      s.setReg (BitVec.ofInt 5 i) v, by simp [regPort, hostReg_of_inside h0 h1], fun r => s.getReg_setReg _ r v, ?_⟩
    exact ⟨by simp, fun c => by simp, fun a => by simp, by simp [SameControl]⟩
  case csrInside =>
    intro h0 h1
    refine ⟨BitVec.ofInt 12 i, toNat_ofInt_of_lt h0 h1, by simp [regPort, hostCsr_of_inside h0 h1],
      s.setCsr (BitVec.ofInt 12 i) v, by simp [regPort, hostCsr_of_inside h0 h1], fun c => s.getCsr_setCsr _ c v, ?_⟩
    exact ⟨rfl, s.getReg_setCsr _ v, fun _ => rfl, rfl, rfl, rfl⟩

/-! ## The memory port (R61, R78, R79) -/

theorem memPort_error {memSize : Nat} {c : MemCommand} {m : Memory} {e : HostError}
    (h : (memPort memSize c m).1 = .error e) : (memPort memSize c m).2 = m := by
  have store : ∀ a w v, (hostStore memSize m a w v).1 = .error e → (hostStore memSize m a w v).2 = m := by
    intro a w v h
    obtain ⟨_, _, hdone⟩ | ⟨_, _, herr⟩ := hostStore_cases memSize m a w v
    · rw [hdone] at h; cases h
    · rw [herr]
  cases c with
  | fetchWord a => exact hostLoad_snd _ _ _ _ _
  | loadHalf a => exact hostLoad_snd _ _ _ _ _
  | loadHalfU a => exact hostLoad_snd _ _ _ _ _
  | loadByte a => exact hostLoad_snd _ _ _ _ _
  | loadByteU a => exact hostLoad_snd _ _ _ _ _
  | storeWord a v => exact store a .word v h
  | storeHalf a v => exact store a .half v h
  | storeByte a v => exact store a .byte v h
  | resetMemory => cases h

theorem regPort_error {c : RegCommand} {s : State} {e : HostError} (h : (regPort c s).1 = .error e) :
    (regPort c s).2 = s := by
  cases c with
  | getGpr i => simp only [regPort]; split <;> rfl
  | setGpr i v => simp only [regPort] at h ⊢; split at h <;> [cases h; rfl]
  | getPc => cases h
  | setPc v => cases h
  | incrementPc => cases h
  | getCsr i => simp only [regPort]; split <;> rfl
  | setCsr i v => simp only [regPort] at h ⊢; split at h <;> [cases h; rfl]
  | resetRegisters => cases h

/-- Settles O44: neither port changes anything when it answers an error, and reset answers none. -/
theorem hostErrorsChangeNothing : Obligations.HostErrorsChangeNothing := by
  intro c s e h
  cases c with
  | mem m =>
    have hmem : (memPort s.cfg.memSize m s.mem).2 = s.mem := memPort_error h
    simp [hostCommand, hmem]
  | reg r => exact regPort_error h
  | reset => cases h

theorem hostValueFits_iff (w : Width) (v : Int) :
    hostValueFits w v = true ↔ -(2 ^ (w.bits - 1)) ≤ v ∧ v < 2 ^ (w.bits - 1) := by
  simp [hostValueFits]

section HostStore

variable {s : State} {c : MemCommand} {a v : Int} {w : Width}

/-- A host store of a value or at an address out of range answers an error and changes nothing. -/
theorem hostStore_error (hc : memPort s.cfg.memSize c s.mem = hostStore s.cfg.memSize s.mem a w v)
    (h : ¬((0 ≤ a ∧ a + w.bytes ≤ s.cfg.memSize) ∧ -(2 ^ (w.bits - 1)) ≤ v ∧ v < 2 ^ (w.bits - 1))) :
    ∃ e, hostCommand (.mem c) s = (.error e, s) := by
  obtain ⟨hr, hv, _⟩ | ⟨_, e, he⟩ := hostStore_cases s.cfg.memSize s.mem a w v
  · exact absurd ⟨(hostInRange_iff _ _ _).mp hr, (hostValueFits_iff _ _).mp hv⟩ h
  · exact ⟨e, by simp [hostCommand, hc, he]⟩

/-- Any other host store writes its bytes and changes nothing else. -/
theorem hostStore_done (hc : memPort s.cfg.memSize c s.mem = hostStore s.cfg.memSize s.mem a w v)
    (hr : 0 ≤ a ∧ a + w.bytes ≤ s.cfg.memSize) (hv : -(2 ^ (w.bits - 1)) ≤ v ∧ v < 2 ^ (w.bits - 1)) :
    ∃ t, hostCommand (.mem c) s = (.done, t) ∧ WritesMem s t a.toNat w.bytes (BitVec.ofInt 32 v) ∧
      t.pc = s.pc ∧ SameRegs s t ∧ SameCsrs s t ∧ SameControl s t := by
  have hstore : hostStore s.cfg.memSize s.mem a w v = (.done, s.mem.writeWidth a.toNat w (BitVec.ofInt 32 v)) := by
    simp [hostStore, (hostInRange_iff _ _ _).mpr hr, (hostValueFits_iff _ _).mpr hv]
  exact ⟨_, by rw [hostCommand, hc, hstore], writesMem_writeWidth s a.toNat w _, rfl, fun _ => rfl, fun _ => rfl, rfl,
    rfl, rfl⟩

end HostStore

/-- Settles O45: each host store checks its width's bounds on the address and on the value, or writes. -/
theorem hostStoresCheckAddressAndValue : Obligations.HostStoresCheckAddressAndValue := by
  rintro s a v memSize rfl
  refine ⟨?byteValue, ?halfValue, ?wordValue, ?byteRange, ?halfRange, ?wordRange, ?byte, ?half, ?word⟩
  case byteValue => exact fun h => hostStore_error (w := .byte) rfl (by simp [Width.bytes]; omega)
  case halfValue => exact fun h => hostStore_error (w := .half) rfl (by simp [Width.bytes]; omega)
  case wordValue => exact fun h => hostStore_error (w := .word) rfl (by simp [Width.bytes]; omega)
  case byteRange => exact fun h => hostStore_error (w := .byte) rfl (by simp [Width.bytes]; omega)
  case halfRange => exact fun h => hostStore_error (w := .half) rfl (by simp [Width.bytes]; omega)
  case wordRange => exact fun h => hostStore_error (w := .word) rfl (by simp [Width.bytes]; omega)
  case byte => exact fun h0 h1 h2 h3 => hostStore_done (w := .byte) rfl ⟨h0, h1⟩ ⟨h2, by simp; omega⟩
  case half => exact fun h0 h1 h2 h3 => hostStore_done (w := .half) rfl ⟨h0, h1⟩ ⟨h2, by simp; omega⟩
  case word => exact fun h0 h1 h2 h3 => hostStore_done (w := .word) rfl ⟨h0, h1⟩ ⟨h2, by simp; omega⟩

section HostLoad

variable {s : State} {c : MemCommand} {a : Int} {w : Width} {extend : BitVec w.bits → Word}

/-- A host read in range answers the widened value and changes nothing. -/
theorem hostLoad_value {v : Word} (hc : memPort s.cfg.memSize c s.mem = hostLoad s.cfg.memSize s.mem a w extend)
    (hr : 0 ≤ a ∧ a + w.bytes ≤ s.cfg.memSize) (hv : extend (s.mem.readWidth a.toNat w) = v) :
    hostCommand (.mem c) s = (.value v, s) := by
  simp [hostCommand, hc, hostLoad, (hostInRange_iff _ _ _).mpr hr, hv]

/-- A host read out of range answers an error and changes nothing. -/
theorem hostLoad_error (hc : memPort s.cfg.memSize c s.mem = hostLoad s.cfg.memSize s.mem a w extend)
    (hr : a < 0 ∨ s.cfg.memSize < a + w.bytes) : hostCommand (.mem c) s = (.error .memoryRange, s) := by
  have hout : hostInRange s.cfg.memSize a w = false := by
    rw [Bool.eq_false_iff, ne_eq, hostInRange_iff]
    omega
  simp [hostCommand, hc, hostLoad, hout]

end HostLoad

/-- Settles O46: each host read is one read of its width, widened, or the range error. -/
theorem hostLoadsReadAndWiden : Obligations.HostLoadsReadAndWiden := by
  rintro s a memSize rfl
  refine ⟨fun h0 h1 => ⟨?loadByte, ?loadByteU⟩, fun h0 h1 => ⟨?loadHalf, ?loadHalfU⟩, fun h0 h1 => ?fetchWord,
    fun h => ⟨hostLoad_error rfl h, hostLoad_error rfl h⟩, fun h => ⟨hostLoad_error rfl h, hostLoad_error rfl h⟩,
    fun h => hostLoad_error rfl h⟩
  case loadByte => exact hostLoad_value rfl ⟨h0, h1⟩ (sext8_readWidth s _)
  case loadByteU => exact hostLoad_value rfl ⟨h0, h1⟩ (zext8_readWidth s _)
  case loadHalf => exact hostLoad_value rfl ⟨h0, h1⟩ (sext16_readWidth s _)
  case loadHalfU => exact hostLoad_value rfl ⟨h0, h1⟩ (zext16_readWidth s _)
  case fetchWord => exact hostLoad_value rfl ⟨h0, h1⟩ (readWidth_word_eq_ofNat s _)

theorem Memory.readWidth_nil_word (a : Nat) : Memory.readWidth [] a .word = 0#32 := by
  simp [Memory.readWidth, Memory.readByte]

/-- Settles O54: the port's reset empties the memory, where every word reads 0. -/
theorem hostMemoryResetZeroesEveryByte : Obligations.HostMemoryResetZeroesEveryByte := by
  intro s
  refine ⟨{ s with mem := [] }, rfl, Cells.read_nil, rfl, fun _ => rfl, fun _ => rfl, ⟨rfl, rfl, rfl⟩, ?_⟩
  intro a h0 h1
  exact hostLoad_value rfl ⟨h0, h1⟩ (Memory.readWidth_nil_word _)

/-! ## Boot, and a core before its first reset (R364, R365) -/

theorem State.getReg_afterReset (cfg : Config) (mem : Memory) (r : Reg) : (State.afterReset cfg mem).getReg r = 0#32 :=
  State.getReg_coreReset _ r

theorem State.getCsr_afterReset (cfg : Config) (mem : Memory) (c : CsrAddr) :
    (State.afterReset cfg mem).getCsr c = 0#32 :=
  State.getCsr_coreReset _ c

/-- Settles O49: the image is placed over a memory that is all zero. -/
theorem bootLoadsTheImageAtZero : Obligations.BootLoadsTheImageAtZero := by
  intro cfg image hfits
  have hblank : (State.afterReset cfg []).mem = [] := ite_self []
  refine ⟨{ State.afterReset cfg [] with mem := Memory.placeBytes [] 0 image }, ?boot, ?mem,
    State.getReg_afterReset cfg [], State.getCsr_afterReset cfg [], rfl, rfl, rfl, rfl⟩
  case boot =>
    rw [boot, loadImage, hblank]
    exact if_pos hfits
  case mem =>
    intro a
    rw [Memory.readByte_placeBytes]
    split
    next => rfl
    next hout => exact (List.getD_eq_default _ _ (by omega)).symm

/-- Settles O50: only the memory is there before the first reset, and the memory port reads no other field of a core. -/
theorem constructedCoreIsStuckUntilReset : Obligations.ConstructedCoreIsStuckUntilReset := by
  intro cfg mem r m s
  refine ⟨rfl, rfl, rfl, rfl, State.afterReset cfg mem, rfl, rfl, rfl, rfl, rfl, State.getReg_afterReset cfg mem,
    State.getCsr_afterReset cfg mem, fun a => ?_⟩
  exact apply_ite (fun m : Memory => m.readByte a) _ _ _

/-! ## run() (R298, R299) -/

theorem runFuel_succ_of_normal {n : Nat} {s t : State} (h : step s = .next t) (ht : t.stepResult = .normal) :
    runFuel (n + 1) s = runFuel n t := by
  simp [runFuel, h, ht]

theorem runFuel_succ_of_condition {n : Nat} {s t : State} {c : Condition} (h : step s = .next t)
    (ht : t.stepResult = .halt c ∨ t.stepResult = .fault c) : runFuel (n + 1) s = .ended c t := by
  obtain ht | ht := ht <;> simp [runFuel, h, ht]

/-- A run under fuel ends with the condition of its last step after Normal steps, or takes only Normal steps. -/
theorem runFuel_cases (n : Nat) (s : State) :
    (∃ c t, runFuel n s = .ended c t ∧ ∃ k u, k < n ∧ NormalSteps k s u ∧ step u = .next t ∧ t.runState ≠ .running ∧
      t.report = some c ∧ t.runState = c.runState) ∨
    ∃ t, runFuel n s = .outOfFuel t ∧ NormalSteps n s t := by
  induction n generalizing s with
  | zero => exact .inr ⟨s, rfl, rfl⟩
  | succ n ih =>
    obtain ⟨u, hu⟩ := everyStepAnswersNext s
    obtain ⟨hnormal, hrun⟩ | ⟨c, hrep, hstate, hstop, hresult⟩ := stepResult_of_step hu
    · rw [runFuel_succ_of_normal hu hnormal]
      obtain ⟨c, t, hend, k, x, hk, hsteps, hlast⟩ | ⟨t, hend, hsteps⟩ := ih u
      · exact .inl ⟨c, t, hend, k + 1, x, by omega, ⟨u, hu, hrun, hsteps⟩, hlast⟩
      · exact .inr ⟨t, hend, u, hu, hrun, hsteps⟩
    · exact .inl ⟨c, u, runFuel_succ_of_condition hu hresult, 0, s, by omega, rfl, hu, hstop, hrep, hstate⟩

/-- Settles O47: by induction on the fuel, a run is Normal steps and then a condition, or Normal steps only. -/
theorem runEndsAtTheFirstCondition : Obligations.RunEndsAtTheFirstCondition := by
  constructor
  · intro n s t c h
    obtain ⟨d, u, hend, hlast⟩ | ⟨u, hout, _⟩ := runFuel_cases n s
    · rw [hend] at h
      cases h
      exact hlast
    · rw [hout] at h
      cases h
  · intro n s
    exact (runFuel_cases n s).imp_left fun ⟨c, t, hend, _⟩ => ⟨c, t, hend⟩

/-- A taken branch to its own address leaves the state the step began with. -/
theorem step_of_branch_to_itself {s : State} (h : s.executes (.beq 0#5 0#5 0#32)) : step s = .next s.begun := by
  have hpc : s.begun.jump (s.pc + 0#32) = s.begun := by rw [BitVec.add_zero]; rfl
  rw [step_of_executes h]
  exact congrArg Host.Outcome.next hpc

/-- Settles O48: by induction on the fuel, each step leaves the branch to be executed again. -/
theorem branchToItselfNeverEnds : Obligations.BranchToItselfNeverEnds := by
  intro n
  induction n with
  | zero => exact fun s _ => ⟨s, rfl, rfl, fun _ => rfl, fun _ => rfl, fun _ => rfl⟩
  | succ n ih =>
    intro s h
    rw [runFuel_succ_of_normal (step_of_branch_to_itself h) rfl]
    exact ih s.begun h

end Sys2Proof.Machine

/-! The statements about the pseudo-instructions of 30_encoding.md that expand to two instructions: li (R128) and call
(R127). -/

namespace Sys2Proof.Machine

theorem execAll_cons {i : Instr} {s t : State} {rest : List Instr} (h : exec i s = .next t) :
    execAll (i :: rest) s = execAll rest t := by
  simp [execAll, h]

/-- ADDI retires the sum of its register and its immediate (R160). -/
theorem exec_addi (s : State) (rd rs1 : Reg) (imm : Word) :
    exec (.addi rd rs1 imm) s = retire s rd (s.getReg rs1 + imm) := rfl

theorem getReg_setReg_same (s : State) {rd : Reg} (v : Word) (h : rd ≠ 0#5) : (s.setReg rd v).getReg rd = v := by
  simp [State.getReg_setReg, h]

/-- A second write of a register replaces the first. -/
theorem getReg_setReg_twice {s t : State} {rd : Reg} {u : Word} (h : ∀ r, t.getReg r = (s.setReg rd u).getReg r)
    (v : Word) : WritesReg s (t.setReg rd v) rd v := by
  intro r
  rw [State.getReg_setReg, h, State.getReg_setReg]
  split
  next => rfl
  next => rfl

theorem expandLi_wf (rd : Reg) (v : Word) : ∀ i ∈ expandLi rd v, i.wf = true := by
  unfold expandLi
  split
  next hfits => simpa [Instr.wf] using hfits
  next => simp [Instr.wf, fitsUpper_hi20, fitsImm12_lo12]

/-- Settles O51: one ADDI from x0 gives v; LUI and ADDI give the sum of its two halves, which is v. -/
theorem loadImmediateBuildsTheConstant : Obligations.LoadImmediateBuildsTheConstant := by
  intro s rd v hrd
  refine ⟨expandLi_wf rd v, ?_⟩
  unfold expandLi
  split
  next =>
    have hsum : s.getReg 0#5 + v = v := by simp
    refine ⟨(s.setReg rd v).advance, ?_, fun r => s.getReg_setReg rd r v, by simp, fun c => by simp, fun a => by simp,
      by simp [SameControl]⟩
    rw [execAll_cons (exec_addi s rd 0#5 v), hsum]
    rfl
  next =>
    have hsum : (s.setReg rd (hi20 v)).advance.getReg rd + lo12 v = v := by
      rw [State.getReg_advance, getReg_setReg_same s _ hrd, hi20_add_lo12]
    refine ⟨((s.setReg rd (hi20 v)).advance.setReg rd v).advance, ?_,
      getReg_setReg_twice (State.getReg_advance _) v, ?_, fun c => by simp, fun a => by simp, by simp [SameControl]⟩
    · rw [execAll_cons (exec_lui s rd (hi20 v)), execAll_cons (exec_addi _ rd rd (lo12 v)), hsum]
      rfl
    · simp [BitVec.add_assoc]

/-- Settles O52: AUIPC leaves the upper half of pc + off in ra, from which JALR adds the lower half and links. -/
theorem callJumpsRelativeToItsOwnPc : Obligations.CallJumpsRelativeToItsOwnPc := by
  intro s off
  refine ⟨by simp [Pseudo.expand, Instr.wf, fitsUpper_hi20, fitsImm12_lo12], ?_⟩
  have hbase : (s.setReg 1#5 (s.pc + hi20 off)).advance.getReg 1#5 + lo12 off = s.pc + off := by
    rw [State.getReg_advance, getReg_setReg_same s _ (by decide), BitVec.add_assoc, hi20_add_lo12]
  have hlink : (s.setReg 1#5 (s.pc + hi20 off)).advance.pc + 4#32 = s.pc + 8#32 := by
    simp [BitVec.add_assoc]
  refine ⟨((s.setReg 1#5 (s.pc + hi20 off)).advance.setReg 1#5 (s.pc + 8#32)).jump
      (BitVec.ofNat 32 ((s.pc + off).toNat / 2 * 2)), ?_, getReg_setReg_twice (State.getReg_advance _) _, rfl,
    fun c => by simp, fun a => by simp, by simp [SameControl]⟩
  rw [Pseudo.expand, execAll_cons (exec_auipc s 1#5 (hi20 off)), execAll_cons (exec_jalr _ 1#5 1#5 (lo12 off)),
    jalrTarget_eq_ofNat, hbase, hlink]
  rfl

end Sys2Proof.Machine
